-- ==== Sys2Proof/Word.lean ====
section
/-! DEFINITION. The widths of the block's values (00_scope.md R7, R11): words, halfwords, bytes. -/

namespace Sys2Proof

/-- A 32-bit value: CMD, OPA, OPB, RES0, RES1, a time in microseconds (TIME_W = 32, R7). -/
abbrev Word := BitVec 32

/-- A 16-bit value: an angle, an RPM, a counter, a compare register (R7). -/
abbrev Half := BitVec 16

/-- An 8-bit value: the OP and IDX fields of CMD (R91), a byte of a byte-wide link (R72). -/
abbrev Byte := BitVec 8

end Sys2Proof
end

