-- ==== Sys2Proof/Config.lean ====
section
/-! DEFINITION. The build parameters of 00_scope.md R7 and the free values: what the spec's arithmetic (R12) gives no
value for. -/

namespace Sys2Proof.Config

/-- LOG_SIZE, the entries of the tooth history log, at the spec's default (R7, R44). DESIGN CHOICE, log entry 4:
the model is of the default build. -/
def logSize : Nat := 64

/-- TABLE_MAX, the entries of the tooth-angle table, at the spec's default, the only one the register map fixes
(R7, R60, D54). DESIGN CHOICE, log entry 4. -/
def tableMax : Nat := 64

/-- NUM_CH, the scheduler channels (R7, R210). -/
abbrev numChannels : Nat := 16

/-- NUM_TIMERS, the timer peripherals (R7, R212). -/
abbrev numTimers : Nat := 2

/-- NUM_METHODS, the implemented conversion methods (R7, R121). -/
abbrev numMethods : Nat := 3

/-- MAX_CH_PER_KIND, the compiled channel limit of each kind (R7, R220). -/
def maxChPerKind : Nat := 8

/-- The number of words of the snapshot bank (R46). -/
abbrev snapSize : Nat := 24

/-- MAX_DELAY, the largest delay or duration accepted (R7, R221). -/
def maxDelay : Nat := 2 ^ 31 - 1

/-- The order in which one time step examines the two peripherals, PERIPH_ORDER of 42_event_scheduler.md R235. -/
inductive PeriphOrder where
  /-- (0, 1), the spec's default. -/
  | zeroFirst
  /-- (1, 0), the other order R235 allows. -/
  | oneFirst
deriving DecidableEq, Repr

/-- The quotient of a division by 0: R12 defines `a / b` for b > 0 only. A free value; no state that a run reaches
reads it. Log entry 6. -/
opaque divByZero : Nat → Nat

/-- The remainder modulo 0: R12 defines no `a mod 0`. A free value; no state that a run reaches reads it.
Log entry 6. -/
opaque modByZero : Int → Int

/-- What CFG_TABLE holds beyond its TABLE_MAX entries: the spec names no such entry (R54). A free value; no state
that a run reaches reads it. Log entry 7. -/
opaque tableBeyond : Int → Half

end Sys2Proof.Config
end

