-- ==== Sys2Proof/Syntax.lean ====
section
/-! DEFINITION. The 21 commands of the opcode map (30_encoding.md R93), one constructor per row of
spec/opcode_table.json, with the operands R95 assembles; the agents and their operations (00_scope.md R8, R9); and
the pseudo-instructions of R100. -/

namespace Sys2Proof

/-- The five agents that drive the block (00_scope.md R8). -/
inductive Agent where
  /-- The firmware's main loop: may issue every command. -/
  | host
  /-- The crank sensor: issues only TD_PRIMARY_EDGE. -/
  | primary
  /-- The cam sensor: issues only TD_SECONDARY_EDGE. -/
  | secondary
  /-- The low-frequency periodic tick: issues only TD_STALL_CHECK. -/
  | tick
  /-- Performs only the time step. -/
  | timebase
deriving DecidableEq, Repr

/-- The commands. An index operand (method, channel, register number, log index) is the 8-bit IDX field as it stands
in CMD (R91); which values are legal is `Instr.wellFormed` (R92). -/
inductive Instr where
  /-- NOP, R264. -/
  | nop
  /-- TD_SETUP, R150. -/
  | tdSetup
  /-- TD_PRIMARY_EDGE, R151. -/
  | tdPrimaryEdge
  /-- TD_SECONDARY_EDGE, R164. -/
  | tdSecondaryEdge
  /-- TD_GET_RPM, R175. -/
  | tdGetRpm
  /-- TD_GET_CRANK_ANGLE m, R176. -/
  | tdGetCrankAngle (m : Byte)
  /-- TD_STALL_CHECK, R173. -/
  | tdStallCheck
  /-- TD_SNAPSHOT, R257. -/
  | tdSnapshot
  /-- REG_READ reg, bank, R254 (bank true: the snapshot). -/
  | regRead (reg : Byte) (bank : Bool)
  /-- CFG_WRITE reg, value, R251. -/
  | cfgWrite (reg : Byte) (value : Word)
  /-- STICKY_CLEAR mask, R259. -/
  | stickyClear (mask : BitVec 7)
  /-- LOG_READ i, R260. -/
  | logRead (i : Byte)
  /-- LOG_CLEAR, R261. -/
  | logClear
  /-- CM_ANGLE_TO_TIME m, angle, R125 (a signed 16-bit angle). -/
  | cmAngleToTime (m : Byte) (angle : Half)
  /-- CM_TIME_TO_ANGLE m, time, R126. -/
  | cmTimeToAngle (m : Byte) (time : Word)
  /-- CM_SPEED_CALCS, R127. -/
  | cmSpeedCalcs
  /-- CM_IGNITION_LIMITS angle, R128 (a signed 16-bit angle). -/
  | cmIgnitionLimits (angle : Half)
  /-- SCH_INIT, R220. -/
  | schInit
  /-- SCH_SCHEDULE ch, delay, duration, R221. -/
  | schSchedule (ch : Byte) (delay duration : Word)
  /-- SCH_CANCEL ch, R225. -/
  | schCancel (ch : Byte)
  /-- SCH_STATUS ch, R226. -/
  | schStatus (ch : Byte)
deriving DecidableEq, Repr

/-- One command transaction: the three 32-bit words CMD, OPA and OPB (R90). -/
structure Transaction where
  cmd : Word
  opa : Word
  opb : Word
deriving DecidableEq, Repr

/-- An operation of an agent (00_scope.md R9): a command transaction, or the TIMEBASE agent's time step. -/
inductive Operation where
  | command (agent : Agent) (t : Transaction)
  | timeStep
deriving DecidableEq, Repr

/-- The pseudo-instructions of R100. -/
inductive Pseudo where
  /-- `WAIT n`. -/
  | wait (n : Nat)
  /-- `AT t`. -/
  | atTime (t : Word)
  /-- `CFG reg, value`. -/
  | cfg (reg : Byte) (value : Word)
  /-- `TEETH n, P`. -/
  | teeth (n : Nat) (period : Nat)
  /-- `CLEARALL`. -/
  | clearAll
deriving DecidableEq, Repr

end Sys2Proof
end

