-- ==== Sys2Proof/WellFormed.lean ====
section
/-! DEFINITION. Which instructions are well formed: the legal IDX values of each format (30_encoding.md R92), and
which commands an agent issues (00_scope.md R8). -/

namespace Sys2Proof

/-- The five command formats (R92). -/
inductive Format where
  /-- No IDX operand: IDX is 0. -/
  | c0
  /-- IDX is a conversion method. -/
  | cm
  /-- IDX is a channel number. -/
  | cc
  /-- IDX is a register number. -/
  | cr
  /-- IDX is a log index. -/
  | cl
deriving DecidableEq, Repr

/-- The legal IDX values of a format, the third column of R92's table. -/
def Format.legalIdx : Format → Byte → Bool
  | .c0, idx => idx == 0
  | .cm, idx => decide (idx.toNat ≤ 4)
  | .cc, idx => decide (idx.toNat ≤ 15)
  | .cr, _ => true
  | .cl, _ => true

/-- An instruction is well formed when its index operand is one its format decodes (R92, R94). -/
def Instr.wellFormed : Instr → Bool
  | .tdGetCrankAngle m => Format.cm.legalIdx m
  | .cmAngleToTime m _ => Format.cm.legalIdx m
  | .cmTimeToAngle m _ => Format.cm.legalIdx m
  | .schSchedule ch _ _ => Format.cc.legalIdx ch
  | .schCancel ch => Format.cc.legalIdx ch
  | .schStatus ch => Format.cc.legalIdx ch
  | .nop | .tdSetup | .tdPrimaryEdge | .tdSecondaryEdge | .tdGetRpm | .tdStallCheck | .tdSnapshot
  | .regRead _ _ | .cfgWrite _ _ | .stickyClear _ | .logRead _ | .logClear | .cmSpeedCalcs
  | .cmIgnitionLimits _ | .schInit => true

/-- Which commands an agent issues (00_scope.md R8): a description of the system's wiring, not a check of the block
(60_exceptions.md R289). -/
def Agent.mayIssue : Agent → Instr → Bool
  | .host, _ => true
  | .primary, i => i == .tdPrimaryEdge
  | .secondary, i => i == .tdSecondaryEdge
  | .tick, i => i == .tdStallCheck
  | .timebase, _ => false

end Sys2Proof
end

