-- ==== Sys2Proof/Decode.lean ====
section
/-! DEFINITION. Decoding a command transaction (30_encoding.md R90 to R95, byte order 20_memory.md R72), total on any
words and on any bytes, and after it the encoder, written from the same tables. -/

namespace Sys2Proof

/-- Why a transaction is no command: the checks of R94 in their order, and a byte stream shorter than one
transaction (R90). -/
inductive DecodeError where
  /-- Fewer than the twelve bytes of one transaction. -/
  | truncated
  /-- CMD[31:16] is not 0. -/
  | reservedField
  /-- CMD[7:0] is not in the opcode map. -/
  | unknownOpcode
  /-- Format C0 with CMD[15:8] not 0. -/
  | indexNotZero
  /-- Format CM with a method code above 4. -/
  | methodOutOfRange
  /-- Format CC with a channel number above 15. -/
  | channelOutOfRange
deriving DecidableEq, Repr

/-- The OP field, CMD[7:0] (R91). -/
def opField (cmd : Word) : Byte := cmd.extractLsb' 0 8

/-- The IDX field, CMD[15:8] (R91). -/
def idxField (cmd : Word) : Byte := cmd.extractLsb' 8 8

/-- The RSV field, CMD[31:16] (R91). -/
def rsvField (cmd : Word) : Half := cmd.extractLsb' 16 16

/-- The angle operand, OPA[15:0]; OPA[31:16] is ignored (R95). -/
def angleOperand (opa : Word) : Half := opa.extractLsb' 0 16

/-- The bank operand, OPA[0]; OPA[31:1] is ignored (R95). -/
def bankOperand (opa : Word) : Bool := opa.getLsbD 0

/-- The mask operand, OPA[6:0]; OPA[31:7] is ignored (R95). -/
def maskOperand (opa : Word) : BitVec 7 := opa.extractLsb' 0 7

/-- The opcode map (R93): the format of an opcode and the command it stands for with its operands assembled (R95);
none for a value of OP outside the map (R98). -/
def opcodeRow (op idx : Byte) (opa opb : Word) : Option (Format × Instr) :=
  match op.toNat with
  | 0x00 => some (.c0, .nop)
  | 0x01 => some (.c0, .tdSetup)
  | 0x02 => some (.c0, .tdPrimaryEdge)
  | 0x03 => some (.c0, .tdSecondaryEdge)
  | 0x04 => some (.c0, .tdGetRpm)
  | 0x05 => some (.cm, .tdGetCrankAngle idx)
  | 0x06 => some (.c0, .tdStallCheck)
  | 0x07 => some (.c0, .tdSnapshot)
  | 0x08 => some (.cr, .regRead idx (bankOperand opa))
  | 0x09 => some (.cr, .cfgWrite idx opa)
  | 0x0A => some (.c0, .stickyClear (maskOperand opa))
  | 0x0B => some (.cl, .logRead idx)
  | 0x0C => some (.c0, .logClear)
  | 0x10 => some (.cm, .cmAngleToTime idx (angleOperand opa))
  | 0x11 => some (.cm, .cmTimeToAngle idx opa)
  | 0x12 => some (.c0, .cmSpeedCalcs)
  | 0x13 => some (.c0, .cmIgnitionLimits (angleOperand opa))
  | 0x20 => some (.c0, .schInit)
  | 0x21 => some (.cc, .schSchedule idx opa opb)
  | 0x22 => some (.cc, .schCancel idx)
  | 0x23 => some (.cc, .schStatus idx)
  | _ => none

/-- The name of the check an illegal IDX fails (R94). Formats CR and CL have no illegal IDX. -/
def Format.idxError : Format → DecodeError
  | .c0 => .indexNotZero
  | .cm => .methodOutOfRange
  | .cc => .channelOutOfRange
  | .cr => .indexNotZero
  | .cl => .indexNotZero

/-- Decoding (R94): the checks in the rule's order, the first that fails naming the error. It depends on no state. -/
def decode (t : Transaction) : Except DecodeError Instr :=
  if rsvField t.cmd ≠ 0 then .error .reservedField
  else
    match opcodeRow (opField t.cmd) (idxField t.cmd) t.opa t.opb with
    | none => .error .unknownOpcode
    | some (f, i) => if f.legalIdx (idxField t.cmd) then .ok i else .error f.idxError

/-- A word from its four bytes on a byte-wide link, byte 0 carrying bits 7:0 (R72). -/
def wordOfBytes (b0 b1 b2 b3 : Byte) : Word := b3 ++ b2 ++ b1 ++ b0

/-- The four bytes of a word, the byte of bits 7:0 first (R72). -/
def bytesOfWord (w : Word) : List Byte :=
  [w.extractLsb' 0 8, w.extractLsb' 8 8, w.extractLsb' 16 8, w.extractLsb' 24 8]

/-- A transaction as it lies on a byte-wide link: CMD, OPA, OPB in that order (R90, R72). -/
def Transaction.toBytes (t : Transaction) : List Byte :=
  bytesOfWord t.cmd ++ bytesOfWord t.opa ++ bytesOfWord t.opb

/-- Decoding from bytes: the first twelve are one transaction (R90), the rest is given back. -/
def decodeBytes : List Byte → Except DecodeError (Instr × List Byte)
  | a0 :: a1 :: a2 :: a3 :: b0 :: b1 :: b2 :: b3 :: c0 :: c1 :: c2 :: c3 :: rest =>
    match decode ⟨wordOfBytes a0 a1 a2 a3, wordOfBytes b0 b1 b2 b3, wordOfBytes c0 c1 c2 c3⟩ with
    | .ok i => .ok (i, rest)
    | .error e => .error e
  | _ => .error .truncated

/-- The transaction whose bits are w, numbered as spec/opcode_table.json numbers them: CMD is bits 31..0, OPA 63..32,
OPB 95..64; only the low nbits bits of w count and every bit above them is 0. -/
def tableTransaction (nbits w : Nat) : Transaction :=
  let v := w % 2 ^ nbits
  ⟨BitVec.ofNat 32 v, BitVec.ofNat 32 (v / 2 ^ 32), BitVec.ofNat 32 (v / 2 ^ 64)⟩

/-- The instruction the decoder reads from a table row's bits, laid out as bytes (R72). -/
def decodeTableWord (nbits w : Nat) : Option Instr :=
  match decodeBytes (tableTransaction nbits w).toBytes with
  | .ok (i, _) => some i
  | .error _ => none

/-! ## The encoder (R91, R93, R95) -/

/-- The OP value of an instruction's row (R93). -/
def Instr.opcode : Instr → Byte
  | .nop => 0x00
  | .tdSetup => 0x01
  | .tdPrimaryEdge => 0x02
  | .tdSecondaryEdge => 0x03
  | .tdGetRpm => 0x04
  | .tdGetCrankAngle _ => 0x05
  | .tdStallCheck => 0x06
  | .tdSnapshot => 0x07
  | .regRead _ _ => 0x08
  | .cfgWrite _ _ => 0x09
  | .stickyClear _ => 0x0A
  | .logRead _ => 0x0B
  | .logClear => 0x0C
  | .cmAngleToTime _ _ => 0x10
  | .cmTimeToAngle _ _ => 0x11
  | .cmSpeedCalcs => 0x12
  | .cmIgnitionLimits _ => 0x13
  | .schInit => 0x20
  | .schSchedule _ _ _ => 0x21
  | .schCancel _ => 0x22
  | .schStatus _ => 0x23

/-- The IDX value of an instruction: its index operand, 0 for format C0 (R91). -/
def Instr.idx : Instr → Byte
  | .tdGetCrankAngle m | .cmAngleToTime m _ | .cmTimeToAngle m _ => m
  | .regRead r _ | .cfgWrite r _ => r
  | .logRead i => i
  | .schSchedule ch _ _ | .schCancel ch | .schStatus ch => ch
  | .nop | .tdSetup | .tdPrimaryEdge | .tdSecondaryEdge | .tdGetRpm | .tdStallCheck | .tdSnapshot
  | .stickyClear _ | .logClear | .cmSpeedCalcs | .cmIgnitionLimits _ | .schInit => 0

/-- The OPA word of an instruction, 0 where it reads none (R95, R99). -/
def Instr.opa : Instr → Word
  | .regRead _ bank => if bank then 1 else 0
  | .cfgWrite _ value => value
  | .stickyClear mask => mask.zeroExtend 32
  | .cmAngleToTime _ a | .cmIgnitionLimits a => a.zeroExtend 32
  | .cmTimeToAngle _ t => t
  | .schSchedule _ delay _ => delay
  | .nop | .tdSetup | .tdPrimaryEdge | .tdSecondaryEdge | .tdGetRpm | .tdGetCrankAngle _ | .tdStallCheck
  | .tdSnapshot | .logRead _ | .logClear | .cmSpeedCalcs | .schInit | .schCancel _ | .schStatus _ => 0

/-- The OPB word of an instruction, 0 where it reads none (R95, R99). -/
def Instr.opb : Instr → Word
  | .schSchedule _ _ duration => duration
  | .nop | .tdSetup | .tdPrimaryEdge | .tdSecondaryEdge | .tdGetRpm | .tdGetCrankAngle _ | .tdStallCheck
  | .tdSnapshot | .regRead _ _ | .cfgWrite _ _ | .stickyClear _ | .logRead _ | .logClear
  | .cmAngleToTime _ _ | .cmTimeToAngle _ _ | .cmSpeedCalcs | .cmIgnitionLimits _ | .schInit
  | .schCancel _ | .schStatus _ => 0

/-- The CMD word of an opcode and an index: `OP | (IDX << 8)` (R93). -/
def cmdWord (op idx : Byte) : Word := (0 : Half) ++ idx ++ op

/-- The words of an instruction (R91, R93, R95). -/
def encode (i : Instr) : Transaction := ⟨cmdWord i.opcode i.idx, i.opa, i.opb⟩

/-- An operation is in its agent's role (00_scope.md R8): the host may issue any word, a sensor or the tick only its
own command, and only the time base steps the time. -/
def Operation.inRole : Operation → Bool
  | .timeStep => true
  | .command .host _ => true
  | .command a t =>
    match decode t with
    | .ok i => a.mayIssue i
    | .error _ => false

end Sys2Proof
end

