-- ==== Sys2Proof/Machine/State.lean ====
section
/-! DEFINITION. The architectural state of 10_state.md as plain data, the outcomes that end a run, and the state after
power-on reset (10_state.md R56, 70_reset_and_hazards.md R310). -/

namespace Sys2Proof.Machine

/-- The status codes of R280, the only values STATUS takes. -/
inductive StatusCode where
  | ok | debounceReject | syncLoss | stall | noSync | overrun | notConfigured | misconfig | channelDisabled
  | range | refused | illegal
deriving DecidableEq, Repr

/-- The bits of STICKY (R49), bit 0 first. -/
inductive StickyFlag where
  | syncLoss | stall | debounce | overrun | misconfig | illegal | refused
deriving DecidableEq, Repr

/-- The conversion methods, codes 0 to 4 in this order (R96); the last two are reserved (R124). -/
inductive Method where
  | lastTooth | revolution | perTooth | alphaBeta | secondDerivative
deriving DecidableEq, Repr

/-- A channel number, 0 to 15 (R97, R210). -/
abbrev Chan := Fin Config.numChannels

/-- A timer peripheral, 0 or 1 (R212). -/
abbrev Periph := Fin Config.numTimers

/-- The states of a channel (R211), codes 0, 1, 2 of CH_STATUS; code 3 is never written (R47), so it has no
constructor. -/
inductive ChStatus where
  | off | pending | running
deriving DecidableEq, Repr

/-- A schedule entry (R47). -/
structure Channel where
  /-- CH_STATUS[ch]. -/
  status : ChStatus
  /-- START_TARGET[ch]. -/
  startTarget : Word
  /-- END_TARGET[ch]. -/
  endTarget : Word
  /-- DURATION[ch]. -/
  duration : Word
deriving DecidableEq, Repr

/-- A timer peripheral's registers (R52). Its counter is NOW[15:0], no state of its own. -/
structure Timer where
  /-- COMPARE[p]. -/
  compare : Half
  /-- ARMED[p]. -/
  armed : Bool
deriving DecidableEq, Repr

/-- The edge of a callback (R53). -/
inductive Edge where
  | start | stop
deriving DecidableEq, Repr

/-- An entry of CALLBACK_TRACE (R53): time, channel, START or END. -/
structure Callback where
  time : Word
  ch : Chan
  edge : Edge
deriving DecidableEq, Repr

/-- The command interface's result registers (R21). -/
structure Iface where
  /-- STATUS. -/
  status : Byte
  /-- RES0. -/
  res0 : Word
  /-- RES1. -/
  res1 : Word
deriving DecidableEq, Repr

/-- The decoder's state, R23 to R43. -/
structure Decoder where
  /-- CONFIGURED, R23. -/
  configured : Bool
  /-- TOOTH_ANGLE, R24. -/
  toothAngle : Half
  /-- TOOTH_LAST_TIME, R25. -/
  toothLastTime : Word
  /-- TOOTH_LAST_MINUS_ONE_TIME, R26. -/
  toothLastMinusOneTime : Word
  /-- TOOTH_GAP, R27. -/
  toothGap : Word
  /-- TEETH_SEEN, R28. -/
  teethSeen : BitVec 2
  /-- HAS_SYNC, R29. -/
  hasSync : Bool
  /-- TOOTH_COUNT, R30. -/
  toothCount : Half
  /-- REV_FLAG, R31. -/
  revFlag : Bool
  /-- VALID_TEETH, R32. -/
  validTeeth : Half
  /-- SYNC_LOSS_COUNT, R33. -/
  syncLossCount : Byte
  /-- GRACE_ACTIVE, R34. -/
  graceActive : Bool
  /-- GRACE_TEETH, R35. -/
  graceTeeth : Half
  /-- TOOTH_ONE_TIME, R36. -/
  toothOneTime : Word
  /-- TOOTH_ONE_MINUS_ONE_TIME, R37. -/
  toothOneMinusOneTime : Word
  /-- REV_SEEN, R38. -/
  revSeen : BitVec 2
  /-- REG_GAP, R39. -/
  regGap : Word
  /-- REG_SPAN, R39. -/
  regSpan : Half
  /-- REG_VALID, R39. -/
  regValid : Bool
  /-- RPM_REG, R40. -/
  rpmReg : Half
  /-- TPD16[0..2], R41. -/
  tpd16 : Vector Word Config.numMethods
  /-- DPU32768[0..2], R41. -/
  dpu32768 : Vector Word Config.numMethods
  /-- SEC_LAST_TIME, R43. -/
  secLastTime : Word
  /-- SEC_SEEN, R43. -/
  secSeen : Bool
deriving DecidableEq, Repr

/-- The tooth history log, R44 and R45. -/
structure ToothLog where
  /-- LOG_BUF. -/
  buf : Vector Word Config.logSize
  /-- LOG_WR. -/
  wr : BitVec 7
  /-- LOG_FULL. -/
  full : Bool
deriving DecidableEq, Repr

/-- The scheduler, its outputs and its timer peripherals, R47, R48, R51 to R53. -/
structure Scheduler where
  /-- The schedule entries, R47. -/
  channels : Vector Channel Config.numChannels
  /-- SCH_EN, R48. -/
  enabled : BitVec 16
  /-- OUT, R51. -/
  out : BitVec 16
  /-- The timer peripherals, R52. -/
  timers : Vector Timer Config.numTimers
  /-- CALLBACK_TRACE, R53, in order of occurrence. -/
  trace : List Callback
deriving DecidableEq, Repr

/-- The configuration registers, R54 and R250. -/
structure ConfigRegs where
  /-- CFG_PATTERN. -/
  pattern : Byte
  /-- CFG_TEETH. -/
  teeth : Half
  /-- CFG_MISSING. -/
  missing : Half
  /-- CFG_DEBOUNCE. -/
  debounce : Word
  /-- CFG_MAX_STALL. -/
  maxStall : Word
  /-- CFG_SYNC_CONFIRM. -/
  syncConfirm : Half
  /-- CFG_CRANK_RPM. -/
  crankRpm : Half
  /-- CFG_CYCLE. -/
  cycle : Half
  /-- CFG_FLAGS. -/
  flags : Byte
  /-- CFG_FUEL_CH. -/
  fuelCh : Byte
  /-- CFG_IGN_CH. -/
  ignCh : Byte
  /-- CFG_TABLE. -/
  table : Vector Half Config.tableMax
deriving DecidableEq, Repr

/-- The state of the block, and beside it the model's two fields: the operations the agents have issued and the block
has not yet taken (the interleaving as an input, R74 and R285, log entry 1), and the build's PERIPH_ORDER (R235, log
entry 3). -/
structure State where
  /-- NOW, R20. -/
  now : Word
  /-- STATUS, RES0, RES1, R21. -/
  iface : Iface
  /-- STICKY, R49. -/
  sticky : BitVec 7
  /-- The decoder, R23 to R43. -/
  dec : Decoder
  /-- The tooth history log, R44, R45. -/
  log : ToothLog
  /-- SNAP, R46. -/
  snap : Vector Word Config.snapSize
  /-- The scheduler, R47, R48, R51 to R53. -/
  sched : Scheduler
  /-- The configuration registers, R54. -/
  cfg : ConfigRegs
  /-- The model's own: the operations not yet taken, the next one first. -/
  inputs : List Operation
  /-- The model's own: PERIPH_ORDER, which no step changes. -/
  periphOrder : Config.PeriphOrder
deriving DecidableEq, Repr

/-- The faults of a step: none. The block has no trap (60_exceptions.md R286) and every operation completes with a
status (R280), so no constructor is raised by anyone. Safe: no run is cut short. -/
inductive Fault where
deriving DecidableEq, Repr

/-- The refusals of a step. -/
inductive Refusal where
  /-- An instruction that has no meaning yet: raised by an arm of `exec` that names it, and by nothing else. Every
  instruction has its meaning, so none is raised. Safe: the run stops. -/
  | notModelled (mnemonic : String)
deriving DecidableEq, Repr

/-- An idle channel of reset (R56). -/
def Channel.reset : Channel := ⟨.off, 0, 0, 0⟩

/-- The decoder after power-on reset (R56). -/
def Decoder.reset : Decoder :=
  { configured := false, toothAngle := 0, toothLastTime := 0, toothLastMinusOneTime := 0, toothGap := 0
    teethSeen := 0, hasSync := false, toothCount := 0, revFlag := false, validTeeth := 0, syncLossCount := 0
    graceActive := false, graceTeeth := 0, toothOneTime := 0, toothOneMinusOneTime := 0, revSeen := 0
    regGap := 0, regSpan := 0, regValid := false, rpmReg := 0
    tpd16 := Vector.replicate _ 0, dpu32768 := Vector.replicate _ 0, secLastTime := 0, secSeen := false }

/-- The log after power-on reset (R56). -/
def ToothLog.reset : ToothLog := ⟨Vector.replicate _ 0, 0, false⟩

/-- The scheduler after power-on reset: every channel OFF, no output asserted, both compares disarmed (R56, R310). -/
def Scheduler.reset : Scheduler :=
  { channels := Vector.replicate _ Channel.reset, enabled := 0, out := 0
    timers := Vector.replicate _ ⟨0, false⟩, trace := [] }

/-- The configuration registers after power-on reset (R54, R56). -/
def ConfigRegs.reset : ConfigRegs :=
  { pattern := 0, teeth := 0, missing := 0, debounce := 0, maxStall := 0, syncConfirm := 0, crankRpm := 0
    cycle := 0, flags := 0, fuelCh := 0, ignCh := 0, table := Vector.replicate _ 0 }

/-- The machine after power-on reset (R56, R310): every piece of state 0, OFF, disarmed or empty. No operation has
been issued yet (R311), and the peripherals' order is the spec's default (R235). -/
def State.reset : State :=
  { now := 0, iface := ⟨0, 0, 0⟩, sticky := 0, dec := Decoder.reset, log := ToothLog.reset
    snap := Vector.replicate _ 0, sched := Scheduler.reset, cfg := ConfigRegs.reset
    inputs := [], periphOrder := .zeroFirst }

end Sys2Proof.Machine
end

