-- ==== Sys2Proof/Machine/Flags.lean ====
section
/-! DEFINITION. The codes of the status (60_exceptions.md R280), the bits of STICKY (10_state.md R49) and the packing of
TD_STATUS (10_state.md R61). The block has no arithmetic condition codes (R50). -/

namespace Sys2Proof.Machine

/-- The 8-bit code of a status (R280). -/
def StatusCode.code : StatusCode → Byte
  | .ok => 0
  | .debounceReject => 1
  | .syncLoss => 2
  | .stall => 3
  | .noSync => 4
  | .overrun => 5
  | .notConfigured => 6
  | .misconfig => 7
  | .channelDisabled => 8
  | .range => 9
  | .refused => 10
  | .illegal => 11

/-- The bit number of a STICKY flag (R49). -/
def StickyFlag.bit : StickyFlag → Nat
  | .syncLoss => 0
  | .stall => 1
  | .debounce => 2
  | .overrun => 3
  | .misconfig => 4
  | .illegal => 5
  | .refused => 6

/-- A STICKY flag as a mask (R49). -/
def StickyFlag.mask (f : StickyFlag) : BitVec 7 := 1#7 <<< f.bit

/-- `Sticky(bit)` on the register (00_scope.md R14): one bit set, the others kept. -/
def stickySet (v : BitVec 7) (f : StickyFlag) : BitVec 7 := v ||| f.mask

/-- `STICKY & ~mask` (R259). -/
def stickyCleared (v mask : BitVec 7) : BitVec 7 := v &&& ~~~mask

/-- A Boolean state bit as the word it reads as (00_scope.md R15). -/
def bitWord (b : Bool) : Word := if b then 1 else 0

/-- TD_STATUS (R61): bit 0 HAS_SYNC, 1 REV_FLAG, 2 GRACE_ACTIVE, 3 CONFIGURED, 4 LOG_FULL, 6:5 TEETH_SEEN,
8:7 REV_SEEN, 9 REG_VALID, 10 SEC_SEEN, the rest 0. -/
def tdStatus (d : Decoder) (logFull : Bool) : Word :=
  bitWord d.hasSync ||| bitWord d.revFlag <<< 1 ||| bitWord d.graceActive <<< 2 ||| bitWord d.configured <<< 3
    ||| bitWord logFull <<< 4 ||| d.teethSeen.zeroExtend 32 <<< 5 ||| d.revSeen.zeroExtend 32 <<< 7
    ||| bitWord d.regValid <<< 9 ||| bitWord d.secSeen <<< 10

/-- The code of a channel's state, CH_STATUS (R47, R211). -/
def ChStatus.code : ChStatus → BitVec 2
  | .off => 0
  | .pending => 1
  | .running => 2

end Sys2Proof.Machine
end

