-- ==== Sys2Proof/Machine/Operands.lean ====
section
/-! DEFINITION. The operand forms of the commands (30_encoding.md R92, R95 to R97) and the width helpers of
00_scope.md R12 and R13. -/

namespace Sys2Proof.Machine

/-- The method an IDX of format CM names (R96); none for the illegal codes 5 to 255 (R94). -/
def Method.ofIdx? (m : Byte) : Option Method :=
  match m.toNat with
  | 0 => some .lastTooth
  | 1 => some .revolution
  | 2 => some .perTooth
  | 3 => some .alphaBeta
  | 4 => some .secondDerivative
  | _ => none

/-- The scale pair of an implemented method; none for the reserved methods 3 and 4 (R121, R124). -/
def Method.pair? : Method → Option (Fin Config.numMethods)
  | .lastTooth => some 0
  | .revolution => some 1
  | .perTooth => some 2
  | .alphaBeta => none
  | .secondDerivative => none

/-- The channel an IDX of format CC names (R97); none for the illegal numbers 16 to 255 (R94). -/
def Chan.ofIdx? (ch : Byte) : Option Chan :=
  if h : ch.toNat < Config.numChannels then some ⟨ch.toNat, h⟩ else none

/-- The peripheral that serves a channel: 0 for the fuel channels 0-7, 1 for the ignition channels 8-15 (R97, R212). -/
def Chan.periph (ch : Chan) : Periph := if ch.val < 8 then 0 else 1

/-- `s16(w)`: a 16-bit two's complement value as an integer (R13). -/
def s16 (w : Half) : Int := w.toInt

/-- `sext32`: an integer as a 32-bit two's complement word (R13, R95). -/
def sext32 (v : Int) : Word := BitVec.ofInt 32 v

/-- `Off(x) = u32(x - NOW)`: the forward distance from now to x (R13). -/
def off (now x : Word) : Word := x - now

/-- `a / b` (R12), which the rule defines for b > 0; a free value for b = 0. -/
def quot (a b : Nat) : Nat := if b = 0 then Config.divByZero a else a / b

/-- `a mod m`, the non-negative remainder (R12); a free value for m = 0. -/
def rem (a : Int) (m : Nat) : Int := if m = 0 then Config.modByZero a else a % (m : Int)

/-- `DivSat(a, b, hi)` (R13). -/
def divSat (a b hi : Nat) : Nat := if b = 0 then hi else min (a / b) hi

/-- A counter one up, saturating at hi: `min(x + 1, hi)` (R30, R32, R33, R28, R38). -/
def satInc {w : Nat} (x : BitVec w) (hi : Nat) : BitVec w := BitVec.ofNat w (min (x.toNat + 1) hi)

/-- Bit i of a 16-bit register set to b (OUT, R51). -/
def setBit (v : BitVec 16) (i : Chan) (b : Bool) : BitVec 16 :=
  if b then v ||| (1#16 <<< i.val) else v &&& ~~~(1#16 <<< i.val)

end Sys2Proof.Machine
end

