-- ==== Sys2Proof/Machine/Ops.lean ====
section
/-! DEFINITION. The shared operations of every command: ending with a status (`Ret`, 00_scope.md R14), the results
on a byte-wide link (20_memory.md R72), raising a sticky flag, the two refused forms (60_exceptions.md R281, 40_crank_math.md R124), and taking the next operation. The block
has no trap (60_exceptions.md R286), so ending a command with an error status is all there is of an exception: nothing is
saved, no mode changes, nothing is returned from (R287). -/

namespace Sys2Proof.Machine

/-- `Ret(st, r0, r1)` (00_scope.md R14): STATUS, RES0 and RES1 written; `Ret(st)` gives results 0. -/
def State.ret (s : State) (st : StatusCode) (r0 : Word := 0) (r1 : Word := 0) : State :=
  { s with iface := ⟨st.code, r0, r1⟩ }

/-- RES0 as a byte-wide link carries it, byte 0 with bits 7:0 first (20_memory.md R72, log entry 15). -/
def Iface.res0Bytes (r : Iface) : List Byte := bytesOfWord r.res0

/-- RES1 as a byte-wide link carries it, byte 0 with bits 7:0 first (20_memory.md R72, log entry 15). -/
def Iface.res1Bytes (r : Iface) : List Byte := bytesOfWord r.res1

/-- `Sticky(bit)` (00_scope.md R14, 10_state.md R49). -/
def State.raise (s : State) (f : StickyFlag) : State := { s with sticky := stickySet s.sticky f }

/-- What an illegal command does: `Sticky(ILLEGAL); Ret(ILLEGAL)` and nothing else (R94, R281). -/
def State.illegal (s : State) : State := (s.raise .illegal).ret .illegal

/-- What a command with a reserved method does: `Sticky(REFUSED); Ret(REFUSED)` and nothing else (R124). -/
def State.refuse (s : State) : State := (s.raise .refused).ret .refused

/-- Runs the body of a command of format CM on the scale pair its method names: ILLEGAL for a code the format does not
decode (R94), REFUSED for a reserved method (R124). -/
def State.withMethod (s : State) (m : Byte) (body : Fin Config.numMethods → State) : State :=
  match Method.ofIdx? m with
  | none => s.illegal
  | some meth =>
    match meth.pair? with
    | none => s.refuse
    | some k => body k

/-- Runs the body of a command of format CC on its channel: ILLEGAL for a number the format does not decode (R94). -/
def State.withChan (s : State) (ch : Byte) (body : Chan → State) : State :=
  match Chan.ofIdx? ch with
  | none => s.illegal
  | some c => body c

/-- The next operation in the order the agents issued them, and the state with it taken (20_memory.md R74); none while
no operation has been issued. -/
def State.takeOperation (s : State) : Option (Operation × State) :=
  match s.inputs with
  | [] => none
  | op :: rest => some (op, { s with inputs := rest })

/-- An agent issues an operation after those already issued (00_scope.md R9, 20_memory.md R74). -/
def State.issue (s : State) (op : Operation) : State := { s with inputs := s.inputs ++ [op] }

end Sys2Proof.Machine
end

