-- ==== Sys2Proof/Machine/EventScheduler.lean ====
section
/-! DEFINITION. The event scheduler and its timer peripherals (42_event_scheduler.md): the commands SCH_INIT,
SCH_SCHEDULE, SCH_CANCEL and SCH_STATUS, and the time step. -/

namespace Sys2Proof.Machine

/-! ## Channels, outputs and compares -/

/-- The entry of channel ch. -/
def State.chan (s : State) (ch : Chan) : Channel := s.sched.channels[ch]

/-- The timer peripheral p. -/
def State.timer (s : State) (p : Periph) : Timer := s.sched.timers[p]

/-- OUT[ch] (R51). -/
def State.output (s : State) (ch : Chan) : Bool := s.sched.out.getLsbD ch.val

/-- SCH_EN[ch] (R48). -/
def State.chanEnabled (s : State) (ch : Chan) : Bool := s.sched.enabled.getLsbD ch.val

/-- The entry of channel ch written. -/
def State.setChan (s : State) (ch : Chan) (c : Channel) : State :=
  { s with sched := { s.sched with channels := s.sched.channels.set ch c } }

/-- The registers of peripheral p written. -/
def State.setTimer (s : State) (p : Periph) (t : Timer) : State :=
  { s with sched := { s.sched with timers := s.sched.timers.set p t } }

/-- NOW[15:0], the counter COUNT[p] of either peripheral (10_state.md R52). -/
def State.count (s : State) : Half := s.now.extractLsb' 0 16

/-- The source's startCompareValue, a view of START_TARGET (10_state.md R47). -/
def Channel.startCompareValue (c : Channel) : Half := c.startTarget.extractLsb' 0 16

/-- The source's endCompareValue, a view of END_TARGET (10_state.md R47). -/
def Channel.endCompareValue (c : Channel) : Half := c.endTarget.extractLsb' 0 16

/-- `Callback(ch, START or END)` (R213): the output level and the record. -/
def State.callback (s : State) (ch : Chan) (e : Edge) : State :=
  { s with
      sched := { s.sched with
        out := setBit s.sched.out ch (e == .start)
        trace := s.sched.trace ++ [⟨s.now, ch, e⟩] } }

/-- The channels of a peripheral, ascending (R212, R230). -/
def Periph.channels (p : Periph) : List Chan := (List.finRange Config.numChannels).filter fun ch => ch.periph = p

/-- The target a channel waits for: its start while PENDING, its end while RUNNING (R233). -/
def Channel.target? (c : Channel) : Option Word :=
  match c.status with
  | .off => none
  | .pending => some c.startTarget
  | .running => some c.endTarget

/-- The forward distances of the targets of a peripheral's channels, the set offs of R233. -/
def State.offsets (s : State) (p : Periph) : List Nat :=
  (Periph.channels p).filterMap fun ch => (s.chan ch).target?.map fun x => (off s.now x).toNat

/-- `Rearbitrate(p)` (R233): the compare at the nearest target, at most 0xFFFF ahead; disarmed with COMPARE kept when
there is none. -/
def State.rearbitrate (s : State) (p : Periph) : State :=
  match (s.offsets p).min? with
  | none => s.setTimer p { s.timer p with armed := false }
  | some m => s.setTimer p ⟨BitVec.ofNat 16 (s.now.toNat + min m 0xFFFF), true⟩

/-- `EndEvent(ch)` (R232). -/
def State.endEvent (s : State) (ch : Chan) : State :=
  (s.setChan ch { s.chan ch with status := .off }).callback ch .stop

/-- `StartEvent(ch)` (R231): a pulse of duration 0 ends at once with OVERRUN. -/
def State.startEvent (s : State) (ch : Chan) : State :=
  let s1 := (s.setChan ch { s.chan ch with status := .running }).callback ch .start
  if off s1.now (s1.chan ch).endTarget = 0 then (s1.raise .overrun).endEvent ch else s1

/-- `CancelChannel(ch)` (R225): END for a RUNNING channel, no callback for a PENDING one. -/
def State.cancelChannel (s : State) (ch : Chan) : State :=
  let s1 := if (s.chan ch).status = .running then s.endEvent ch else s
  s1.setChan ch { s1.chan ch with status := .off }

/-! ## The time step -/

/-- What a compare match does to one channel (R230). -/
def State.fireChannel (s : State) (ch : Chan) : State :=
  if (s.chan ch).status = .pending ∧ (s.chan ch).startTarget = s.now then s.startEvent ch
  else if (s.chan ch).status = .running ∧ (s.chan ch).endTarget = s.now then s.endEvent ch
  else s

/-- Peripheral p in a time step (R230): on a match its due channels fire in ascending order, then it is re-armed. -/
def State.examinePeriph (s : State) (p : Periph) : State :=
  if (s.timer p).armed = true ∧ (s.timer p).compare = s.count then
    ((Periph.channels p).foldl State.fireChannel s).rearbitrate p
  else s

/-- PERIPH_ORDER as a list (R235). -/
def periphList : Config.PeriphOrder → List Periph
  | .zeroFirst => [0, 1]
  | .oneFirst => [1, 0]

/-- `TimeStep()` (R230), the TIMEBASE agent's operation: STATUS, RES0 and RES1 are kept. -/
def State.timeStep (s : State) : State :=
  (periphList s.periphOrder).foldl State.examinePeriph { s with now := s.now + 1 }

/-! ## The commands -/

/-- The channels a pair of counts enables (R220): the first f fuel and the first g ignition channels, none of a kind
whose count exceeds the compiled limit. -/
def enableMask (f g : Nat) : BitVec 16 :=
  BitVec.ofNat 16 ((if f ≤ Config.maxChPerKind then 2 ^ f - 1 else 0)
    + (if g ≤ Config.maxChPerKind then (2 ^ g - 1) * 2 ^ 8 else 0))

/-- Every channel cancelled, ascending (R220). -/
def State.cancelAll (s : State) : State := (List.finRange Config.numChannels).foldl State.cancelChannel s

/-- SCH_EN written (R48). -/
def State.setEnabled (s : State) (mask : BitVec 16) : State := { s with sched := { s.sched with enabled := mask } }

/-- SCH_INIT (R220). -/
def execSchInit (s : State) : Host.Outcome State Fault Refusal :=
  let f := s.cfg.fuelCh.toNat
  let g := s.cfg.ignCh.toNat
  let s1 := ((s.cancelAll.setEnabled (enableMask f g)).rearbitrate 0).rearbitrate 1
  .next <|
    if f > Config.maxChPerKind ∨ g > Config.maxChPerKind then (s1.raise .misconfig).ret .misconfig
    else s1.ret .ok

/-- The entry of a channel after a request with start s and end e at NOW, before a missed compare is looked for (R221):
armed when OFF, replaced or coalesced when PENDING (R222), its end extended when RUNNING (R223). -/
def Channel.request (c : Channel) (now st en duration : Word) : Channel :=
  match c.status with
  | .off => ⟨.pending, st, en, duration⟩
  | .pending =>
    if (off now st).toNat < (off now c.startTarget).toNat then ⟨.pending, st, en, duration⟩
    else if (off now en).toNat > (off now c.endTarget).toNat then
      { c with endTarget := en, duration := en - c.startTarget }
    else c
  | .running =>
    if (off now en).toNat > (off now c.endTarget).toNat then
      { c with endTarget := en, duration := en - c.startTarget }
    else c

/-- The start of channel ch is already due (R221, R224). -/
def State.missedCompare (s : State) (ch : Chan) : Bool :=
  (s.chan ch).status == .pending && off s.now (s.chan ch).startTarget == 0

/-- SCH_SCHEDULE ch, delay, duration (R221): CHANNEL_DISABLED is checked before RANGE (60_exceptions.md R284). It re-arbitrates
after every accepted request, as R221's pseudocode writes it, also after one that moves neither the start nor the end: R221's
corner case and R223 say that such a request changes nothing, yet COMPARE may move. Log entry 8. -/
def execSchSchedule (ch : Byte) (delay duration : Word) (s : State) : Host.Outcome State Fault Refusal :=
  .next <| s.withChan ch fun c =>
    if s.chanEnabled c = false then s.ret .channelDisabled
    else if delay.toNat > Config.maxDelay ∨ duration.toNat > Config.maxDelay then s.ret .range
    else
      let start := s.now + delay
      let s1 := s.setChan c ((s.chan c).request s.now start (start + duration) duration)
      if s1.missedCompare c then
        (((s1.raise .overrun).startEvent c).rearbitrate c.periph).ret .overrun
      else (s1.rearbitrate c.periph).ret .ok

/-- SCH_CANCEL ch (R225). It re-arbitrates as R225's pseudocode writes it, also when the channel is already OFF: R225 says that
this changes nothing, yet COMPARE may move. Log entry 8. -/
def execSchCancel (ch : Byte) (s : State) : Host.Outcome State Fault Refusal :=
  .next <| s.withChan ch fun c => ((s.cancelChannel c).rearbitrate c.periph).ret .ok

/-- SCH_STATUS ch (R226): the state code, and the microseconds to the channel's next transition. -/
def execSchStatus (ch : Byte) (s : State) : Host.Outcome State Fault Refusal :=
  .next <| s.withChan ch fun c =>
    match (s.chan c).status with
    | .off => s.ret .ok 0 0
    | .pending => s.ret .ok 1 (off s.now (s.chan c).startTarget)
    | .running => s.ret .ok 2 (off s.now (s.chan c).endTarget)

end Sys2Proof.Machine
end

