-- ==== Sys2Proof/Machine/Registers.lean ====
section
/-! DEFINITION. The register map (10_state.md R60 to R62): names, numbers, widths, access, and the value each register
reads as. -/

namespace Sys2Proof.Machine

/-- The registers of the map, in the order of R60's table. A number that names none is reserved (R62). -/
inductive Reg where
  | tdStatus | toothCount | validTeeth | syncLossCount | graceTeeth | toothLastTime | toothLastMinusOneTime | toothGap
  | toothOneTime | toothOneMinusOneTime | regGap | regSpan | rpmReg | secLastTime | toothAngle | now
  /-- TPD16[m], 0x10 + 2m. -/
  | tpd16 (m : Fin Config.numMethods)
  /-- DPU32768[m], 0x11 + 2m. -/
  | dpu32768 (m : Fin Config.numMethods)
  | logWr | sticky
  | cfgPattern | cfgTeeth | cfgMissing | cfgDebounce | cfgMaxStall | cfgSyncConfirm | cfgCrankRpm | cfgCycle | cfgFlags
  | cfgFuelCh | cfgIgnCh
  /-- CFG_TABLE[i], 0x40 + i. -/
  | cfgTable (i : Fin Config.tableMax)
  /-- CH_STATUS[ch], 0x80 + 4ch. -/
  | chStatus (ch : Chan)
  /-- START_TARGET[ch], 0x81 + 4ch. -/
  | startTarget (ch : Chan)
  /-- END_TARGET[ch], 0x82 + 4ch. -/
  | endTarget (ch : Chan)
  /-- DURATION[ch], 0x83 + 4ch. -/
  | duration (ch : Chan)
  /-- COMPARE[p], 0xC0 + 2p. -/
  | compare (p : Periph)
  /-- ARMED[p], 0xC1 + 2p. -/
  | armed (p : Periph)
  | out | schEn
deriving DecidableEq, Repr

/-- The registers 0x00 to 0x17, those the snapshot copies (R46, R60). -/
def Reg.low? (n : Nat) : Option Reg :=
  match n with
  | 0x00 => some .tdStatus
  | 0x01 => some .toothCount
  | 0x02 => some .validTeeth
  | 0x03 => some .syncLossCount
  | 0x04 => some .graceTeeth
  | 0x05 => some .toothLastTime
  | 0x06 => some .toothLastMinusOneTime
  | 0x07 => some .toothGap
  | 0x08 => some .toothOneTime
  | 0x09 => some .toothOneMinusOneTime
  | 0x0A => some .regGap
  | 0x0B => some .regSpan
  | 0x0C => some .rpmReg
  | 0x0D => some .secLastTime
  | 0x0E => some .toothAngle
  | 0x0F => some .now
  | 0x10 => some (.tpd16 0)
  | 0x11 => some (.dpu32768 0)
  | 0x12 => some (.tpd16 1)
  | 0x13 => some (.dpu32768 1)
  | 0x14 => some (.tpd16 2)
  | 0x15 => some (.dpu32768 2)
  | 0x16 => some .logWr
  | 0x17 => some .sticky
  | _ => none

/-- The configuration registers below the table, 0x20 to 0x2A (R60). -/
def Reg.config? (n : Nat) : Option Reg :=
  match n with
  | 0x20 => some .cfgPattern
  | 0x21 => some .cfgTeeth
  | 0x22 => some .cfgMissing
  | 0x23 => some .cfgDebounce
  | 0x24 => some .cfgMaxStall
  | 0x25 => some .cfgSyncConfirm
  | 0x26 => some .cfgCrankRpm
  | 0x27 => some .cfgCycle
  | 0x28 => some .cfgFlags
  | 0x29 => some .cfgFuelCh
  | 0x2A => some .cfgIgnCh
  | _ => none

/-- The registers 0xC0 to 0xC5 (R60). -/
def Reg.timer? (n : Nat) : Option Reg :=
  match n with
  | 0xC0 => some (.compare 0)
  | 0xC1 => some (.armed 0)
  | 0xC2 => some (.compare 1)
  | 0xC3 => some (.armed 1)
  | 0xC4 => some .out
  | 0xC5 => some .schEn
  | _ => none

/-- A register of channel ch, by its place among the channel's four (R60). -/
def Reg.ofChannel (ch : Chan) (k : Nat) : Reg :=
  match k with
  | 0 => .chStatus ch
  | 1 => .startTarget ch
  | 2 => .endTarget ch
  | _ => .duration ch

/-- The register of a number (R60); none for a reserved number (R62). -/
def Reg.ofNumber? (number : Byte) : Option Reg :=
  let n := number.toNat
  if n < 0x20 then Reg.low? n
  else if n < 0x40 then Reg.config? n
  else if n < 0x80 then
    if h : n - 0x40 < Config.tableMax then some (.cfgTable ⟨n - 0x40, h⟩) else none
  else if n < 0xC0 then
    if h : (n - 0x80) / 4 < Config.numChannels then some (Reg.ofChannel ⟨(n - 0x80) / 4, h⟩ ((n - 0x80) % 4)) else none
  else Reg.timer? n

/-- The number of a register (R60). -/
def Reg.number : Reg → Nat
  | .tdStatus => 0x00
  | .toothCount => 0x01
  | .validTeeth => 0x02
  | .syncLossCount => 0x03
  | .graceTeeth => 0x04
  | .toothLastTime => 0x05
  | .toothLastMinusOneTime => 0x06
  | .toothGap => 0x07
  | .toothOneTime => 0x08
  | .toothOneMinusOneTime => 0x09
  | .regGap => 0x0A
  | .regSpan => 0x0B
  | .rpmReg => 0x0C
  | .secLastTime => 0x0D
  | .toothAngle => 0x0E
  | .now => 0x0F
  | .tpd16 m => 0x10 + 2 * m.val
  | .dpu32768 m => 0x11 + 2 * m.val
  | .logWr => 0x16
  | .sticky => 0x17
  | .cfgPattern => 0x20
  | .cfgTeeth => 0x21
  | .cfgMissing => 0x22
  | .cfgDebounce => 0x23
  | .cfgMaxStall => 0x24
  | .cfgSyncConfirm => 0x25
  | .cfgCrankRpm => 0x26
  | .cfgCycle => 0x27
  | .cfgFlags => 0x28
  | .cfgFuelCh => 0x29
  | .cfgIgnCh => 0x2A
  | .cfgTable i => 0x40 + i.val
  | .chStatus ch => 0x80 + 4 * ch.val
  | .startTarget ch => 0x81 + 4 * ch.val
  | .endTarget ch => 0x82 + 4 * ch.val
  | .duration ch => 0x83 + 4 * ch.val
  | .compare p => 0xC0 + 2 * p.val
  | .armed p => 0xC1 + 2 * p.val
  | .out => 0xC4
  | .schEn => 0xC5

/-- The width of a register in bits (R60). -/
def Reg.width : Reg → Nat
  | .tdStatus => 11
  | .syncLossCount | .cfgPattern | .cfgFlags | .cfgFuelCh | .cfgIgnCh => 8
  | .logWr | .sticky => 7
  | .chStatus _ => 2
  | .armed _ => 1
  | .toothCount | .validTeeth | .graceTeeth | .regSpan | .rpmReg | .toothAngle | .cfgTeeth | .cfgMissing
  | .cfgSyncConfirm | .cfgCrankRpm | .cfgCycle | .cfgTable _ | .compare _ | .out | .schEn => 16
  | .toothLastTime | .toothLastMinusOneTime | .toothGap | .toothOneTime | .toothOneMinusOneTime | .regGap
  | .secLastTime | .now | .tpd16 _ | .dpu32768 _ | .cfgDebounce | .cfgMaxStall | .startTarget _ | .endTarget _
  | .duration _ => 32

/-- The register is RW: writable by CFG_WRITE (R60). -/
def Reg.writable : Reg → Bool
  | .cfgPattern | .cfgTeeth | .cfgMissing | .cfgDebounce | .cfgMaxStall | .cfgSyncConfirm | .cfgCrankRpm | .cfgCycle
  | .cfgFlags | .cfgFuelCh | .cfgIgnCh | .cfgTable _ => true
  | .tdStatus | .toothCount | .validTeeth | .syncLossCount | .graceTeeth | .toothLastTime | .toothLastMinusOneTime
  | .toothGap | .toothOneTime | .toothOneMinusOneTime | .regGap | .regSpan | .rpmReg | .secLastTime | .toothAngle
  | .now | .tpd16 _ | .dpu32768 _ | .logWr | .sticky | .chStatus _ | .startTarget _ | .endTarget _ | .duration _
  | .compare _ | .armed _ | .out | .schEn => false

/-- A decoder configuration register, 0x20 to 0x28 or 0x40 to 0x7F: a write of it clears CONFIGURED (R252). -/
def Reg.clearsConfigured : Reg → Bool
  | .cfgFuelCh | .cfgIgnCh => false
  | r => r.writable

/-- `Reg(i)`, the value a register reads as, zero-extended to 32 bits (R60, R72; 00_scope.md R14). -/
def State.readReg (s : State) : Reg → Word
  | .tdStatus => tdStatus s.dec s.log.full
  | .toothCount => s.dec.toothCount.zeroExtend 32
  | .validTeeth => s.dec.validTeeth.zeroExtend 32
  | .syncLossCount => s.dec.syncLossCount.zeroExtend 32
  | .graceTeeth => s.dec.graceTeeth.zeroExtend 32
  | .toothLastTime => s.dec.toothLastTime
  | .toothLastMinusOneTime => s.dec.toothLastMinusOneTime
  | .toothGap => s.dec.toothGap
  | .toothOneTime => s.dec.toothOneTime
  | .toothOneMinusOneTime => s.dec.toothOneMinusOneTime
  | .regGap => s.dec.regGap
  | .regSpan => s.dec.regSpan.zeroExtend 32
  | .rpmReg => s.dec.rpmReg.zeroExtend 32
  | .secLastTime => s.dec.secLastTime
  | .toothAngle => s.dec.toothAngle.zeroExtend 32
  | .now => s.now
  | .tpd16 m => s.dec.tpd16[m]
  | .dpu32768 m => s.dec.dpu32768[m]
  | .logWr => s.log.wr.zeroExtend 32
  | .sticky => s.sticky.zeroExtend 32
  | .cfgPattern => s.cfg.pattern.zeroExtend 32
  | .cfgTeeth => s.cfg.teeth.zeroExtend 32
  | .cfgMissing => s.cfg.missing.zeroExtend 32
  | .cfgDebounce => s.cfg.debounce
  | .cfgMaxStall => s.cfg.maxStall
  | .cfgSyncConfirm => s.cfg.syncConfirm.zeroExtend 32
  | .cfgCrankRpm => s.cfg.crankRpm.zeroExtend 32
  | .cfgCycle => s.cfg.cycle.zeroExtend 32
  | .cfgFlags => s.cfg.flags.zeroExtend 32
  | .cfgFuelCh => s.cfg.fuelCh.zeroExtend 32
  | .cfgIgnCh => s.cfg.ignCh.zeroExtend 32
  | .cfgTable i => s.cfg.table[i].zeroExtend 32
  | .chStatus ch => (s.chan ch).status.code.zeroExtend 32
  | .startTarget ch => (s.chan ch).startTarget
  | .endTarget ch => (s.chan ch).endTarget
  | .duration ch => (s.chan ch).duration
  | .compare p => (s.timer p).compare.zeroExtend 32
  | .armed p => bitWord (s.timer p).armed
  | .out => s.sched.out.zeroExtend 32
  | .schEn => s.sched.enabled.zeroExtend 32

/-- A configuration register written (R251, R63); the value is known to fit. A register that is not RW keeps its
value: the command never comes here with one. -/
def ConfigRegs.write (c : ConfigRegs) (r : Reg) (v : Word) : ConfigRegs :=
  match r with
  | .cfgPattern => { c with pattern := v.truncate 8 }
  | .cfgTeeth => { c with teeth := v.truncate 16 }
  | .cfgMissing => { c with missing := v.truncate 16 }
  | .cfgDebounce => { c with debounce := v }
  | .cfgMaxStall => { c with maxStall := v }
  | .cfgSyncConfirm => { c with syncConfirm := v.truncate 16 }
  | .cfgCrankRpm => { c with crankRpm := v.truncate 16 }
  | .cfgCycle => { c with cycle := v.truncate 16 }
  | .cfgFlags => { c with flags := v.truncate 8 }
  | .cfgFuelCh => { c with fuelCh := v.truncate 8 }
  | .cfgIgnCh => { c with ignCh := v.truncate 8 }
  | .cfgTable i => { c with table := c.table.set i (v.truncate 16) }
  | .tdStatus | .toothCount | .validTeeth | .syncLossCount | .graceTeeth | .toothLastTime | .toothLastMinusOneTime
  | .toothGap | .toothOneTime | .toothOneMinusOneTime | .regGap | .regSpan | .rpmReg | .secLastTime | .toothAngle
  | .now | .tpd16 _ | .dpu32768 _ | .logWr | .sticky | .chStatus _ | .startTarget _ | .endTarget _ | .duration _
  | .compare _ | .armed _ | .out | .schEn => c

end Sys2Proof.Machine
end

