-- ==== Sys2Proof/Machine/Diagnostics.lean ====
section
/-! DEFINITION. Configuration, register access and diagnostics (43_config_and_diagnostics.md): the commands CFG_WRITE,
REG_READ, TD_SNAPSHOT, STICKY_CLEAR, LOG_READ, LOG_CLEAR and NOP. -/

namespace Sys2Proof.Machine

/-- The value `Reg(i)` of a register number below 0x18 (R257): every such number names a register (R60). -/
def State.snapWord (s : State) (i : Fin Config.snapSize) : Word :=
  match Reg.low? i.val with
  | some r => s.readReg r
  | none => 0

/-- NOP (R264). -/
def execNop (s : State) : Host.Outcome State Fault Refusal := .next (s.ret .ok)

/-- TD_SNAPSHOT (R257): registers 0x00 to 0x17 copied in one operation. -/
def execTdSnapshot (s : State) : Host.Outcome State Fault Refusal :=
  .next ({ s with snap := Vector.ofFn s.snapWord }.ret .ok)

/-- REG_READ reg (R254): the snapshot bank reaches 0x17, the live bank every number of the map. -/
def execRegRead (reg : Byte) (bank : Bool) (s : State) : Host.Outcome State Fault Refusal :=
  .next <|
    if bank then
      if h : reg.toNat < Config.snapSize then s.ret .ok s.snap[reg.toNat] else s.ret .range
    else
      match Reg.ofNumber? reg with
      | some r => s.ret .ok (s.readReg r)
      | none => s.ret .range

/-- CFG_WRITE reg, value (R251): RANGE for a register that is not RW and for a value that does not fit; a decoder
configuration register clears CONFIGURED (R252). -/
def execCfgWrite (reg : Byte) (value : Word) (s : State) : Host.Outcome State Fault Refusal :=
  .next <|
    match Reg.ofNumber? reg with
    | none => s.ret .range
    | some r =>
      if r.writable = false then s.ret .range
      else if value.toNat ≥ 2 ^ r.width then s.ret .range
      else
        { s with
            cfg := s.cfg.write r value
            dec := if r.clearsConfigured then { s.dec with configured := false } else s.dec }.ret .ok

/-- STICKY_CLEAR mask (R259). -/
def execStickyClear (mask : BitVec 7) (s : State) : Host.Outcome State Fault Refusal :=
  .next ({ s with sticky := stickyCleared s.sticky mask }.ret .ok)

/-- LOG_READ i (R260). -/
def execLogRead (i : Byte) (s : State) : Host.Outcome State Fault Refusal :=
  .next <| if h : i.toNat < Config.logSize then s.ret .ok (s.log.buf[i.toNat]'h) else s.ret .range

/-- LOG_CLEAR (R261): the entries are kept. -/
def execLogClear (s : State) : Host.Outcome State Fault Refusal :=
  .next ({ s with log := { s.log with wr := 0, full := false } }.ret .ok)

end Sys2Proof.Machine
end

