-- ==== Sys2Proof/Machine/CrankMath.lean ====
section
/-! DEFINITION. The crank-math unit (40_crank_math.md): scale pairs, the speed calculation, and the commands
CM_ANGLE_TO_TIME, CM_TIME_TO_ANGLE, CM_SPEED_CALCS and CM_IGNITION_LIMITS. -/

namespace Sys2Proof.Machine

/-- `Pair(I, S)` (R120): microseconds per degree x16 and degrees per microsecond x32768 of I microseconds over S
degrees. -/
def pair (i span : Nat) : Word × Word :=
  let tpd := min (quot (16 * i) span) (2 ^ 32 - 1)
  let dpu := if tpd = 0 then 2 ^ 32 - 1 else 524288 / tpd
  (BitVec.ofNat 32 tpd, BitVec.ofNat 32 dpu)

/-- Both factors of method m's pair written in one operation (R122). -/
def Decoder.setPair (d : Decoder) (m : Fin Config.numMethods) (p : Word × Word) : Decoder :=
  { d with tpd16 := d.tpd16.set m p.1, dpu32768 := d.dpu32768.set m p.2 }

/-- All six factors zeroed, as the hard reset, the stall and TD_SETUP do (R122). -/
def Decoder.zeroPairs (d : Decoder) : Decoder :=
  { d with tpd16 := Vector.replicate _ 0, dpu32768 := Vector.replicate _ 0 }

/-- The revolution time `u32(TOOTH_ONE_TIME - TOOTH_ONE_MINUS_ONE_TIME)` (R38, R121). -/
def Decoder.revTime (d : Decoder) : Word := d.toothOneTime - d.toothOneMinusOneTime

/-- The RPM of the speed calculation (R123): from the revolution time while cranking with a full revolution known,
else from the regular-gap sample. -/
def Decoder.speedRpm (d : Decoder) (crankRpm : Half) : Nat :=
  if d.rpmReg.toNat < crankRpm.toNat ∧ d.revSeen = 2 then divSat 60000000 d.revTime.toNat 65535
  else divSat (1000000 * d.regSpan.toNat) (6 * d.regGap.toNat) 65535

/-- `SpeedCalcs()` (R123): RPM_REG and scale pairs 0 and 1, nothing while no interval has been measured. -/
def Decoder.speedCalcs (d : Decoder) (crankRpm : Half) : Decoder :=
  if d.regValid then
    let d1 := { d with rpmReg := BitVec.ofNat 16 (d.speedRpm crankRpm) }
    let d2 := d1.setPair 0 (pair d.regGap.toNat d.regSpan.toNat)
    if d.revSeen = 2 then d2.setPair 1 (pair d.revTime.toNat 360) else d2
  else d

/-- `A2T(a, m)` (R125) with TPD16[m] given: the signed time of a signed angle, its magnitude saturating at 2^31 - 1. -/
def a2t (a : Int) (tpd : Word) : Int :=
  let mag : Nat := min (a.natAbs * tpd.toNat / 2 ^ 4) (2 ^ 31 - 1)
  if a < 0 then -(mag : Int) else mag

/-- `T2A(t, m)` (R126) with DPU32768[m] given: the angle of an elapsed time, saturating at 32767. -/
def t2a (t dpu : Word) : Nat := min (t.toNat * dpu.toNat / 2 ^ 15) 32767

/-- The source's timePerDegree of a method, a view of TPD16 (10_state.md R42). -/
def Decoder.timePerDegree (d : Decoder) (m : Fin Config.numMethods) : Word := d.tpd16[m] >>> 4

/-- The source's degreesPerMicrosecond of a method, a view of DPU32768 (10_state.md R42). -/
def Decoder.degreesPerMicrosecond (d : Decoder) (m : Fin Config.numMethods) : Word := d.dpu32768[m] >>> 15

/-- The result of `CM_IGNITION_LIMITS` (R128): one cycle added to a negative angle, one subtracted from an angle at or
above the cycle. -/
def ignitionLimits (a : Int) (max : Nat) : Int :=
  if a ≥ (max : Int) then a - max else if a < 0 then a + max else a

/-- CM_ANGLE_TO_TIME m, angle (R125). -/
def execCmAngleToTime (m : Byte) (angle : Half) (s : State) : Host.Outcome State Fault Refusal :=
  .next (s.withMethod m fun k => s.ret .ok (sext32 (a2t (s16 angle) s.dec.tpd16[k])))

/-- CM_TIME_TO_ANGLE m, time (R126). -/
def execCmTimeToAngle (m : Byte) (time : Word) (s : State) : Host.Outcome State Fault Refusal :=
  .next (s.withMethod m fun k => s.ret .ok (sext32 (t2a time s.dec.dpu32768[k])))

/-- CM_SPEED_CALCS (R127). -/
def execCmSpeedCalcs (s : State) : Host.Outcome State Fault Refusal :=
  .next <|
    if s.dec.configured = false then s.ret .notConfigured
    else if s.dec.hasSync = false then s.ret .noSync
    else { s with dec := s.dec.speedCalcs s.cfg.crankRpm }.ret .ok

/-- CM_IGNITION_LIMITS angle (R128): needs only a legal CFG_CYCLE (R253). -/
def execCmIgnitionLimits (angle : Half) (s : State) : Host.Outcome State Fault Refusal :=
  .next <|
    if s.cfg.cycle = 360 ∨ s.cfg.cycle = 720 then
      s.ret .ok (sext32 (ignitionLimits (s16 angle) s.cfg.cycle.toNat))
    else s.ret .notConfigured

end Sys2Proof.Machine
end

