-- ==== Sys2Proof/Machine/TriggerDecoder.lean ====
section
/-! DEFINITION. The trigger decoder and its stall/sync supervisor (41_trigger_decoder.md): the commands TD_SETUP,
TD_PRIMARY_EDGE, TD_SECONDARY_EDGE, TD_STALL_CHECK, TD_GET_RPM and TD_GET_CRANK_ANGLE. -/

namespace Sys2Proof.Machine

/-! ## Configuration as the decoder reads it (R178, R250) -/

/-- CFG_TABLE[i]; a free value where the spec names no such entry. -/
def ConfigRegs.tableAt (c : ConfigRegs) (i : Int) : Half :=
  if h : 0 ≤ i ∧ i.toNat < Config.tableMax then c.table[i.toNat]'h.2 else Config.tableBeyond i

/-- T = N - M, the physical teeth of a revolution of pattern 0, over the integers (R12, R178). -/
def ConfigRegs.physTeeth (c : ConfigRegs) : Int := c.teeth.toNat - c.missing.toNat

/-- TPR, the teeth per revolution: T for pattern 0, N for patterns 1 and 2. -/
def ConfigRegs.teethPerRev (c : ConfigRegs) : Int := if c.pattern = 0 then c.physTeeth else c.teeth.toNat

/-- CFG_FLAGS bit 0, LOG_EN (R250). -/
def ConfigRegs.logEnabled (c : ConfigRegs) : Bool := c.flags.getLsbD 0

/-- CFG_FLAGS bit 1, SPEED_PER_REV (R250). -/
def ConfigRegs.speedPerRev (c : ConfigRegs) : Bool := c.flags.getLsbD 1

/-- The checks of TD_SETUP common to every pattern (R150). -/
def ConfigRegs.commonOk (c : ConfigRegs) : Bool :=
  decide (c.pattern.toNat ≤ 2) && (c.cycle == 360 || c.cycle == 720) && (c.flags &&& ~~~0x3#8 == 0)

/-- The checks of TD_SETUP for the missing-tooth wheel (R150). -/
def ConfigRegs.missingOk (c : ConfigRegs) : Bool :=
  decide (2 ≤ c.teeth.toNat) && decide (c.teeth.toNat ≤ 360) && decide (360 % c.teeth.toNat = 0)
    && decide (1 ≤ c.missing.toNat) && decide (2 ≤ c.physTeeth)

/-- The checks of TD_SETUP for the dual wheel (R150). -/
def ConfigRegs.dualOk (c : ConfigRegs) : Bool :=
  decide (1 ≤ c.teeth.toNat) && decide (c.teeth.toNat ≤ 360) && decide (360 % c.teeth.toNat = 0)

/-- The checks of TD_SETUP for the angle table (R150): strictly increasing, the last entry below 360. -/
def ConfigRegs.tableOk (c : ConfigRegs) : Bool :=
  decide (2 ≤ c.teeth.toNat) && decide (c.teeth.toNat ≤ Config.tableMax)
    && ((List.range (c.teeth.toNat - 1)).all fun i =>
      decide ((c.tableAt i).toNat < (c.tableAt (i + 1)).toNat))
    && decide ((c.tableAt (c.teeth.toNat - 1)).toNat < 360)

/-- The configuration passes TD_SETUP's validation (R150). -/
def ConfigRegs.valid (c : ConfigRegs) : Bool :=
  c.commonOk &&
    (if c.pattern = 0 then c.missingOk else if c.pattern = 1 then c.dualOk else c.tableOk)

/-- The nominal tooth angle TD_SETUP latches (R24, R150). -/
def ConfigRegs.nominalAngle (c : ConfigRegs) : Half :=
  if c.pattern = 2 then 0 else BitVec.ofNat 16 (quot 360 c.teeth.toNat)

/-! ## Steps of the decoder -/

/-- `DecoderClear()` (R150): everything of the decoder but CONFIGURED and TOOTH_ANGLE zeroed. -/
def Decoder.clear (d : Decoder) : Decoder :=
  { Decoder.reset with configured := d.configured, toothAngle := d.toothAngle }

/-- `ToothOne(t)` (R162), the revolution start. -/
def Decoder.toothOne (d : Decoder) (t : Word) : Decoder :=
  { d with toothOneMinusOneTime := d.toothOneTime, toothOneTime := t, revSeen := satInc d.revSeen 2
           revFlag := !d.revFlag }

/-- `SyncLoss()` on the decoder (R170); its sticky bit is raised by the command that loses sync. -/
def Decoder.syncLoss (d : Decoder) : Decoder :=
  { d with hasSync := false, syncLossCount := satInc d.syncLossCount 255, validTeeth := 0, graceActive := true
           graceTeeth := 0, revSeen := 0 }

/-- `HardReset()` (R171). -/
def Decoder.hardReset (d : Decoder) : Decoder :=
  { d.zeroPairs with rpmReg := 0, toothCount := 0, validTeeth := 0, graceActive := false, graceTeeth := 0
                     revSeen := 0, regValid := false }

/-- What the stall clears (R173). -/
def Decoder.stalled (d : Decoder) : Decoder :=
  { d.zeroPairs with hasSync := false, rpmReg := 0, toothCount := 0, validTeeth := 0, teethSeen := 0
                     revSeen := 0, regValid := false, graceActive := false, graceTeeth := 0, revFlag := false
                     secSeen := false }

/-- `RegularSample(gap, span)` (R166): the regular-gap sample and scale pair 2. -/
def Decoder.regularSample (d : Decoder) (gap : Word) (span : Half) : Decoder :=
  { d with regGap := gap, regSpan := span, regValid := true }.setPair 2 (pair gap.toNat span.toNat)

/-- The history shift and count of an accepted tooth (R153). -/
def Decoder.shiftHistory (d : Decoder) (t gap : Word) (had : Bool) : Decoder :=
  { d with
      toothLastMinusOneTime := if had then d.toothLastTime else d.toothLastMinusOneTime
      toothGap := if had then gap else d.toothGap
      toothLastTime := t
      teethSeen := satInc d.teethSeen 2
      toothCount := satInc d.toothCount 65535 }

/-- `SyncBookkeeping(lost)` (R169). -/
def Decoder.syncBookkeeping (d : Decoder) (tpr : Int) (lost : Bool) : Decoder :=
  if d.hasSync then { d with validTeeth := satInc d.validTeeth 65535, graceActive := false, graceTeeth := 0 }
  else if d.graceActive && !lost then
    let d1 := { d with graceTeeth := d.graceTeeth + 1 }
    if tpr ≤ (d1.graceTeeth.toNat : Int) then d1.hardReset else d1
  else d

/-- A sync gap (R160): the previous tooth had a gap and this gap is at least 1.5 times it. -/
def isSyncGap (pv : Bool) (gap prev : Word) : Bool := pv && decide (2 * gap.toNat ≥ 3 * prev.toNat)

/-- `TableSpan(k)` (R167), the degrees of the gap ending at tooth k of pattern 2. -/
def ConfigRegs.tableSpan (c : ConfigRegs) (k : Nat) : Half :=
  BitVec.ofInt 16 <|
    if k = 1 then ((c.tableAt 0).toNat : Int) + 360 - (c.tableAt ((c.teeth.toNat : Int) - 1)).toNat
    else ((c.tableAt ((k : Int) - 1)).toNat : Int) - (c.tableAt ((k : Int) - 2)).toNat

/-- What `PatternStep()` leaves (R151): the decoder, revStart, lost, and the span of a regular gap (none: the gap is not
regular). -/
structure ToothResult where
  dec : Decoder
  revStart : Bool
  lost : Bool
  span : Option Half
deriving DecidableEq, Repr

/-- The pattern step of the missing-tooth wheel (R161), TOOTH_COUNT already incremented. -/
def Decoder.missingToothStep (d : Decoder) (c : ConfigRegs) (t gap prev : Word) (had pv : Bool) : ToothResult :=
  let expected : Bool := decide ((d.toothCount.toNat : Int) = c.physTeeth + 1)
  if isSyncGap pv gap prev then
    if d.hasSync && !expected then ⟨d.syncLoss, false, true, none⟩
    else ⟨{ d with toothCount := 1, hasSync := true }.toothOne t, true, false, none⟩
  else if d.hasSync && expected then ⟨d.syncLoss, false, true, none⟩
  else ⟨d, false, false, if had then some d.toothAngle else none⟩

/-- The pattern step of the dual wheel and of the angle table (R163, R172). -/
def Decoder.camStep (d : Decoder) (c : ConfigRegs) (t : Word) (had : Bool) : ToothResult :=
  let wrap : Bool := d.hasSync && decide (d.toothCount.toNat > c.teeth.toNat)
  let d1 := if wrap then { d with toothCount := 1 }.toothOne t else d
  let span := if c.pattern = 1 then d1.toothAngle else c.tableSpan d1.toothCount.toNat
  ⟨d1, wrap, false, if had && (c.pattern == 1 || d1.hasSync) then some span else none⟩

/-- `PatternStep()` (R151, step 3). -/
def Decoder.patternStep (d : Decoder) (c : ConfigRegs) (t gap prev : Word) (had pv : Bool) : ToothResult :=
  if c.pattern = 0 then d.missingToothStep c t gap prev had pv else d.camStep c t had

/-- A qualifying tooth (R168). -/
def Decoder.qualifies (d : Decoder) (c : ConfigRegs) (revStart : Bool) : Bool :=
  d.hasSync && decide (c.syncConfirm.toNat ≤ d.validTeeth.toNat) && (!c.speedPerRev || revStart)

/-- `LogAppend(gap)` (43_config_and_diagnostics.md R262): nothing while LOG_FULL. -/
def ToothLog.append (l : ToothLog) (gap : Word) : ToothLog :=
  if l.full then l
  else
    let wr := l.wr + 1
    { buf := l.buf.setIfInBounds l.wr.toNat gap, wr := wr, full := decide (wr.toNat = Config.logSize) }

/-- `if regular: RegularSample(gap, span)` (R151), the span none on a gap that is not regular. -/
def Decoder.sampleIf (d : Decoder) (gap : Word) : Option Half → Decoder
  | some span => d.regularSample gap span
  | none => d

/-- The log after step 4 of the primary edge (R151): an append when CFG_FLAGS[0] is 1 and the tooth has a gap. -/
def State.toothLog (s : State) (gap : Word) (had : Bool) : ToothLog :=
  if s.cfg.logEnabled && had then s.log.append gap else s.log

/-- Steps 2 to 5 of the primary edge: an accepted tooth at NOW with the given gap (R151). -/
def State.acceptTooth (s : State) (gap : Word) (had : Bool) : State :=
  let pv := decide (s.dec.teethSeen = 2)
  let r := (s.dec.shiftHistory s.now gap had).patternStep s.cfg s.now gap s.dec.toothGap had pv
  let booked := (r.dec.sampleIf gap r.span).syncBookkeeping s.cfg.teethPerRev r.lost
  let dec := if booked.qualifies s.cfg r.revStart then booked.speedCalcs s.cfg.crankRpm else booked
  let s1 := { s with dec := dec, log := s.toothLog gap had }
  if r.lost then (s1.raise .syncLoss).ret .syncLoss else s1.ret .ok

/-- The gap of a primary edge at NOW (R151, step 1). -/
def State.primaryGap (s : State) : Word :=
  if 1 ≤ s.dec.teethSeen.toNat then s.now - s.dec.toothLastTime else 0

/-- The primary debounce filter rejects an edge at NOW (R152). -/
def State.primaryBounces (s : State) : Bool :=
  decide (1 ≤ s.dec.teethSeen.toNat) && decide (s.primaryGap.toNat < s.cfg.debounce.toNat)

/-- The secondary debounce filter rejects an edge at NOW (R164). -/
def State.secondaryBounces (s : State) : Bool :=
  s.dec.secSeen && decide ((s.now - s.dec.secLastTime).toNat < s.cfg.debounce.toNat)

/-- A secondary edge accepted at NOW, before any pattern's own part (R164). -/
def Decoder.secondarySeen (d : Decoder) (t : Word) : Decoder :=
  { d with secLastTime := t, secSeen := true, revFlag := true }

/-- Sync acquired by the secondary edge (R164): the next primary tooth becomes tooth 1. -/
def Decoder.secondaryAcquire (d : Decoder) (teeth : Half) : Decoder :=
  { d with toothCount := teeth, hasSync := true, graceActive := false, graceTeeth := 0 }

/-- More time than CFG_MAX_STALL since the last tooth (R173). -/
def State.stallDue (s : State) : Bool :=
  decide (1 ≤ s.dec.teethSeen.toNat) && decide ((s.now - s.dec.toothLastTime).toNat > s.cfg.maxStall.toNat)

/-- `BaseAngle()` (R177), k = TOOTH_COUNT. -/
def State.baseAngle (s : State) : Int :=
  let k : Int := s.dec.toothCount.toNat
  if s.cfg.pattern = 2 then (s.cfg.tableAt (k - 1)).toNat else (k - 1) * s.dec.toothAngle.toNat

/-- The crank angle by method m (R176): base angle, second revolution, sub-tooth correction, wrapped to the cycle. -/
def State.crankAngle (s : State) (m : Fin Config.numMethods) : Int :=
  let base := if s.cfg.cycle = 720 ∧ s.dec.revFlag = true then s.baseAngle + 360 else s.baseAngle
  let corr : Nat := min (t2a (s.now - s.dec.toothLastTime) s.dec.dpu32768[m]) s.cfg.cycle.toNat
  rem (base + corr) s.cfg.cycle.toNat

/-! ## The commands -/

/-- TD_SETUP (R150). -/
def execTdSetup (s : State) : Host.Outcome State Fault Refusal :=
  .next <|
    if s.cfg.valid then
      { s with
          dec := { s.dec.clear with configured := true, toothAngle := s.cfg.nominalAngle }
          log := { s.log with wr := 0, full := false } }.ret .ok
    else ({ s with dec := { s.dec with configured := false } }.raise .misconfig).ret .misconfig

/-- TD_PRIMARY_EDGE (R151). -/
def execTdPrimaryEdge (s : State) : Host.Outcome State Fault Refusal :=
  .next <|
    if s.dec.configured = false then s.ret .notConfigured
    else if s.primaryBounces then (s.raise .debounce).ret .debounceReject
    else s.acceptTooth s.primaryGap (decide (1 ≤ s.dec.teethSeen.toNat))

/-- TD_SECONDARY_EDGE (R164). -/
def execTdSecondaryEdge (s : State) : Host.Outcome State Fault Refusal :=
  .next <|
    if s.dec.configured = false then s.ret .notConfigured
    else if s.secondaryBounces then (s.raise .debounce).ret .debounceReject
    else
      let d := s.dec.secondarySeen s.now
      if s.cfg.pattern ≠ 1 ∧ s.cfg.pattern ≠ 2 then { s with dec := d }.ret .ok
      else if d.hasSync = true ∧ d.toothCount ≠ s.cfg.teeth then
        ({ s with dec := d.syncLoss }.raise .syncLoss).ret .syncLoss
      else { s with dec := d.secondaryAcquire s.cfg.teeth }.ret .ok

/-- TD_STALL_CHECK (R173). -/
def execTdStallCheck (s : State) : Host.Outcome State Fault Refusal :=
  .next <|
    if s.dec.configured = false then s.ret .notConfigured
    else if s.stallDue then ({ s with dec := s.dec.stalled }.raise .stall).ret .stall
    else s.ret .ok

/-- TD_GET_RPM (R175). -/
def execTdGetRpm (s : State) : Host.Outcome State Fault Refusal :=
  .next <|
    if s.dec.configured = false then s.ret .notConfigured
    else if s.dec.hasSync = false then s.ret .noSync
    else s.ret .ok (s.dec.rpmReg.zeroExtend 32)

/-- TD_GET_CRANK_ANGLE m (R176): REFUSED is checked before NOT_CONFIGURED (60_exceptions.md R284). -/
def execTdGetCrankAngle (m : Byte) (s : State) : Host.Outcome State Fault Refusal :=
  .next <| s.withMethod m fun k =>
    if s.dec.configured = false then s.ret .notConfigured
    else if s.dec.hasSync = false then s.ret .noSync
    else s.ret .ok (sext32 (s.crankAngle k)) 1

end Sys2Proof.Machine
end

