-- ==== Sys2Proof/Machine/Dispatch.lean ====
section
/-! DEFINITION. One arm per command of the opcode map (30_encoding.md R93). -/

namespace Sys2Proof.Machine

def exec (i : Instr) (s : State) : Host.Outcome State Fault Refusal :=
  match i with
  | .nop => Sys2Proof.Machine.execNop s
  | .tdSetup => Sys2Proof.Machine.execTdSetup s
  | .tdPrimaryEdge => Sys2Proof.Machine.execTdPrimaryEdge s
  | .tdSecondaryEdge => Sys2Proof.Machine.execTdSecondaryEdge s
  | .tdGetRpm => Sys2Proof.Machine.execTdGetRpm s
  | .tdGetCrankAngle m => Sys2Proof.Machine.execTdGetCrankAngle m s
  | .tdStallCheck => Sys2Proof.Machine.execTdStallCheck s
  | .tdSnapshot => Sys2Proof.Machine.execTdSnapshot s
  | .regRead reg bank => Sys2Proof.Machine.execRegRead reg bank s
  | .cfgWrite reg value => Sys2Proof.Machine.execCfgWrite reg value s
  | .stickyClear mask => Sys2Proof.Machine.execStickyClear mask s
  | .logRead k => Sys2Proof.Machine.execLogRead k s
  | .logClear => Sys2Proof.Machine.execLogClear s
  | .cmAngleToTime m angle => Sys2Proof.Machine.execCmAngleToTime m angle s
  | .cmTimeToAngle m time => Sys2Proof.Machine.execCmTimeToAngle m time s
  | .cmSpeedCalcs => Sys2Proof.Machine.execCmSpeedCalcs s
  | .cmIgnitionLimits angle => Sys2Proof.Machine.execCmIgnitionLimits angle s
  | .schInit => Sys2Proof.Machine.execSchInit s
  | .schSchedule ch delay duration => Sys2Proof.Machine.execSchSchedule ch delay duration s
  | .schCancel ch => Sys2Proof.Machine.execSchCancel ch s
  | .schStatus ch => Sys2Proof.Machine.execSchStatus ch s

end Sys2Proof.Machine
end

