-- ==== Sys2Proof/Machine/Step.lean ====
section
/-! DEFINITION. One step of the block: the next operation of the agents' order, taken whole (00_scope.md R9, 20_memory.md
R74). -/

namespace Sys2Proof.Machine

/-- The step on a transaction already taken: its command, or ILLEGAL when it does not decode (R94, R281). -/
def runTransaction (t : Transaction) (s : State) : Host.Outcome State Fault Refusal :=
  match decode t with
  | .ok i => exec i s
  | .error _ => .next s.illegal

/-- The step: no operation issued, the block waits (R311) and nothing changes; a command runs whichever agent issued it
(R289); a time step advances NOW (R230). -/
def step (s : State) : Host.Outcome State Fault Refusal :=
  match s.takeOperation with
  | none => .next s
  | some (.command _ t, s1) => runTransaction t s1
  | some (.timeStep, s1) => .next s1.timeStep

/-- s with a table row's transaction issued by the HOST as the very next operation; every other piece of state kept. -/
def State.withFetchWord (s : State) (nbits w : Nat) : State :=
  { s with inputs := .command .host (tableTransaction nbits w) :: s.inputs }

end Sys2Proof.Machine
end

