-- ==== Sys2Proof/Machine/Assembly.lean ====
section
/-! DEFINITION. The assembly language of the spec: the line of a command (30_encoding.md R99) and the operations a
pseudo-instruction stands for (R100). -/

namespace Sys2Proof.Machine

/-- A command the HOST issues. -/
def hostCommand (i : Instr) : Operation := .command .host (encode i)

/-- A command the PRIMARY sensor issues: `[PRI] TD_PRIMARY_EDGE`. -/
def primaryEdge : Operation := .command .primary (encode .tdPrimaryEdge)

/-- `WAIT n` as operations (R100): n time steps, no command. -/
def waitSteps (n : Nat) : List Operation := List.replicate n .timeStep

/-- What a pseudo-instruction expands to at time NOW (R100). -/
def expandPseudo (now : Word) : Pseudo → List Operation
  | .wait n => waitSteps n
  | .atTime t => waitSteps (off now t).toNat
  | .cfg reg value => [hostCommand (.cfgWrite reg value)]
  | .teeth n period => (List.replicate n (waitSteps period ++ [primaryEdge])).flatten
  | .clearAll => [hostCommand (.stickyClear 0x7F)]

/-- The mnemonic of a command (R93, R99). -/
def mnemonicOf : Instr → String
  | .nop => "NOP"
  | .tdSetup => "TD_SETUP"
  | .tdPrimaryEdge => "TD_PRIMARY_EDGE"
  | .tdSecondaryEdge => "TD_SECONDARY_EDGE"
  | .tdGetRpm => "TD_GET_RPM"
  | .tdGetCrankAngle _ => "TD_GET_CRANK_ANGLE"
  | .tdStallCheck => "TD_STALL_CHECK"
  | .tdSnapshot => "TD_SNAPSHOT"
  | .regRead _ _ => "REG_READ"
  | .cfgWrite _ _ => "CFG_WRITE"
  | .stickyClear _ => "STICKY_CLEAR"
  | .logRead _ => "LOG_READ"
  | .logClear => "LOG_CLEAR"
  | .cmAngleToTime _ _ => "CM_ANGLE_TO_TIME"
  | .cmTimeToAngle _ _ => "CM_TIME_TO_ANGLE"
  | .cmSpeedCalcs => "CM_SPEED_CALCS"
  | .cmIgnitionLimits _ => "CM_IGNITION_LIMITS"
  | .schInit => "SCH_INIT"
  | .schSchedule _ _ _ => "SCH_SCHEDULE"
  | .schCancel _ => "SCH_CANCEL"
  | .schStatus _ => "SCH_STATUS"

/-- The operands of a command as its assembly line writes them, in decimal (R99): methods by code, registers by number,
angles signed. -/
def operandsOf : Instr → List String
  | .tdGetCrankAngle m => [toString m.toNat]
  | .regRead r bank => toString r.toNat :: (if bank then ["SNAP"] else [])
  | .cfgWrite r v => [toString r.toNat, toString v.toNat]
  | .stickyClear mask => [toString mask.toNat]
  | .logRead i => [toString i.toNat]
  | .cmAngleToTime m a => [toString m.toNat, toString (s16 a)]
  | .cmTimeToAngle m t => [toString m.toNat, toString t.toNat]
  | .cmIgnitionLimits a => [toString (s16 a)]
  | .schSchedule ch d u => [toString ch.toNat, toString d.toNat, toString u.toNat]
  | .schCancel ch => [toString ch.toNat]
  | .schStatus ch => [toString ch.toNat]
  | .nop | .tdSetup | .tdPrimaryEdge | .tdSecondaryEdge | .tdGetRpm | .tdStallCheck | .tdSnapshot | .logClear
  | .cmSpeedCalcs | .schInit => []

/-- The bracketed agent that may start a line (R99); the TIMEBASE issues no command. -/
def agentTag : Agent → String
  | .host => "[HOST] "
  | .primary => "[PRI] "
  | .secondary => "[SEC] "
  | .tick => "[TICK] "
  | .timebase => ""

/-- The assembly line of a command issued by an agent (R99). -/
def asmLine (a : Agent) (i : Instr) : String :=
  agentTag a ++ mnemonicOf i ++
    (if (operandsOf i).isEmpty then "" else " " ++ ", ".intercalate (operandsOf i))

end Sys2Proof.Machine
end

