-- ==== Sys2Proof/Safety.lean ====
section
/-! DEFINITION. What the statements about runs are said with: the legal configurations of TD_SETUP, the invariants of the
scheduler (42_event_scheduler.md R214, R236, R237), of the decoder (10_state.md R27 to R45) and of the command interface
(60_exceptions.md R280), and the states a run reaches. -/

namespace Sys2Proof.Machine

/-! ## Configurations -/

/-- The configurations TD_SETUP accepts (R150), said without the model's own checks. -/
def ConfigRegs.Legal (c : ConfigRegs) : Prop :=
  (c.pattern = 0 ∨ c.pattern = 1 ∨ c.pattern = 2) ∧ (c.cycle = 360 ∨ c.cycle = 720) ∧ c.flags.toNat < 4 ∧
  (c.pattern = 0 →
    2 ≤ c.teeth.toNat ∧ c.teeth.toNat ≤ 360 ∧ c.teeth.toNat ∣ 360 ∧ 1 ≤ c.missing.toNat ∧
      c.missing.toNat + 2 ≤ c.teeth.toNat) ∧
  (c.pattern = 1 → 1 ≤ c.teeth.toNat ∧ c.teeth.toNat ≤ 360 ∧ c.teeth.toNat ∣ 360) ∧
  (c.pattern = 2 →
    2 ≤ c.teeth.toNat ∧ c.teeth.toNat ≤ Config.tableMax ∧
      (∀ i j : Fin Config.tableMax, j.val = i.val + 1 → j.val < c.teeth.toNat →
        c.table[i].toNat < c.table[j].toNat) ∧
      ∀ i : Fin Config.tableMax, i.val + 1 = c.teeth.toNat → c.table[i].toNat < 360)

/-! ## The scheduler's invariant -/

/-- The distance from NOW to peripheral p's next match, in counter ticks. -/
def State.matchDistance (s : State) (p : Periph) : Nat := ((s.timer p).compare - s.count).toNat

/-- What holds of the scheduler between operations. -/
structure State.SchedInv (s : State) : Prop where
  /-- OUT[ch] = 1 exactly when channel ch is RUNNING (R237). -/
  out_running : ∀ ch : Chan, s.output ch = true ↔ (s.chan ch).status = .running
  /-- ARMED[p] = 1 exactly when some channel of p is PENDING or RUNNING (R237). -/
  armed_active : ∀ p : Periph, (s.timer p).armed = true ↔ ∃ ch : Chan, ch.periph = p ∧ (s.chan ch).status ≠ .off
  /-- A disabled channel is OFF (R237). -/
  disabled_off : ∀ ch : Chan, s.chanEnabled ch = false → (s.chan ch).status = .off
  /-- The target a channel waits for lies ahead of NOW (R214). -/
  target_ahead : ∀ (ch : Chan) (x : Word), (s.chan ch).target? = some x → off s.now x ≠ 0
  /-- A PENDING channel's end is not before its start (R214). -/
  start_before_end : ∀ ch : Chan, (s.chan ch).status = .pending →
    (off s.now (s.chan ch).startTarget).toNat ≤ (off s.now (s.chan ch).endTarget).toNat
  /-- DURATION is the distance from the start target to the end target (R47). -/
  duration_eq : ∀ ch : Chan, (s.chan ch).duration = (s.chan ch).endTarget - (s.chan ch).startTarget
  /-- An armed compare matches at or before the nearest target of its channels, and not now (R233, R236(b)). -/
  compare_nearest : ∀ p : Periph, (s.timer p).armed = true →
    0 < s.matchDistance p ∧ ∀ (ch : Chan) (x : Word), ch.periph = p → (s.chan ch).target? = some x →
      s.matchDistance p ≤ (off s.now x).toNat

/-! ## The decoder's invariant -/

/-- A scale pair as the scale-pair function or a reset leaves it (R42, R120, R122): DPU32768 is the reciprocal of TPD16. -/
def ReciprocalPair (tpd dpu : Word) : Prop :=
  if tpd = 0 then dpu = 0 ∨ dpu = 0xFFFFFFFF else dpu.toNat = 524288 / tpd.toNat

/-- What holds of the decoder and of its log between operations. -/
structure State.DecInv (s : State) : Prop where
  /-- TEETH_SEEN takes the values 0, 1, 2 (R28). -/
  teeth_seen : s.dec.teethSeen.toNat ≤ 2
  /-- REV_SEEN takes the values 0, 1, 2 (R38). -/
  rev_seen : s.dec.revSeen.toNat ≤ 2
  /-- LOG_WR takes the values 0 to LOG_SIZE (R45). -/
  log_wr : s.log.wr.toNat ≤ Config.logSize
  /-- LOG_FULL is 1 exactly when LOG_WR has reached LOG_SIZE (R45). -/
  log_full : s.log.full = true ↔ s.log.wr.toNat = Config.logSize
  /-- TOOTH_GAP is the difference of the two last timestamps whenever both are valid (R27). -/
  gap_eq : s.dec.teethSeen = 2 → s.dec.toothGap = s.dec.toothLastTime - s.dec.toothLastMinusOneTime
  /-- While CONFIGURED the configuration is the one TD_SETUP validated, and TOOTH_ANGLE its nominal angle (R23, R24,
  R253). -/
  configured_legal : s.dec.configured = true → s.cfg.Legal ∧
    s.dec.toothAngle.toNat = if s.cfg.pattern = 2 then 0 else 360 / s.cfg.teeth.toNat
  /-- A synced tooth count is 1 to TPR (R30, R177). -/
  synced_count : s.dec.configured = true → s.dec.hasSync = true →
    1 ≤ s.dec.toothCount.toNat ∧ (s.dec.toothCount.toNat : Int) ≤ s.cfg.teethPerRev
  /-- Grace is a state without sync (R34, R179). -/
  grace_unsynced : s.dec.graceActive = true → s.dec.hasSync = false
  /-- Outside grace no tooth of grace is counted (R169, R171). -/
  grace_idle : s.dec.graceActive = false → s.dec.graceTeeth = 0
  /-- The hard reset comes before the count of grace passes a revolution (R171). -/
  grace_count : s.dec.configured = true → s.dec.graceActive = true →
    (s.dec.graceTeeth.toNat : Int) < s.cfg.teethPerRev
  /-- Without sync no valid tooth and no revolution start is counted (R32, R38). -/
  unsynced_counts : s.dec.hasSync = false → s.dec.validTeeth = 0 ∧ s.dec.revSeen = 0
  /-- A valid sample spans 1 to 360 degrees (R39, R161, R167). -/
  span_range : s.dec.regValid = true → 1 ≤ s.dec.regSpan.toNat ∧ s.dec.regSpan.toNat ≤ 360
  /-- Every scale pair is reciprocal (R42). -/
  pairs : ∀ m : Fin Config.numMethods, ReciprocalPair s.dec.tpd16[m] s.dec.dpu32768[m]

/-! ## The command interface's invariant -/

/-- STATUS holds one of the codes 0 to 11, and every status but OK leaves RES0 = RES1 = 0 (R280). -/
def State.StatusInv (s : State) : Prop :=
  s.iface.status.toNat ≤ 11 ∧ (s.iface.status ≠ 0 → s.iface.res0 = 0 ∧ s.iface.res1 = 0)

/-! ## Runs -/

/-- A state a run reaches from power-on reset: between steps the agents may issue any operations (20_memory.md R74), and
a build may have either PERIPH_ORDER (R235). -/
inductive Reachable : State → Prop where
  | reset (order : Config.PeriphOrder) : Reachable { State.reset with periphOrder := order }
  | issue {s : State} (op : Operation) : Reachable s → Reachable (s.issue op)
  | step {s t : State} : Reachable s → step s = .next t → Reachable t

/-- What a safe run never leaves: the three invariants. In particular no output stays asserted on a channel that is not
RUNNING (R236(e), R237). -/
def State.Safe (s : State) : Prop := s.SchedInv ∧ s.DecInv ∧ s.StatusInv

end Sys2Proof.Machine
end

