-- ==== Sys2Proof/Certificates/Slice0/Obligations.lean ====
section
/-! DEFINITION. The statements of this row, each from the numbered rules its docstring names. A statement of an
instruction's result is an equation for what `exec` answers, in every state that meets the hypotheses, and the record
update on the right is its whole frame: a field it does not write stands as it stood. Where a statement speaks of every
step, the step on an empty order is the model's idle step (log entry 2). -/

section Slice0Obligations

open Sys2Proof Sys2Proof.Machine

/-! ## Encoding and decoding -/

/-- R90 to R95, R72: an instruction that is well formed decodes back from its words and from its bytes, whatever
follows them. -/
def Obligations.DecodeEncodeRoundTrip : Prop :=
  ∀ (i : Instr) (rest : List Byte), i.wellFormed = true →
    decode (encode i) = .ok i ∧ decodeBytes ((encode i).toBytes ++ rest) = .ok (i, rest)

/-- R94: the checks of the decoder in their order, on the numbers of the fields; a word that passes them all is the
encoding of its instruction, and a step on a word that fails one does `Sticky(ILLEGAL); Ret(ILLEGAL)` and nothing else. -/
def Obligations.DecodeChecksInOrder : Prop :=
  ∀ t : Transaction,
    let op := t.cmd.toNat % 256
    let idx := t.cmd.toNat / 256 % 256
    (if 65536 ≤ t.cmd.toNat then decode t = .error .reservedField
      else if ¬ (op ≤ 0x0C ∨ (0x10 ≤ op ∧ op ≤ 0x13) ∨ (0x20 ≤ op ∧ op ≤ 0x23)) then decode t = .error .unknownOpcode
      else if op ∈ [0x00, 0x01, 0x02, 0x03, 0x04, 0x06, 0x07, 0x0A, 0x0C, 0x12, 0x13, 0x20] ∧ idx ≠ 0 then
        decode t = .error .indexNotZero
      else if op ∈ [0x05, 0x10, 0x11] ∧ 4 < idx then decode t = .error .methodOutOfRange
      else if op ∈ [0x21, 0x22, 0x23] ∧ 15 < idx then decode t = .error .channelOutOfRange
      else ∃ i, decode t = .ok i ∧ i.opcode.toNat = op ∧ i.idx.toNat = idx) ∧
    ∀ (s : State) (a : Agent) (rest : List Operation), s.inputs = .command a t :: rest →
      (∀ e, decode t = .error e →
        step s = .next { s with inputs := rest, sticky := s.sticky ||| 0x20, iface := ⟨11, 0, 0⟩ }) ∧
      ∀ i, decode t = .ok i → step s = exec i { s with inputs := rest }

/-- R90, R95, 93_implementation_defined.md I24: what a word decodes to is well formed and has that CMD word, and its
operands are the bits of OPA and OPB its row reads: no other bit of them matters. -/
def Obligations.DecodedOperands : Prop :=
  ∀ (t : Transaction) (i : Instr), decode t = .ok i →
    i.wellFormed = true ∧ (encode i).cmd = t.cmd ∧
    (encode i).opa = t.opa &&& (match i with
      | .regRead _ _ => 0x1
      | .stickyClear _ => 0x7F
      | .cmAngleToTime _ _ | .cmIgnitionLimits _ => 0xFFFF
      | .cfgWrite _ _ | .cmTimeToAngle _ _ | .schSchedule _ _ _ => 0xFFFFFFFF
      | _ => 0) ∧
    (encode i).opb = t.opb &&& (match i with
      | .schSchedule _ _ _ => 0xFFFFFFFF
      | _ => 0)

/-- R101: the worked encodings of the spec, word by word. -/
def Obligations.WorkedEncodings : Prop :=
  decode ⟨0x00000105, 0, 0⟩ = .ok (.tdGetCrankAngle 1) ∧
  decode ⟨0x00002109, 0x00000024, 0⟩ = .ok (.cfgWrite 0x21 36) ∧
  decode ⟨0x00000921, 0x000003E8, 0x000001F4⟩ = .ok (.schSchedule 9 1000 500) ∧
  decode ⟨0x00000C08, 0x00000001, 0⟩ = .ok (.regRead 0x0C true) ∧
  decode ⟨0x00000010, 0x0000FFA6, 0⟩ = .ok (.cmAngleToTime 0 (-90)) ∧
  decode ⟨0x00010000, 0, 0⟩ = .error .reservedField ∧ decode ⟨0x00000101, 0, 0⟩ = .error .indexNotZero ∧
  decode ⟨0x00000505, 0, 0⟩ = .error .methodOutOfRange ∧ decode ⟨0x00001021, 0, 0⟩ = .error .channelOutOfRange

/-! ## Steps and reset -/

/-- R9, R74, R230, R311: one step takes the first operation of the order whole: the decoded command is executed, a time
step is made, and with no operation the block waits (the model's idle step, log entry 2). -/
def Obligations.StepRunsDecodedCommand : Prop :=
  ∀ (s : State) (rest : List Operation),
    (∀ (a : Agent) (t : Transaction) (i : Instr), s.inputs = .command a t :: rest → decode t = .ok i →
      step s = exec i { s with inputs := rest }) ∧
    (s.inputs = .timeStep :: rest → step s = .next { s with inputs := rest }.timeStep) ∧
    (s.inputs = [] → step s = .next s)

/-- R9, R10, R20, R74, R280, R286: every command and every step completes with a next state; a command changes neither NOW
nor the order of operations, a step consumes exactly its operation, and NOW moves by one in a time step and in nothing else.
Two clauses are the model's: the step on an empty order is its idle step (read from R311, log entry 2), and PERIPH_ORDER,
R235's build parameter, is a field of State that nothing changes (log entry 3). -/
def Obligations.EveryOperationCompletes : Prop :=
  (∀ (i : Instr) (s : State), ∃ t, exec i s = .next t ∧ t.now = s.now ∧ t.inputs = s.inputs ∧
    t.periphOrder = s.periphOrder) ∧
  ∀ s : State, ∃ t, step s = .next t ∧ t.inputs = s.inputs.tail ∧ t.periphOrder = s.periphOrder ∧
    t.now = if s.inputs.head? = some .timeStep then s.now + 1 else s.now

/-- R289: no command checks which agent issued it. -/
def Obligations.AgentNotChecked : Prop :=
  ∀ (s : State) (a b : Agent) (t : Transaction) (rest : List Operation),
    step { s with inputs := .command a t :: rest } = step { s with inputs := .command b t :: rest }

/-- R281: an illegal command sets STICKY.ILLEGAL, returns ILLEGAL with results 0, and changes nothing else. -/
def Obligations.IllegalCommandChangesNothingElse : Prop :=
  ∀ (s : State) (a : Agent) (t : Transaction) (e : DecodeError) (rest : List Operation),
    s.inputs = .command a t :: rest → decode t = .error e →
      step s = .next { s with inputs := rest, sticky := s.sticky ||| 0x20, iface := ⟨11, 0, 0⟩ }

/-- R56: the value of every piece of the spec's state after power-on reset. -/
def Obligations.ResetValues : Prop :=
  let s := State.reset
  let d := s.dec
  let g := s.cfg
  s.now = 0 ∧ s.iface = ⟨0, 0, 0⟩ ∧ d.configured = false ∧ d.toothAngle = 0 ∧ d.toothLastTime = 0 ∧
  d.toothLastMinusOneTime = 0 ∧ d.toothGap = 0 ∧ d.teethSeen = 0 ∧ d.hasSync = false ∧ d.toothCount = 0 ∧
  d.revFlag = false ∧ d.validTeeth = 0 ∧ d.syncLossCount = 0 ∧ d.graceActive = false ∧ d.graceTeeth = 0 ∧
  d.toothOneTime = 0 ∧ d.toothOneMinusOneTime = 0 ∧ d.revSeen = 0 ∧ d.regGap = 0 ∧ d.regSpan = 0 ∧
  d.regValid = false ∧ d.rpmReg = 0 ∧ (∀ m : Fin 3, d.tpd16[m] = 0 ∧ d.dpu32768[m] = 0) ∧ d.secLastTime = 0 ∧
  d.secSeen = false ∧ (∀ i : Fin 64, s.log.buf[i] = 0) ∧ s.log.wr = 0 ∧ s.log.full = false ∧
  (∀ i : Fin 24, s.snap[i] = 0) ∧ (∀ ch : Fin 16, s.chan ch = ⟨.off, 0, 0, 0⟩) ∧ s.sched.enabled = 0 ∧
  s.sched.out = 0 ∧ s.sticky = 0 ∧ (∀ p : Fin 2, s.timer p = ⟨0, false⟩) ∧ s.sched.trace = [] ∧
  g.pattern = 0 ∧ g.teeth = 0 ∧ g.missing = 0 ∧ g.debounce = 0 ∧ g.maxStall = 0 ∧ g.syncConfirm = 0 ∧
  g.crankRpm = 0 ∧ g.cycle = 0 ∧ g.flags = 0 ∧ g.fuelCh = 0 ∧ g.ignCh = 0 ∧ ∀ i : Fin 64, g.table[i] = 0

/-- R310: right after reset TD_PRIMARY_EDGE, TD_SECONDARY_EDGE, TD_GET_RPM, TD_GET_CRANK_ANGLE with an implemented method,
TD_STALL_CHECK and CM_SPEED_CALCS return NOT_CONFIGURED and every SCH_SCHEDULE of a channel returns CHANNEL_DISABLED, and
none of these changes anything else. TD_SETUP and the commands of no such check are not among them: they run. -/
def Obligations.AfterResetUnconfiguredAndDisabled : Prop :=
  (∀ i ∈ [Instr.tdPrimaryEdge, .tdSecondaryEdge, .tdGetRpm, .tdGetCrankAngle 0, .tdGetCrankAngle 1,
      .tdGetCrankAngle 2, .tdStallCheck, .cmSpeedCalcs],
    exec i State.reset = .next { State.reset with iface := ⟨6, 0, 0⟩ }) ∧
  ∀ (ch : Chan) (d u : Word),
    exec (.schSchedule (BitVec.ofNat 8 ch.val) d u) State.reset = .next { State.reset with iface := ⟨8, 0, 0⟩ }

/-! ## Crank math -/

/-- R120: the scale pair of I microseconds over S degrees, and the reciprocal bounds the rule derives. -/
def Obligations.ScalePairOfInterval : Prop :=
  ∀ I S : Nat, 1 ≤ S →
    let T := min (16 * I / S) (2 ^ 32 - 1)
    let D := if T = 0 then 2 ^ 32 - 1 else 524288 / T
    (pair I S).1.toNat = T ∧ (pair I S).2.toNat = D ∧
      (0 < T → T ≤ 524288 → T * D ≤ 524288 ∧ 524288 - T < T * D)

/-- R125: CM_ANGLE_TO_TIME, its encoding and its result for every IDX: the signed time of a signed angle with its
magnitude saturating at 2^31 - 1, REFUSED for a reserved method, ILLEGAL for a code above 4. -/
def Obligations.AngleToTime : Prop :=
  ∀ (m : Byte) (opa opb : Word) (s : State),
    let a := (opa.truncate 16 : Half)
    (m.toNat ≤ 4 → decode ⟨0x10 ||| m.zeroExtend 32 <<< 8, opa, opb⟩ = .ok (.cmAngleToTime m a)) ∧
    if h : m.toNat < 3 then
      let mag : Int := min (a.toInt.natAbs * s.dec.tpd16[m.toNat].toNat / 16) (2 ^ 31 - 1)
      ∃ r : Word, r.toInt = (if a.toInt < 0 then -mag else mag) ∧
        exec (.cmAngleToTime m a) s = .next { s with iface := ⟨0, r, 0⟩ }
    else if m.toNat ≤ 4 then
      exec (.cmAngleToTime m a) s = .next { s with sticky := s.sticky ||| 0x40, iface := ⟨10, 0, 0⟩ }
    else exec (.cmAngleToTime m a) s = .next { s with sticky := s.sticky ||| 0x20, iface := ⟨11, 0, 0⟩ }

/-- R126: CM_TIME_TO_ANGLE, its encoding and its result for every IDX: the angle of a time, saturating at 32767. -/
def Obligations.TimeToAngle : Prop :=
  ∀ (m : Byte) (time opb : Word) (s : State),
    (m.toNat ≤ 4 → decode ⟨0x11 ||| m.zeroExtend 32 <<< 8, time, opb⟩ = .ok (.cmTimeToAngle m time)) ∧
    if h : m.toNat < 3 then
      ∃ r : Word, r.toNat = min (time.toNat * s.dec.dpu32768[m.toNat].toNat / 32768) 32767 ∧
        exec (.cmTimeToAngle m time) s = .next { s with iface := ⟨0, r, 0⟩ }
    else if m.toNat ≤ 4 then
      exec (.cmTimeToAngle m time) s = .next { s with sticky := s.sticky ||| 0x40, iface := ⟨10, 0, 0⟩ }
    else exec (.cmTimeToAngle m time) s = .next { s with sticky := s.sticky ||| 0x20, iface := ⟨11, 0, 0⟩ }

/-- R129: an angle turned into a time and back never overshoots, and its shortfall is bounded. T and D are the factors of
the method's pair; the bounds are the rule's, multiplied out by 2^19. -/
def Obligations.RoundTripBound : Prop :=
  ∀ (m : Fin 3) (x : Half) (s : State),
    let T := s.dec.tpd16[m].toNat
    let D := s.dec.dpu32768[m].toNat
    0 < T → T ≤ 524288 → D = 524288 / T → x.toNat ≤ 32767 → x.toNat * T / 16 < 2 ^ 31 →
    ∃ s1 s2 : State, exec (.cmAngleToTime (BitVec.ofNat 8 m.val) x) s = .next s1 ∧
      exec (.cmTimeToAngle (BitVec.ofNat 8 m.val) s1.iface.res0) s1 = .next s2 ∧
      s2.iface.res0.toNat ≤ x.toNat ∧
      ((x.toNat : Int) - 1) * 2 ^ 19 - x.toNat * T - 16 * D < s2.iface.res0.toNat * 2 ^ 19

/-- R123, R127: CM_SPEED_CALCS, its encoding, its check order and the speed calculation it runs. -/
def Obligations.SpeedCalculation : Prop :=
  (∀ opa opb : Word, decode ⟨0x12, opa, opb⟩ = .ok .cmSpeedCalcs) ∧
  ∀ s : State,
    let d := s.dec
    let rev := (d.toothOneTime - d.toothOneMinusOneTime).toNat
    let gap := d.regGap.toNat
    let rpm : Nat :=
      if d.rpmReg.toNat < s.cfg.crankRpm.toNat ∧ d.revSeen = 2 then
        if rev = 0 then 65535 else min (60000000 / rev) 65535
      else if gap = 0 then 65535 else min (1000000 * d.regSpan.toNat / (6 * gap)) 65535
    let p0 := pair gap d.regSpan.toNat
    let p1 := pair rev 360
    exec .cmSpeedCalcs s = .next (
      if d.configured = false then { s with iface := ⟨6, 0, 0⟩ }
      else if d.hasSync = false then { s with iface := ⟨4, 0, 0⟩ }
      else if d.regValid = false then { s with iface := ⟨0, 0, 0⟩ }
      else if d.revSeen = 2 then
        { s with
          dec := { d with rpmReg := BitVec.ofNat 16 rpm, tpd16 := (d.tpd16.set 0 p0.1).set 1 p1.1
                          dpu32768 := (d.dpu32768.set 0 p0.2).set 1 p1.2 }
          iface := ⟨0, 0, 0⟩ }
      else
        { s with
          dec := { d with rpmReg := BitVec.ofNat 16 rpm, tpd16 := d.tpd16.set 0 p0.1
                          dpu32768 := d.dpu32768.set 0 p0.2 }
          iface := ⟨0, 0, 0⟩ })

/-- R128: CM_IGNITION_LIMITS, its encoding and its result: one cycle added to a negative angle, one subtracted from an
angle at or above the cycle, NOT_CONFIGURED for a cycle that is not 360 or 720. -/
def Obligations.IgnitionLimits : Prop :=
  ∀ (opa opb : Word) (s : State),
    let a := (opa.truncate 16 : Half)
    let cycle : Int := s.cfg.cycle.toNat
    decode ⟨0x13, opa, opb⟩ = .ok (.cmIgnitionLimits a) ∧
    if cycle = 360 ∨ cycle = 720 then
      ∃ r : Word, r.toInt = (if cycle ≤ a.toInt then a.toInt - cycle else if a.toInt < 0 then a.toInt + cycle else a.toInt) ∧
        exec (.cmIgnitionLimits a) s = .next { s with iface := ⟨0, r, 0⟩ }
    else exec (.cmIgnitionLimits a) s = .next { s with iface := ⟨6, 0, 0⟩ }

/-- R124: methods 3 and 4 are refused by every command of format CM: STICKY.REFUSED, status REFUSED, nothing else. -/
def Obligations.ReservedMethodsRefused : Prop :=
  ∀ (m : Byte) (s : State) (a : Half) (x : Word), m = 3 ∨ m = 4 →
    ∀ i ∈ [Instr.tdGetCrankAngle m, .cmAngleToTime m a, .cmTimeToAngle m x],
      exec i s = .next { s with sticky := s.sticky ||| 0x40, iface := ⟨10, 0, 0⟩ }

/-! ## The trigger decoder -/

/-- R150: TD_SETUP, its encoding and its result: a legal configuration clears the decoder and the log pointer, latches
TOOTH_ANGLE and sets CONFIGURED; any other clears CONFIGURED and sets STICKY.MISCONFIG. -/
def Obligations.Setup : Prop :=
  (∀ opa opb : Word, decode ⟨0x01, opa, opb⟩ = .ok .tdSetup) ∧
  ∀ s : State,
    (s.cfg.Legal →
      exec .tdSetup s = .next { s with
        dec := { Decoder.reset with
          configured := true
          toothAngle := if s.cfg.pattern = 2 then 0 else BitVec.ofNat 16 (360 / s.cfg.teeth.toNat) }
        log := ⟨s.log.buf, 0, false⟩
        iface := ⟨0, 0, 0⟩ }) ∧
    (¬ s.cfg.Legal →
      exec .tdSetup s = .next { s with
        dec := { s.dec with configured := false }, sticky := s.sticky ||| 0x10, iface := ⟨7, 0, 0⟩ })

/-- R152: a primary edge is rejected exactly when a previous tooth is on record and the gap is strictly below
CFG_DEBOUNCE; a rejected edge changes STICKY.DEBOUNCE and the status only. Before that, an unconfigured decoder answers
NOT_CONFIGURED and changes nothing. -/
def Obligations.PrimaryDebounce : Prop :=
  ∀ s : State,
    if s.dec.configured = false then exec .tdPrimaryEdge s = .next { s with iface := ⟨6, 0, 0⟩ }
    else if 1 ≤ s.dec.teethSeen.toNat ∧ (s.now - s.dec.toothLastTime).toNat < s.cfg.debounce.toNat then
      exec .tdPrimaryEdge s = .next { s with sticky := s.sticky ||| 0x4, iface := ⟨1, 0, 0⟩ }
    else ∃ t, exec .tdPrimaryEdge s = .next t ∧ (t.iface.status = 0 ∨ t.iface.status = 2)

/-- R151 step 2, R153, R286: what every accepted tooth does to the timing record, and what no tooth touches. -/
def Obligations.HistoryShift : Prop :=
  ∀ s : State, s.dec.configured = true →
    (1 ≤ s.dec.teethSeen.toNat → s.cfg.debounce.toNat ≤ (s.now - s.dec.toothLastTime).toNat) →
    ∃ t, exec .tdPrimaryEdge s = .next t ∧
      t = { s with dec := t.dec, log := t.log, sticky := t.sticky, iface := t.iface } ∧
      t.dec.toothLastTime = s.now ∧
      t.dec.toothLastMinusOneTime =
        (if 1 ≤ s.dec.teethSeen.toNat then s.dec.toothLastTime else s.dec.toothLastMinusOneTime) ∧
      t.dec.toothGap = (if 1 ≤ s.dec.teethSeen.toNat then s.now - s.dec.toothLastTime else s.dec.toothGap) ∧
      t.dec.teethSeen.toNat = min (s.dec.teethSeen.toNat + 1) 2 ∧
      t.dec.configured = true ∧ t.dec.toothAngle = s.dec.toothAngle ∧ t.dec.secLastTime = s.dec.secLastTime ∧
      t.dec.secSeen = s.dec.secSeen

/-- R160, R161, R162, R168, R169: a sync gap on the missing-tooth wheel without sync, or where it is expected, is a
revolution start: TOOTH_COUNT 1, sync, the revolution times shifted, REV_FLAG toggled, grace ended, the sample kept, and
the speed calculation run once enough valid teeth are seen. -/
def Obligations.MissingToothRevolutionStart : Prop :=
  ∀ s : State,
    let gap := s.now - s.dec.toothLastTime
    let valid := min (s.dec.validTeeth.toNat + 1) 65535
    let d : Decoder := { s.dec with
      toothLastMinusOneTime := s.dec.toothLastTime, toothGap := gap, toothLastTime := s.now, toothCount := 1
      hasSync := true, toothOneMinusOneTime := s.dec.toothOneTime, toothOneTime := s.now
      revSeen := BitVec.ofNat 2 (min (s.dec.revSeen.toNat + 1) 2), revFlag := !s.dec.revFlag
      validTeeth := BitVec.ofNat 16 valid, graceActive := false, graceTeeth := 0 }
    s.dec.configured = true → s.cfg.pattern = 0 → s.dec.teethSeen = 2 → s.cfg.debounce.toNat ≤ gap.toNat →
    3 * s.dec.toothGap.toNat ≤ 2 * gap.toNat →
    (s.dec.hasSync = true →
      (min (s.dec.toothCount.toNat + 1) 65535 : Int) = (s.cfg.teeth.toNat : Int) - s.cfg.missing.toNat + 1) →
    ∃ log, exec .tdPrimaryEdge s = .next { s with
      dec := if s.cfg.syncConfirm.toNat ≤ valid then d.speedCalcs s.cfg.crankRpm else d
      log := log
      iface := ⟨0, 0, 0⟩ }

/-- R161, R170: on the missing-tooth wheel a synced tooth that ends a sync gap where none is expected, or ends none where
one is, loses sync: sync and the counts of R170 cleared, the loss counted, grace begun, STICKY.SYNC_LOSS and status
SYNC_LOSS; RPM_REG, the scale pairs, the sample and TOOTH_COUNT (one up) are kept. -/
def Obligations.MissingToothSyncLoss : Prop :=
  ∀ s : State,
    let had := 1 ≤ s.dec.teethSeen.toNat
    let gap := s.now - s.dec.toothLastTime
    let count := min (s.dec.toothCount.toNat + 1) 65535
    let detected := s.dec.teethSeen = 2 ∧ 3 * s.dec.toothGap.toNat ≤ 2 * gap.toNat
    let expected := (count : Int) = (s.cfg.teeth.toNat : Int) - s.cfg.missing.toNat + 1
    s.dec.configured = true → s.cfg.pattern = 0 → s.dec.hasSync = true →
    (had → s.cfg.debounce.toNat ≤ gap.toNat) → (detected ↔ ¬ expected) →
    ∃ log, exec .tdPrimaryEdge s = .next { s with
      dec := { s.dec with
        toothLastMinusOneTime := if had then s.dec.toothLastTime else s.dec.toothLastMinusOneTime
        toothGap := if had then gap else s.dec.toothGap
        toothLastTime := s.now
        teethSeen := BitVec.ofNat 2 (min (s.dec.teethSeen.toNat + 1) 2)
        toothCount := BitVec.ofNat 16 count
        hasSync := false
        syncLossCount := BitVec.ofNat 8 (min (s.dec.syncLossCount.toNat + 1) 255)
        validTeeth := 0, graceActive := true, graceTeeth := 0, revSeen := 0 }
      log := log
      sticky := s.sticky ||| 0x1
      iface := ⟨2, 0, 0⟩ }

/-- R161, R166, R168, R169: a synced tooth of the missing-tooth wheel inside the revolution counts one up and is a valid
tooth; its gap is the regular sample of TOOTH_ANGLE degrees and refreshes scale pair 2; the speed calculation runs on it
when enough valid teeth are seen and CFG_FLAGS[1] is 0. -/
def Obligations.MissingToothCounting : Prop :=
  ∀ s : State,
    let had := 1 ≤ s.dec.teethSeen.toNat
    let gap := s.now - s.dec.toothLastTime
    let count := min (s.dec.toothCount.toNat + 1) 65535
    let valid := min (s.dec.validTeeth.toNat + 1) 65535
    let p := pair gap.toNat s.dec.toothAngle.toNat
    let d : Decoder := { s.dec with
      toothLastMinusOneTime := if had then s.dec.toothLastTime else s.dec.toothLastMinusOneTime
      toothGap := if had then gap else s.dec.toothGap
      toothLastTime := s.now
      teethSeen := BitVec.ofNat 2 (min (s.dec.teethSeen.toNat + 1) 2)
      toothCount := BitVec.ofNat 16 count
      regGap := if had then gap else s.dec.regGap
      regSpan := if had then s.dec.toothAngle else s.dec.regSpan
      regValid := if had then true else s.dec.regValid
      tpd16 := if had then s.dec.tpd16.set 2 p.1 else s.dec.tpd16
      dpu32768 := if had then s.dec.dpu32768.set 2 p.2 else s.dec.dpu32768
      validTeeth := BitVec.ofNat 16 valid, graceActive := false, graceTeeth := 0 }
    s.dec.configured = true → s.cfg.pattern = 0 → s.dec.hasSync = true →
    (had → s.cfg.debounce.toNat ≤ gap.toNat) →
    ¬ (s.dec.teethSeen = 2 ∧ 3 * s.dec.toothGap.toNat ≤ 2 * gap.toNat) →
    (count : Int) ≠ (s.cfg.teeth.toNat : Int) - s.cfg.missing.toNat + 1 →
    ∃ log, exec .tdPrimaryEdge s = .next { s with
      dec := if s.cfg.syncConfirm.toNat ≤ valid ∧ s.cfg.flags.getLsbD 1 = false then d.speedCalcs s.cfg.crankRpm else d
      log := log
      iface := ⟨0, 0, 0⟩ }

/-- R161, R163, R166, R168, R169: a tooth without sync and without grace is timed and counted, and on patterns 0 and 1 its
gap is sampled over TOOTH_ANGLE degrees; no speed is calculated. -/
def Obligations.UnsyncedTooth : Prop :=
  ∀ s : State,
    let had := 1 ≤ s.dec.teethSeen.toNat
    let gap := s.now - s.dec.toothLastTime
    let sampled := had ∧ (s.cfg.pattern = 0 ∨ s.cfg.pattern = 1)
    let p := pair gap.toNat s.dec.toothAngle.toNat
    s.dec.configured = true → s.dec.hasSync = false → s.dec.graceActive = false →
    (had → s.cfg.debounce.toNat ≤ gap.toNat) →
    ¬ (s.cfg.pattern = 0 ∧ s.dec.teethSeen = 2 ∧ 3 * s.dec.toothGap.toNat ≤ 2 * gap.toNat) →
    ∃ log, exec .tdPrimaryEdge s = .next { s with
      dec := { s.dec with
        toothLastMinusOneTime := if had then s.dec.toothLastTime else s.dec.toothLastMinusOneTime
        toothGap := if had then gap else s.dec.toothGap
        toothLastTime := s.now
        teethSeen := BitVec.ofNat 2 (min (s.dec.teethSeen.toNat + 1) 2)
        toothCount := BitVec.ofNat 16 (min (s.dec.toothCount.toNat + 1) 65535)
        regGap := if sampled then gap else s.dec.regGap
        regSpan := if sampled then s.dec.toothAngle else s.dec.regSpan
        regValid := if sampled then true else s.dec.regValid
        tpd16 := if sampled then s.dec.tpd16.set 2 p.1 else s.dec.tpd16
        dpu32768 := if sampled then s.dec.dpu32768.set 2 p.2 else s.dec.dpu32768 }
      log := log
      iface := ⟨0, 0, 0⟩ }

/-- R166, R169, R171: a tooth during grace that does not regain sync counts in GRACE_TEETH; when they reach the teeth of
one revolution the hard reset clears speed, scale pairs, counts and grace, keeps the timing record and the sample's
values, and sets no status of its own. GRACE_TEETH is added to in its 16 bits: from 65535, where R169 names no value and
which the decoder's invariant rules out, it wraps to 0, the model's choice of log entry 14. -/
def Obligations.GraceAndHardReset : Prop :=
  ∀ s : State,
    let had := 1 ≤ s.dec.teethSeen.toNat
    let gap := s.now - s.dec.toothLastTime
    let sampled := had ∧ (s.cfg.pattern = 0 ∨ s.cfg.pattern = 1)
    let p := pair gap.toNat s.dec.toothAngle.toNat
    let grace := s.dec.graceTeeth + 1
    let perRev : Int := if s.cfg.pattern = 0 then (s.cfg.teeth.toNat : Int) - s.cfg.missing.toNat else s.cfg.teeth.toNat
    let d : Decoder := { s.dec with
      toothLastMinusOneTime := if had then s.dec.toothLastTime else s.dec.toothLastMinusOneTime
      toothGap := if had then gap else s.dec.toothGap
      toothLastTime := s.now
      teethSeen := BitVec.ofNat 2 (min (s.dec.teethSeen.toNat + 1) 2)
      toothCount := BitVec.ofNat 16 (min (s.dec.toothCount.toNat + 1) 65535)
      regGap := if sampled then gap else s.dec.regGap
      regSpan := if sampled then s.dec.toothAngle else s.dec.regSpan
      regValid := if sampled then true else s.dec.regValid
      tpd16 := if sampled then s.dec.tpd16.set 2 p.1 else s.dec.tpd16
      dpu32768 := if sampled then s.dec.dpu32768.set 2 p.2 else s.dec.dpu32768
      graceTeeth := grace }
    s.dec.configured = true → s.dec.hasSync = false → s.dec.graceActive = true →
    (had → s.cfg.debounce.toNat ≤ gap.toNat) →
    ¬ (s.cfg.pattern = 0 ∧ s.dec.teethSeen = 2 ∧ 3 * s.dec.toothGap.toNat ≤ 2 * gap.toNat) →
    ∃ log, exec .tdPrimaryEdge s = .next { s with
      dec :=
        if perRev ≤ grace.toNat then
          { d with rpmReg := 0, tpd16 := Vector.replicate _ 0, dpu32768 := Vector.replicate _ 0, toothCount := 0
                   validTeeth := 0, graceActive := false, graceTeeth := 0, revSeen := 0, regValid := false }
        else d
      log := log
      iface := ⟨0, 0, 0⟩ }

/-- R162, R163, R166 to R169, R172: a synced tooth of the dual wheel or of the angle table: the tooth after tooth N is the
revolution start; the gap spans TOOTH_ANGLE degrees, or on the table the difference of the tooth's angle and its
predecessor's, across the revolution boundary for tooth 1. -/
def Obligations.CamWheelTooth : Prop :=
  ∀ s : State,
    let had := 1 ≤ s.dec.teethSeen.toNat
    let gap := s.now - s.dec.toothLastTime
    let wrap := s.cfg.teeth.toNat < min (s.dec.toothCount.toNat + 1) 65535
    let k := if wrap then 1 else min (s.dec.toothCount.toNat + 1) 65535
    let angleOf : Nat → Nat := fun i => (s.cfg.table[i]?.getD 0).toNat
    let span : Half :=
      if s.cfg.pattern = 1 then s.dec.toothAngle
      else if k = 1 then BitVec.ofNat 16 (angleOf 0 + 360 - angleOf (s.cfg.teeth.toNat - 1))
      else BitVec.ofNat 16 (angleOf (k - 1) - angleOf (k - 2))
    let valid := min (s.dec.validTeeth.toNat + 1) 65535
    let p := pair gap.toNat span.toNat
    let d : Decoder := { s.dec with
      toothLastMinusOneTime := if had then s.dec.toothLastTime else s.dec.toothLastMinusOneTime
      toothGap := if had then gap else s.dec.toothGap
      toothLastTime := s.now
      teethSeen := BitVec.ofNat 2 (min (s.dec.teethSeen.toNat + 1) 2)
      toothCount := BitVec.ofNat 16 k
      toothOneMinusOneTime := if wrap then s.dec.toothOneTime else s.dec.toothOneMinusOneTime
      toothOneTime := if wrap then s.now else s.dec.toothOneTime
      revSeen := if wrap then BitVec.ofNat 2 (min (s.dec.revSeen.toNat + 1) 2) else s.dec.revSeen
      revFlag := if wrap then !s.dec.revFlag else s.dec.revFlag
      regGap := if had then gap else s.dec.regGap
      regSpan := if had then span else s.dec.regSpan
      regValid := if had then true else s.dec.regValid
      tpd16 := if had then s.dec.tpd16.set 2 p.1 else s.dec.tpd16
      dpu32768 := if had then s.dec.dpu32768.set 2 p.2 else s.dec.dpu32768
      validTeeth := BitVec.ofNat 16 valid, graceActive := false, graceTeeth := 0 }
    s.dec.configured = true → s.cfg.Legal → s.cfg.pattern ≠ 0 → s.dec.hasSync = true →
    (had → s.cfg.debounce.toNat ≤ gap.toNat) →
    ∃ log, exec .tdPrimaryEdge s = .next { s with
      dec :=
        if s.cfg.syncConfirm.toNat ≤ valid ∧ (s.cfg.flags.getLsbD 1 = false ∨ wrap) then d.speedCalcs s.cfg.crankRpm
        else d
      log := log
      iface := ⟨0, 0, 0⟩ }

/-- R151 step 4, R262: an accepted tooth with a gap is logged at LOG_WR when CFG_FLAGS[0] is 1 and the log is not full;
LOG_FULL is set when LOG_WR reaches 64; otherwise the log is kept. -/
def Obligations.ToothLogAppend : Prop :=
  ∀ s : State, s.dec.configured = true → s.log.wr.toNat < 64 ∨ s.log.full = true →
    (1 ≤ s.dec.teethSeen.toNat → s.cfg.debounce.toNat ≤ (s.now - s.dec.toothLastTime).toNat) →
    ∃ t, exec .tdPrimaryEdge s = .next t ∧
      (s.cfg.flags.getLsbD 0 = true ∧ 1 ≤ s.dec.teethSeen.toNat ∧ s.log.full = false →
        t.log.buf[s.log.wr.toNat]? = some (s.now - s.dec.toothLastTime) ∧
        (∀ j : Fin 64, j.val ≠ s.log.wr.toNat → t.log.buf[j] = s.log.buf[j]) ∧
        t.log.wr.toNat = s.log.wr.toNat + 1 ∧ (t.log.full = true ↔ s.log.wr.toNat = 63)) ∧
      (¬ (s.cfg.flags.getLsbD 0 = true ∧ 1 ≤ s.dec.teethSeen.toNat ∧ s.log.full = false) → t.log = s.log)

/-- R164: TD_SECONDARY_EDGE, its encoding, its check order and its result: an accepted edge is timed and sets REV_FLAG; on
patterns 1 and 2 it loses sync when it falls away from tooth N, else it gives sync at tooth N and ends grace. -/
def Obligations.SecondaryEdge : Prop :=
  (∀ opa opb : Word, decode ⟨0x03, opa, opb⟩ = .ok .tdSecondaryEdge) ∧
  ∀ s : State,
    exec .tdSecondaryEdge s = .next (
      if s.dec.configured = false then { s with iface := ⟨6, 0, 0⟩ }
      else if s.dec.secSeen = true ∧ (s.now - s.dec.secLastTime).toNat < s.cfg.debounce.toNat then
        { s with sticky := s.sticky ||| 0x4, iface := ⟨1, 0, 0⟩ }
      else if s.cfg.pattern = 1 ∨ s.cfg.pattern = 2 then
        if s.dec.hasSync = true ∧ s.dec.toothCount.toNat ≠ s.cfg.teeth.toNat then
          { s with
            dec := { s.dec with
              secLastTime := s.now, secSeen := true, revFlag := true, hasSync := false
              syncLossCount := BitVec.ofNat 8 (min (s.dec.syncLossCount.toNat + 1) 255)
              validTeeth := 0, graceActive := true, graceTeeth := 0, revSeen := 0 }
            sticky := s.sticky ||| 0x1
            iface := ⟨2, 0, 0⟩ }
        else
          { s with
            dec := { s.dec with
              secLastTime := s.now, secSeen := true, revFlag := true, hasSync := true
              toothCount := s.cfg.teeth, graceActive := false, graceTeeth := 0 }
            iface := ⟨0, 0, 0⟩ }
      else
        { s with
          dec := { s.dec with secLastTime := s.now, secSeen := true, revFlag := true }
          iface := ⟨0, 0, 0⟩ })

/-- R173: TD_STALL_CHECK, its encoding and its result: strictly more than CFG_MAX_STALL since the last tooth clears sync,
speed, scale pairs, counts, grace and the phase, and keeps the timestamps, the sample's values and the loss count. -/
def Obligations.StallCheck : Prop :=
  (∀ opa opb : Word, decode ⟨0x06, opa, opb⟩ = .ok .tdStallCheck) ∧
  ∀ s : State,
    exec .tdStallCheck s = .next (
      if s.dec.configured = false then { s with iface := ⟨6, 0, 0⟩ }
      else if 1 ≤ s.dec.teethSeen.toNat ∧ s.cfg.maxStall.toNat < (s.now - s.dec.toothLastTime).toNat then
        { s with
          dec := { s.dec with
            hasSync := false, rpmReg := 0, tpd16 := Vector.replicate _ 0, dpu32768 := Vector.replicate _ 0
            toothCount := 0, validTeeth := 0, teethSeen := 0, revSeen := 0, regValid := false
            graceActive := false, graceTeeth := 0, revFlag := false, secSeen := false }
          sticky := s.sticky ||| 0x2
          iface := ⟨3, 0, 0⟩ }
      else { s with iface := ⟨0, 0, 0⟩ })

/-- R175: TD_GET_RPM, its encoding, its check order and its result. -/
def Obligations.GetRpm : Prop :=
  (∀ opa opb : Word, decode ⟨0x04, opa, opb⟩ = .ok .tdGetRpm) ∧
  ∀ s : State, ∃ r : Word, r.toNat = s.dec.rpmReg.toNat ∧
    exec .tdGetRpm s = .next { s with
      iface := if s.dec.configured = false then ⟨6, 0, 0⟩ else if s.dec.hasSync = false then ⟨4, 0, 0⟩ else ⟨0, r, 0⟩ }

/-- R176, R177: TD_GET_CRANK_ANGLE, its encoding, its check order and the angle: the base angle of the tooth, 360 more in
the second revolution of a 720-degree cycle, plus the correction bounded by the cycle, modulo the cycle. -/
def Obligations.GetCrankAngle : Prop :=
  ∀ (m : Byte) (s : State),
    (∀ opa opb : Word, m.toNat ≤ 4 →
      decode ⟨0x05 ||| m.zeroExtend 32 <<< 8, opa, opb⟩ = .ok (.tdGetCrankAngle m)) ∧
    if h : m.toNat < 3 then
      if s.dec.configured = false then exec (.tdGetCrankAngle m) s = .next { s with iface := ⟨6, 0, 0⟩ }
      else if s.dec.hasSync = false then exec (.tdGetCrankAngle m) s = .next { s with iface := ⟨4, 0, 0⟩ }
      else
        let k := s.dec.toothCount.toNat
        let cycle := s.cfg.cycle.toNat
        let base := if s.cfg.pattern = 2 then (s.cfg.table[k - 1]?.getD 0).toNat else (k - 1) * s.dec.toothAngle.toNat
        let half := if cycle = 720 ∧ s.dec.revFlag = true then 360 else 0
        let elapsed := (s.now - s.dec.toothLastTime).toNat
        let corr := min (min (elapsed * s.dec.dpu32768[m.toNat].toNat / 32768) 32767) cycle
        cycle = 360 ∨ cycle = 720 → 1 ≤ k → (s.cfg.pattern = 2 → k ≤ 64) →
        ∃ r : Word, r.toNat = (base + half + corr) % cycle ∧
          exec (.tdGetCrankAngle m) s = .next { s with iface := ⟨0, r, 1⟩ }
    else if m.toNat ≤ 4 then
      exec (.tdGetCrankAngle m) s = .next { s with sticky := s.sticky ||| 0x40, iface := ⟨10, 0, 0⟩ }
    else exec (.tdGetCrankAngle m) s = .next { s with sticky := s.sticky ||| 0x20, iface := ⟨11, 0, 0⟩ }

/-! ## The event scheduler -/

/-- R210, R220: SCH_INIT, its encoding and its result: every channel OFF with its targets kept, one END for each RUNNING
channel in ascending order, the first CFG_FUEL_CH fuel and CFG_IGN_CH ignition channels enabled (none of a kind above
8), both compares disarmed with COMPARE kept; and, where OUT was asserted on RUNNING channels only, OUT = 0. -/
def Obligations.SchedulerInit : Prop :=
  (∀ opa opb : Word, decode ⟨0x20, opa, opb⟩ = .ok .schInit) ∧
  ∀ s : State,
    let f := s.cfg.fuelCh.toNat
    let g := s.cfg.ignCh.toNat
    let bad := 8 < f ∨ 8 < g
    ∃ t, exec .schInit s = .next t ∧
      t = { s with
        sched := t.sched
        sticky := if bad then s.sticky ||| 0x10 else s.sticky
        iface := ⟨if bad then 7 else 0, 0, 0⟩ } ∧
      (∀ ch : Chan, t.chan ch = { s.chan ch with status := .off } ∧
        t.output ch = (s.output ch && (s.chan ch).status != .running) ∧
        (t.chanEnabled ch = true ↔ (ch.val < 8 ∧ f ≤ 8 ∧ ch.val < f) ∨ (8 ≤ ch.val ∧ g ≤ 8 ∧ ch.val < 8 + g))) ∧
      (∀ p : Periph, t.timer p = ⟨(s.timer p).compare, false⟩) ∧
      t.sched.trace = s.sched.trace ++
        ((List.finRange 16).filter fun ch => (s.chan ch).status = .running).map (fun ch => ⟨s.now, ch, .stop⟩) ∧
      ((∀ ch : Chan, s.output ch = true → (s.chan ch).status = .running) → t.sched.out = 0)

/-- R94, R221, R280, R284: SCH_SCHEDULE turned away: ILLEGAL above channel 15, CHANNEL_DISABLED before RANGE, and none of
them changes anything else. -/
def Obligations.ScheduleTurnedAway : Prop :=
  ∀ (ch : Byte) (d u : Word) (s : State),
    (15 < ch.toNat → exec (.schSchedule ch d u) s =
      .next { s with sticky := s.sticky ||| 0x20, iface := ⟨11, 0, 0⟩ }) ∧
    ∀ c : Chan, c.val = ch.toNat →
      (s.sched.enabled.getLsbD c.val = false → exec (.schSchedule ch d u) s = .next { s with iface := ⟨8, 0, 0⟩ }) ∧
      (s.sched.enabled.getLsbD c.val = true → 2 ^ 31 ≤ d.toNat ∨ 2 ^ 31 ≤ u.toNat →
        exec (.schSchedule ch d u) s = .next { s with iface := ⟨9, 0, 0⟩ })

/-- R211, R214, R221: a request for an OFF channel with a delay arms it: PENDING with the absolute targets; no output, no
callback, no other channel and no other peripheral changes. -/
def Obligations.ScheduleArmsIdleChannel : Prop :=
  ∀ (c : Chan) (d u : Word) (s : State),
    s.chanEnabled c = true → (s.chan c).status = .off → 0 < d.toNat → d.toNat < 2 ^ 31 → u.toNat < 2 ^ 31 →
    ∃ t, exec (.schSchedule (BitVec.ofNat 8 c.val) d u) s = .next t ∧
      t = { s with
        sched := { s.sched with channels := t.sched.channels, timers := t.sched.timers }, iface := ⟨0, 0, 0⟩ } ∧
      t.chan c = ⟨.pending, s.now + d, s.now + d + u, u⟩ ∧
      (∀ c' : Chan, c' ≠ c → t.chan c' = s.chan c') ∧ ∀ p : Periph, p ≠ c.periph → t.timer p = s.timer p

/-- R222: a request for a PENDING channel replaces its window when it starts strictly earlier, else moves the end when it
ends later, else changes nothing of the channel; no callback is made. What the re-arbitration does to COMPARE is
CompareAtNearestTarget's (log entry 8). -/
def Obligations.SchedulePendingChannel : Prop :=
  ∀ (c : Chan) (d u : Word) (s : State),
    let old := s.chan c
    s.chanEnabled c = true → old.status = .pending → old.startTarget ≠ s.now →
    0 < d.toNat → d.toNat < 2 ^ 31 → u.toNat < 2 ^ 31 →
    ∃ t, exec (.schSchedule (BitVec.ofNat 8 c.val) d u) s = .next t ∧
      t = { s with
        sched := { s.sched with channels := t.sched.channels, timers := t.sched.timers }, iface := ⟨0, 0, 0⟩ } ∧
      t.chan c =
        (if d.toNat < (old.startTarget - s.now).toNat then ⟨.pending, s.now + d, s.now + d + u, u⟩
        else if (old.endTarget - s.now).toNat < d.toNat + u.toNat then
          { old with endTarget := s.now + d + u, duration := s.now + d + u - old.startTarget }
        else old) ∧
      (∀ c' : Chan, c' ≠ c → t.chan c' = s.chan c') ∧ ∀ p : Periph, p ≠ c.periph → t.timer p = s.timer p

/-- R223: a request for a RUNNING channel moves its end when the new end is later, whatever the delay, and changes nothing
else of any channel or output: the start is not undone and the pulse is not cut. What the re-arbitration does to COMPARE is
CompareAtNearestTarget's (log entry 8). -/
def Obligations.ScheduleRunningChannel : Prop :=
  ∀ (c : Chan) (d u : Word) (s : State),
    let old := s.chan c
    s.chanEnabled c = true → old.status = .running → d.toNat < 2 ^ 31 → u.toNat < 2 ^ 31 →
    ∃ t, exec (.schSchedule (BitVec.ofNat 8 c.val) d u) s = .next t ∧
      t = { s with
        sched := { s.sched with channels := t.sched.channels, timers := t.sched.timers }, iface := ⟨0, 0, 0⟩ } ∧
      t.chan c =
        (if (old.endTarget - s.now).toNat < d.toNat + u.toNat then
          { old with endTarget := s.now + d + u, duration := s.now + d + u - old.startTarget }
        else old) ∧
      (∀ c' : Chan, c' ≠ c → t.chan c' = s.chan c') ∧ ∀ p : Periph, p ≠ c.periph → t.timer p = s.timer p

/-- R224, R231: a request with delay 0 for an OFF channel, or one that replaces a pending start, fires the start at once:
OVERRUN, START recorded, the output asserted; a pulse of duration 0 also ends at once. -/
def Obligations.ScheduleMissedCompare : Prop :=
  ∀ (c : Chan) (u : Word) (s : State),
    s.chanEnabled c = true → u.toNat < 2 ^ 31 →
    (s.chan c).status = .off ∨ ((s.chan c).status = .pending ∧ (s.chan c).startTarget ≠ s.now) →
    ∃ t, exec (.schSchedule (BitVec.ofNat 8 c.val) 0 u) s = .next t ∧
      t = { s with sched := t.sched, sticky := s.sticky ||| 0x8, iface := ⟨5, 0, 0⟩ } ∧
      t.sched.enabled = s.sched.enabled ∧
      t.chan c = ⟨if u = 0 then .off else .running, s.now, s.now + u, u⟩ ∧
      t.output c = (u != 0) ∧
      t.sched.trace = s.sched.trace ++
        (if u = 0 then [⟨s.now, c, .start⟩, ⟨s.now, c, .stop⟩] else [⟨s.now, c, .start⟩]) ∧
      (∀ c' : Chan, c' ≠ c → t.chan c' = s.chan c' ∧ t.output c' = s.output c') ∧
      ∀ p : Periph, p ≠ c.periph → t.timer p = s.timer p

/-- R225, R236(e): SCH_CANCEL sends a channel OFF at once, enabled or not: a RUNNING one with END and its output cleared, a
PENDING or OFF one with no callback; targets and duration kept; a second cancellation changes nothing. What the re-arbitration does to COMPARE is
CompareAtNearestTarget's (log entry 8). -/
def Obligations.CancelChannel : Prop :=
  ∀ (c : Chan) (s : State),
    ∃ t, exec (.schCancel (BitVec.ofNat 8 c.val)) s = .next t ∧
      exec (.schCancel (BitVec.ofNat 8 c.val)) t = .next t ∧
      t = { s with sched := t.sched, iface := ⟨0, 0, 0⟩ } ∧
      t.sched.enabled = s.sched.enabled ∧
      t.chan c = { s.chan c with status := .off } ∧
      t.output c = (s.output c && (s.chan c).status != .running) ∧
      t.sched.trace = s.sched.trace ++ (if (s.chan c).status = .running then [⟨s.now, c, .stop⟩] else []) ∧
      (∀ c' : Chan, c' ≠ c → t.chan c' = s.chan c' ∧ t.output c' = s.output c') ∧
      ∀ p : Periph, p ≠ c.periph → t.timer p = s.timer p

/-- R226: SCH_STATUS, its encoding and its result for every IDX. -/
def Obligations.ChannelStatus : Prop :=
  ∀ (ch : Byte) (s : State),
    (∀ opa opb : Word, ch.toNat ≤ 15 → decode ⟨0x23 ||| ch.zeroExtend 32 <<< 8, opa, opb⟩ = .ok (.schStatus ch)) ∧
    (15 < ch.toNat → exec (.schStatus ch) s = .next { s with sticky := s.sticky ||| 0x20, iface := ⟨11, 0, 0⟩ }) ∧
    ∀ c : Chan, c.val = ch.toNat →
      exec (.schStatus ch) s = .next { s with
        iface :=
          if (s.chan c).status = .off then ⟨0, 0, 0⟩
          else if (s.chan c).status = .pending then ⟨0, 1, (s.chan c).startTarget - s.now⟩
          else ⟨0, 2, (s.chan c).endTarget - s.now⟩ }

/-- R233, R234: after an accepted SCH_SCHEDULE and after every SCH_CANCEL the channel's peripheral is disarmed with COMPARE
kept when it has no pending or running channel, else armed at its nearest target, or 0xFFFF ahead of NOW when that is
farther. In two cases, while the nearest target of the peripheral is more than 0xFFFF away, this moves COMPARE where the spec's
words say that nothing changes: SCH_CANCEL of a channel already OFF (R225), and an accepted SCH_SCHEDULE that moves neither
start nor end (R221's corner case, R223). There the statement is the model's choice, log entry 8, which follows the
pseudocode of R221, R225 and R233. -/
def Obligations.CompareAtNearestTarget : Prop :=
  ∀ (c : Chan) (d u : Word) (s : State) (i : Instr),
    i = .schCancel (BitVec.ofNat 8 c.val) ∨
      (i = .schSchedule (BitVec.ofNat 8 c.val) d u ∧ s.chanEnabled c = true ∧ d.toNat < 2 ^ 31 ∧ u.toNat < 2 ^ 31) →
    ∃ t, exec i s = .next t ∧
      ((∀ ch : Chan, ch.periph = c.periph → (t.chan ch).status = .off) →
        t.timer c.periph = ⟨(s.timer c.periph).compare, false⟩) ∧
      ∀ (ch : Chan) (x : Word), ch.periph = c.periph → (t.chan ch).target? = some x →
        (∀ (ch' : Chan) (x' : Word), ch'.periph = c.periph → (t.chan ch').target? = some x' →
          (x - s.now).toNat ≤ (x' - s.now).toNat) →
        t.timer c.periph = ⟨BitVec.ofNat 16 (s.now.toNat + min (x - s.now).toNat 0xFFFF), true⟩

/-- R230 to R235, R236(b) to (d): under the scheduler's invariant a time step fires exactly the channels whose target is
the new NOW, each once, in ascending order on each peripheral and the peripherals in PERIPH_ORDER (a field of State, log
entry 3), and touches no other channel, no command register and nothing outside the scheduler but STICKY.OVERRUN. A
peripheral that is disarmed, or whose compare is not the new NOW's low half, keeps its registers; on a match it is
disarmed with COMPARE kept when none of its channels waits any more, else armed at the nearest target, or 0xFFFF ahead of
the new NOW when that is farther. -/
def Obligations.TimeStepFiresExactlyDueChannels : Prop :=
  ∀ (s : State) (rest : List Operation), s.SchedInv → s.inputs = .timeStep :: rest →
    let n := s.now + 1
    let starts := fun ch : Chan => (s.chan ch).status = .pending ∧ (s.chan ch).startTarget = n
    let ends := fun ch : Chan => (s.chan ch).status = .running ∧ (s.chan ch).endTarget = n
    let order : List Chan :=
      match s.periphOrder with
      | .zeroFirst => [0, 1, 2, 3, 4, 5, 6, 7, 8, 9, 10, 11, 12, 13, 14, 15]
      | .oneFirst => [8, 9, 10, 11, 12, 13, 14, 15, 0, 1, 2, 3, 4, 5, 6, 7]
    ∃ t, step s = .next t ∧
      t = { s with now := n, inputs := rest, sched := t.sched, sticky := t.sticky } ∧
      t.sched.enabled = s.sched.enabled ∧
      (∀ ch : Chan, t.chan ch = { s.chan ch with
        status :=
          if starts ch then (if (s.chan ch).endTarget = n then .off else .running)
          else if ends ch then .off else (s.chan ch).status }) ∧
      (∀ ch : Chan, t.output ch =
        (if starts ch then (s.chan ch).endTarget != n else if ends ch then false else s.output ch)) ∧
      t.sched.trace = s.sched.trace ++ order.flatMap (fun ch =>
        if starts ch then
          ⟨n, ch, .start⟩ :: (if (s.chan ch).endTarget = n then [⟨n, ch, .stop⟩] else [])
        else if ends ch then [⟨n, ch, .stop⟩] else []) ∧
      ((∃ ch, starts ch ∧ (s.chan ch).endTarget = n) → t.sticky = s.sticky ||| 0x8) ∧
      ((¬ ∃ ch, starts ch ∧ (s.chan ch).endTarget = n) → t.sticky = s.sticky) ∧
      ∀ p : Periph,
        if (s.timer p).armed = true ∧ (s.timer p).compare.toNat = n.toNat % 2 ^ 16 then
          ((∀ ch : Chan, ch.periph = p → (t.chan ch).status = .off) → t.timer p = ⟨(s.timer p).compare, false⟩) ∧
          ∀ (ch : Chan) (x : Word), ch.periph = p → (t.chan ch).target? = some x →
            (∀ (ch' : Chan) (x' : Word), ch'.periph = p → (t.chan ch').target? = some x' →
              (x - n).toNat ≤ (x' - n).toNat) →
            t.timer p = ⟨BitVec.ofNat 16 (n.toNat + min (x - n).toNat 0xFFFF), true⟩
        else t.timer p = s.timer p

/-! ## Configuration and diagnostics -/

/-- R251, R252: CFG_WRITE, its encoding and its result for every register number: RANGE for a number that is not RW and for
a value that does not fit, which store nothing; else the register reads as the value, every other register as before but
for CONFIGURED, which the decoder's registers clear. -/
def Obligations.ConfigWrite : Prop :=
  ∀ (reg : Byte) (v opb : Word) (s : State),
    let n := reg.toNat
    let width := if n = 0x20 ∨ 0x28 ≤ n ∧ n ≤ 0x2A then 8 else if n = 0x23 ∨ n = 0x24 then 32 else 16
    decode ⟨0x09 ||| reg.zeroExtend 32 <<< 8, v, opb⟩ = .ok (.cfgWrite reg v) ∧
    if ¬ ((0x20 ≤ n ∧ n ≤ 0x2A) ∨ (0x40 ≤ n ∧ n ≤ 0x7F)) then
      exec (.cfgWrite reg v) s = .next { s with iface := ⟨9, 0, 0⟩ }
    else if 2 ^ width ≤ v.toNat then exec (.cfgWrite reg v) s = .next { s with iface := ⟨9, 0, 0⟩ }
    else
      ∃ t, exec (.cfgWrite reg v) s = .next t ∧
        t = { s with
          cfg := t.cfg
          dec := { s.dec with configured := s.dec.configured && (n = 0x29 || n = 0x2A) }
          iface := ⟨0, 0, 0⟩ } ∧
        exec (.regRead reg false) t = .next { t with iface := ⟨0, v, 0⟩ } ∧
        ∀ other : Byte, 0x20 ≤ other.toNat → other ≠ reg → ∃ r : Iface,
          exec (.regRead other false) s = .next { s with iface := r } ∧
          exec (.regRead other false) t = .next { t with iface := r }

/-- R60, R61, R254: REG_READ, its encoding and its result for every register number of both banks: the register map with
TD_STATUS packed as R61 says; RANGE for a reserved number and above 0x17 in the snapshot bank; no side effect. -/
def Obligations.RegisterRead : Prop :=
  ∀ (s : State),
    let d := s.dec
    let g := s.cfg
    let returns := fun (bank : Bool) (n : Nat) (st : Byte) (v : Nat) => v < 2 ^ 32 ∧
      exec (.regRead (BitVec.ofNat 8 n) bank) s = .next { s with iface := ⟨st, BitVec.ofNat 32 v, 0⟩ }
    (∀ (reg : Byte) (opa opb : Word),
      decode ⟨0x08 ||| reg.zeroExtend 32 <<< 8, opa, opb⟩ = .ok (.regRead reg (opa.getLsbD 0))) ∧
    (∀ i : Fin 24, returns true i.val 0 s.snap[i].toNat) ∧
    (∀ n, 0x18 ≤ n → n ≤ 0xFF → returns true n 9 0) ∧
    (∀ n, (0x18 ≤ n ∧ n ≤ 0x1F) ∨ (0x2B ≤ n ∧ n ≤ 0x3F) ∨ (0xC6 ≤ n ∧ n ≤ 0xFF) → returns false n 9 0) ∧
    returns false 0x00 0 (d.hasSync.toNat + 2 * d.revFlag.toNat + 4 * d.graceActive.toNat + 8 * d.configured.toNat
      + 16 * s.log.full.toNat + 32 * d.teethSeen.toNat + 128 * d.revSeen.toNat + 512 * d.regValid.toNat
      + 1024 * d.secSeen.toNat) ∧
    returns false 0x01 0 d.toothCount.toNat ∧ returns false 0x02 0 d.validTeeth.toNat ∧
    returns false 0x03 0 d.syncLossCount.toNat ∧ returns false 0x04 0 d.graceTeeth.toNat ∧
    returns false 0x05 0 d.toothLastTime.toNat ∧ returns false 0x06 0 d.toothLastMinusOneTime.toNat ∧
    returns false 0x07 0 d.toothGap.toNat ∧ returns false 0x08 0 d.toothOneTime.toNat ∧
    returns false 0x09 0 d.toothOneMinusOneTime.toNat ∧ returns false 0x0A 0 d.regGap.toNat ∧
    returns false 0x0B 0 d.regSpan.toNat ∧ returns false 0x0C 0 d.rpmReg.toNat ∧
    returns false 0x0D 0 d.secLastTime.toNat ∧ returns false 0x0E 0 d.toothAngle.toNat ∧
    returns false 0x0F 0 s.now.toNat ∧
    (∀ m : Fin 3, returns false (0x10 + 2 * m.val) 0 d.tpd16[m].toNat ∧
      returns false (0x11 + 2 * m.val) 0 d.dpu32768[m].toNat) ∧
    returns false 0x16 0 s.log.wr.toNat ∧ returns false 0x17 0 s.sticky.toNat ∧
    returns false 0x20 0 g.pattern.toNat ∧ returns false 0x21 0 g.teeth.toNat ∧ returns false 0x22 0 g.missing.toNat ∧
    returns false 0x23 0 g.debounce.toNat ∧ returns false 0x24 0 g.maxStall.toNat ∧
    returns false 0x25 0 g.syncConfirm.toNat ∧ returns false 0x26 0 g.crankRpm.toNat ∧
    returns false 0x27 0 g.cycle.toNat ∧ returns false 0x28 0 g.flags.toNat ∧ returns false 0x29 0 g.fuelCh.toNat ∧
    returns false 0x2A 0 g.ignCh.toNat ∧ (∀ i : Fin 64, returns false (0x40 + i.val) 0 g.table[i].toNat) ∧
    (∀ ch : Chan,
      returns false (0x80 + 4 * ch.val) 0
        (match (s.chan ch).status with
        | .off => 0
        | .pending => 1
        | .running => 2) ∧
      returns false (0x81 + 4 * ch.val) 0 (s.chan ch).startTarget.toNat ∧
      returns false (0x82 + 4 * ch.val) 0 (s.chan ch).endTarget.toNat ∧
      returns false (0x83 + 4 * ch.val) 0 (s.chan ch).duration.toNat) ∧
    (∀ p : Periph, returns false (0xC0 + 2 * p.val) 0 (s.timer p).compare.toNat ∧
      returns false (0xC1 + 2 * p.val) 0 (s.timer p).armed.toNat) ∧
    returns false 0xC4 0 s.sched.out.toNat ∧ returns false 0xC5 0 s.sched.enabled.toNat

/-- R257, R258: TD_SNAPSHOT, its encoding and its result: every word of the bank is what a live read of its register gave
at that instant, and nothing else changes but the status. -/
def Obligations.Snapshot : Prop :=
  (∀ opa opb : Word, decode ⟨0x07, opa, opb⟩ = .ok .tdSnapshot) ∧
  ∀ s : State, ∃ snap, exec .tdSnapshot s = .next { s with snap := snap, iface := ⟨0, 0, 0⟩ } ∧
    ∀ i : Fin 24, exec (.regRead (BitVec.ofNat 8 i.val) false) s = .next { s with iface := ⟨0, snap[i], 0⟩ }

/-- R259: STICKY_CLEAR, its encoding and its result, bit by bit. -/
def Obligations.StickyClear : Prop :=
  ∀ (opa opb : Word) (s : State),
    decode ⟨0x0A, opa, opb⟩ = .ok (.stickyClear (opa.truncate 7)) ∧
    ∃ v : BitVec 7, exec (.stickyClear (opa.truncate 7)) s = .next { s with sticky := v, iface := ⟨0, 0, 0⟩ } ∧
      ∀ j : Fin 7, v.getLsbD j.val = (s.sticky.getLsbD j.val && !opa.getLsbD j.val)

/-- R260: LOG_READ, its encoding and its result for every index. -/
def Obligations.LogRead : Prop :=
  ∀ (i : Byte) (opa opb : Word) (s : State),
    decode ⟨0x0B ||| i.zeroExtend 32 <<< 8, opa, opb⟩ = .ok (.logRead i) ∧
    exec (.logRead i) s = .next { s with
      iface := if h : i.toNat < 64 then ⟨0, s.log.buf[i.toNat]'h, 0⟩ else ⟨9, 0, 0⟩ }

/-- R261: LOG_CLEAR, its encoding and its result: the entries are kept. -/
def Obligations.LogClear : Prop :=
  (∀ opa opb : Word, decode ⟨0x0C, opa, opb⟩ = .ok .logClear) ∧
  ∀ s : State, exec .logClear s = .next { s with log := ⟨s.log.buf, 0, false⟩, iface := ⟨0, 0, 0⟩ }

/-- R264: NOP, its encoding and its result. -/
def Obligations.NopReturnsOk : Prop :=
  (∀ opa opb : Word, decode ⟨0x00, opa, opb⟩ = .ok .nop) ∧ ∀ s : State, exec .nop s = .next { s with iface := ⟨0, 0, 0⟩ }

/-! ## Rules of the whole machine -/

/-- R75: the queries and NOP change STATUS, RES0, RES1 and, for an illegal or refused form only, STICKY; repeating one
gives the same result and changes nothing more. -/
def Obligations.ReadOnlyCommands : Prop :=
  ∀ (i : Instr) (s : State),
    (match i with
    | .regRead _ _ | .logRead _ | .tdGetRpm | .tdGetCrankAngle _ | .cmAngleToTime _ _ | .cmTimeToAngle _ _
    | .cmIgnitionLimits _ | .schStatus _ | .nop => True
    | _ => False) →
    ∃ t, exec i s = .next t ∧ exec i t = .next t ∧
      t = { s with iface := t.iface, sticky := t.sticky } ∧
      t.sticky = s.sticky ||| (if t.iface.status = 10 then 0x40 else if t.iface.status = 11 then 0x20 else 0)

/-- R49: STICKY flags are set by commands and time steps and cleared by STICKY_CLEAR only. -/
def Obligations.StickyKeptUntilCleared : Prop :=
  (∀ (i : Instr) (s : State), (∀ mask, i ≠ .stickyClear mask) →
    ∃ t, exec i s = .next t ∧ ∀ j : Fin 7, s.sticky.getLsbD j.val = true → t.sticky.getLsbD j.val = true) ∧
  ∀ (s : State) (j : Fin 7), s.sticky.getLsbD j.val = true → s.timeStep.sticky.getLsbD j.val = true

/-- R23, R46, R48, R54, R79, R122: which commands write which part of the state: the configuration registers only
CFG_WRITE, the snapshot only TD_SNAPSHOT, SCH_EN only SCH_INIT, the scheduler only its own commands, the log only
TD_SETUP, TD_PRIMARY_EDGE and LOG_CLEAR, the scale pairs and RPM_REG only TD_SETUP, TD_PRIMARY_EDGE, TD_STALL_CHECK and
CM_SPEED_CALCS, CONFIGURED only TD_SETUP and CFG_WRITE; a time step writes none of these but the scheduler. -/
def Obligations.WritersOfTheState : Prop :=
  (∀ (i : Instr) (s : State), ∃ t, exec i s = .next t ∧
    ((∀ r v, i ≠ .cfgWrite r v) → t.cfg = s.cfg) ∧
    (i ≠ .tdSnapshot → t.snap = s.snap) ∧
    (i ≠ .schInit → t.sched.enabled = s.sched.enabled) ∧
    (i ≠ .schInit → (∀ c d u, i ≠ .schSchedule c d u) → (∀ c, i ≠ .schCancel c) → t.sched = s.sched) ∧
    (i ≠ .tdSetup → i ≠ .tdPrimaryEdge → i ≠ .logClear → t.log = s.log) ∧
    (i ≠ .tdSetup → i ≠ .tdPrimaryEdge → i ≠ .tdStallCheck → i ≠ .cmSpeedCalcs →
      t.dec.tpd16 = s.dec.tpd16 ∧ t.dec.dpu32768 = s.dec.dpu32768 ∧ t.dec.rpmReg = s.dec.rpmReg) ∧
    (i ≠ .tdSetup → (∀ r v, i ≠ .cfgWrite r v) → t.dec.configured = s.dec.configured)) ∧
  ∀ s : State, s.timeStep.cfg = s.cfg ∧ s.timeStep.snap = s.snap ∧ s.timeStep.log = s.log ∧ s.timeStep.dec = s.dec ∧
    s.timeStep.iface = s.iface ∧ s.timeStep.sched.enabled = s.sched.enabled

/-- R53, R213: callbacks are only ever added at the end of CALLBACK_TRACE, each with the NOW of its operation. -/
def Obligations.TraceOnlyGrows : Prop :=
  ∀ s : State, ∃ t l, step s = .next t ∧ t.sched.trace = s.sched.trace ++ l ∧ ∀ e ∈ l, e.time = t.now

/-- 42_event_scheduler.md's opening and R253: no scheduler operation reads decoder state: two states that agree on NOW,
the scheduler, CFG_FUEL_CH and CFG_IGN_CH (and on PERIPH_ORDER, a field of State, log entry 3) still agree on the
scheduler after any command or time step. -/
def Obligations.SchedulerIndependentOfDecoder : Prop :=
  ∀ s s' : State, s.now = s'.now → s.sched = s'.sched → s.cfg.fuelCh = s'.cfg.fuelCh → s.cfg.ignCh = s'.cfg.ignCh →
    s.periphOrder = s'.periphOrder →
    (∀ i : Instr, ∃ t t', exec i s = .next t ∧ exec i s' = .next t' ∧ t.sched = t'.sched) ∧
    s.timeStep.sched = s'.timeStep.sched

/-- R123, R127, R150, R151, R164, R173, R251, R253, R261, R262: the pseudocode of the commands that write the decoder, the
log or the configuration reads only NOW and those three: two states that agree on NOW, the decoder, the log and the
configuration still agree on them after any command, whatever the scheduler holds. -/
def Obligations.DecoderIndependentOfScheduler : Prop :=
  ∀ s s' : State, s.now = s'.now → s.dec = s'.dec → s.log = s'.log → s.cfg = s'.cfg →
    ∀ i : Instr, ∃ t t', exec i s = .next t ∧ exec i s' = .next t' ∧
      t.dec = t'.dec ∧ t.log = t'.log ∧ t.cfg = t'.cfg

/-! ## Invariants -/

/-- R214, R236, R237: every step keeps the scheduler's invariant. -/
def Obligations.StepKeepsSchedulerInvariant : Prop :=
  ∀ s t : State, s.SchedInv → step s = .next t → t.SchedInv

/-- R27, R28, R30, R34, R38, R39, R42, R45, R177, R179: every step keeps the decoder's invariant. -/
def Obligations.StepKeepsDecoderInvariant : Prop :=
  ∀ s t : State, s.DecInv → step s = .next t → t.DecInv

/-- R280: every step leaves a status code 0 to 11, and results 0 with every status but OK. -/
def Obligations.StepKeepsStatusInvariant : Prop :=
  ∀ s t : State, s.StatusInv → step s = .next t → t.StatusInv

/-- R310: reset has the three invariants, with either PERIPH_ORDER (a field of State, log entry 3). -/
def Obligations.ResetIsSafe : Prop :=
  ∀ order : Config.PeriphOrder, { State.reset with periphOrder := order }.Safe

/-- R74, R214, R236, R237, R280: whatever operations the agents issue, in any order, no run from reset leaves the three
invariants; in particular no output stays asserted on a channel that is not RUNNING. A run is the model's: the order of
operations is its input (log entry 1), a step on an empty order is idle (log entry 2), and PERIPH_ORDER is a field (log
entry 3). -/
def Obligations.EveryRunIsSafe : Prop :=
  ∀ s : State, Reachable s → s.Safe

/-! ## A byte-wide link -/

/-- R72, R90: on a byte-wide link byte k of a 32-bit word carries its bits 8k+7:8k, of CMD, OPA and OPB of a transaction, in
that order, and of RES0 and RES1 each; the order of the two results is not R72's and stays open (log entry 15). -/
def Obligations.WordsOnByteLink : Prop :=
  (∀ t : Transaction, t.toBytes.length = 12 ∧ ∀ k : Fin 4,
    (t.toBytes.map BitVec.toNat)[k.val]? = some (t.cmd.toNat / 2 ^ (8 * k.val) % 256) ∧
    (t.toBytes.map BitVec.toNat)[4 + k.val]? = some (t.opa.toNat / 2 ^ (8 * k.val) % 256) ∧
    (t.toBytes.map BitVec.toNat)[8 + k.val]? = some (t.opb.toNat / 2 ^ (8 * k.val) % 256)) ∧
  ∀ r : Iface, r.res0Bytes.length = 4 ∧ r.res1Bytes.length = 4 ∧ ∀ k : Fin 4,
    (r.res0Bytes.map BitVec.toNat)[k.val]? = some (r.res0.toNat / 2 ^ (8 * k.val) % 256) ∧
    (r.res1Bytes.map BitVec.toNat)[k.val]? = some (r.res1.toNat / 2 ^ (8 * k.val) % 256)

end Slice0Obligations
end

