-- ==== Sys2Proof/Laws/State.lean ====
section
/-! SUPPORT. The small lemmas of State: what each named update leaves in each field, true by rfl, so that no later proof
unfolds a record update; and the entries of the channels and timers after each scheduler update. -/

namespace Sys2Proof.Machine

/-! ### `State.ret` -/

@[simp] theorem State.ret_now (s : State) (st : StatusCode) (r0 r1 : Word) :
    (s.ret st r0 r1).now = s.now := rfl
@[simp] theorem State.ret_iface (s : State) (st : StatusCode) (r0 r1 : Word) :
    (s.ret st r0 r1).iface = ⟨st.code, r0, r1⟩ := rfl
@[simp] theorem State.ret_sticky (s : State) (st : StatusCode) (r0 r1 : Word) :
    (s.ret st r0 r1).sticky = s.sticky := rfl
@[simp] theorem State.ret_dec (s : State) (st : StatusCode) (r0 r1 : Word) :
    (s.ret st r0 r1).dec = s.dec := rfl
@[simp] theorem State.ret_log (s : State) (st : StatusCode) (r0 r1 : Word) :
    (s.ret st r0 r1).log = s.log := rfl
@[simp] theorem State.ret_snap (s : State) (st : StatusCode) (r0 r1 : Word) :
    (s.ret st r0 r1).snap = s.snap := rfl
@[simp] theorem State.ret_sched (s : State) (st : StatusCode) (r0 r1 : Word) :
    (s.ret st r0 r1).sched = s.sched := rfl
@[simp] theorem State.ret_cfg (s : State) (st : StatusCode) (r0 r1 : Word) :
    (s.ret st r0 r1).cfg = s.cfg := rfl
@[simp] theorem State.ret_inputs (s : State) (st : StatusCode) (r0 r1 : Word) :
    (s.ret st r0 r1).inputs = s.inputs := rfl
@[simp] theorem State.ret_periphOrder (s : State) (st : StatusCode) (r0 r1 : Word) :
    (s.ret st r0 r1).periphOrder = s.periphOrder := rfl

/-! ### `State.raise` -/

@[simp] theorem State.raise_now (s : State) (f : StickyFlag) :
    (s.raise f).now = s.now := rfl
@[simp] theorem State.raise_iface (s : State) (f : StickyFlag) :
    (s.raise f).iface = s.iface := rfl
@[simp] theorem State.raise_sticky (s : State) (f : StickyFlag) :
    (s.raise f).sticky = stickySet s.sticky f := rfl
@[simp] theorem State.raise_dec (s : State) (f : StickyFlag) :
    (s.raise f).dec = s.dec := rfl
@[simp] theorem State.raise_log (s : State) (f : StickyFlag) :
    (s.raise f).log = s.log := rfl
@[simp] theorem State.raise_snap (s : State) (f : StickyFlag) :
    (s.raise f).snap = s.snap := rfl
@[simp] theorem State.raise_sched (s : State) (f : StickyFlag) :
    (s.raise f).sched = s.sched := rfl
@[simp] theorem State.raise_cfg (s : State) (f : StickyFlag) :
    (s.raise f).cfg = s.cfg := rfl
@[simp] theorem State.raise_inputs (s : State) (f : StickyFlag) :
    (s.raise f).inputs = s.inputs := rfl
@[simp] theorem State.raise_periphOrder (s : State) (f : StickyFlag) :
    (s.raise f).periphOrder = s.periphOrder := rfl

/-! ### `State.illegal` -/

@[simp] theorem State.illegal_now (s : State) :
    s.illegal.now = s.now := rfl
@[simp] theorem State.illegal_iface (s : State) :
    s.illegal.iface = ⟨11, 0, 0⟩ := rfl
@[simp] theorem State.illegal_sticky (s : State) :
    s.illegal.sticky = stickySet s.sticky .illegal := rfl
@[simp] theorem State.illegal_dec (s : State) :
    s.illegal.dec = s.dec := rfl
@[simp] theorem State.illegal_log (s : State) :
    s.illegal.log = s.log := rfl
@[simp] theorem State.illegal_snap (s : State) :
    s.illegal.snap = s.snap := rfl
@[simp] theorem State.illegal_sched (s : State) :
    s.illegal.sched = s.sched := rfl
@[simp] theorem State.illegal_cfg (s : State) :
    s.illegal.cfg = s.cfg := rfl
@[simp] theorem State.illegal_inputs (s : State) :
    s.illegal.inputs = s.inputs := rfl
@[simp] theorem State.illegal_periphOrder (s : State) :
    s.illegal.periphOrder = s.periphOrder := rfl

/-! ### `State.refuse` -/

@[simp] theorem State.refuse_now (s : State) :
    s.refuse.now = s.now := rfl
@[simp] theorem State.refuse_iface (s : State) :
    s.refuse.iface = ⟨10, 0, 0⟩ := rfl
@[simp] theorem State.refuse_sticky (s : State) :
    s.refuse.sticky = stickySet s.sticky .refused := rfl
@[simp] theorem State.refuse_dec (s : State) :
    s.refuse.dec = s.dec := rfl
@[simp] theorem State.refuse_log (s : State) :
    s.refuse.log = s.log := rfl
@[simp] theorem State.refuse_snap (s : State) :
    s.refuse.snap = s.snap := rfl
@[simp] theorem State.refuse_sched (s : State) :
    s.refuse.sched = s.sched := rfl
@[simp] theorem State.refuse_cfg (s : State) :
    s.refuse.cfg = s.cfg := rfl
@[simp] theorem State.refuse_inputs (s : State) :
    s.refuse.inputs = s.inputs := rfl
@[simp] theorem State.refuse_periphOrder (s : State) :
    s.refuse.periphOrder = s.periphOrder := rfl

/-! ### `State.setChan` -/

@[simp] theorem State.setChan_now (s : State) (ch : Chan) (c : Channel) :
    (s.setChan ch c).now = s.now := rfl
@[simp] theorem State.setChan_iface (s : State) (ch : Chan) (c : Channel) :
    (s.setChan ch c).iface = s.iface := rfl
@[simp] theorem State.setChan_sticky (s : State) (ch : Chan) (c : Channel) :
    (s.setChan ch c).sticky = s.sticky := rfl
@[simp] theorem State.setChan_dec (s : State) (ch : Chan) (c : Channel) :
    (s.setChan ch c).dec = s.dec := rfl
@[simp] theorem State.setChan_log (s : State) (ch : Chan) (c : Channel) :
    (s.setChan ch c).log = s.log := rfl
@[simp] theorem State.setChan_snap (s : State) (ch : Chan) (c : Channel) :
    (s.setChan ch c).snap = s.snap := rfl
@[simp] theorem State.setChan_sched (s : State) (ch : Chan) (c : Channel) :
    (s.setChan ch c).sched = { s.sched with channels := s.sched.channels.set ch c } := rfl
@[simp] theorem State.setChan_cfg (s : State) (ch : Chan) (c : Channel) :
    (s.setChan ch c).cfg = s.cfg := rfl
@[simp] theorem State.setChan_inputs (s : State) (ch : Chan) (c : Channel) :
    (s.setChan ch c).inputs = s.inputs := rfl
@[simp] theorem State.setChan_periphOrder (s : State) (ch : Chan) (c : Channel) :
    (s.setChan ch c).periphOrder = s.periphOrder := rfl

/-! ### `State.setTimer` -/

@[simp] theorem State.setTimer_now (s : State) (p : Periph) (t : Timer) :
    (s.setTimer p t).now = s.now := rfl
@[simp] theorem State.setTimer_iface (s : State) (p : Periph) (t : Timer) :
    (s.setTimer p t).iface = s.iface := rfl
@[simp] theorem State.setTimer_sticky (s : State) (p : Periph) (t : Timer) :
    (s.setTimer p t).sticky = s.sticky := rfl
@[simp] theorem State.setTimer_dec (s : State) (p : Periph) (t : Timer) :
    (s.setTimer p t).dec = s.dec := rfl
@[simp] theorem State.setTimer_log (s : State) (p : Periph) (t : Timer) :
    (s.setTimer p t).log = s.log := rfl
@[simp] theorem State.setTimer_snap (s : State) (p : Periph) (t : Timer) :
    (s.setTimer p t).snap = s.snap := rfl
@[simp] theorem State.setTimer_sched (s : State) (p : Periph) (t : Timer) :
    (s.setTimer p t).sched = { s.sched with timers := s.sched.timers.set p t } := rfl
@[simp] theorem State.setTimer_cfg (s : State) (p : Periph) (t : Timer) :
    (s.setTimer p t).cfg = s.cfg := rfl
@[simp] theorem State.setTimer_inputs (s : State) (p : Periph) (t : Timer) :
    (s.setTimer p t).inputs = s.inputs := rfl
@[simp] theorem State.setTimer_periphOrder (s : State) (p : Periph) (t : Timer) :
    (s.setTimer p t).periphOrder = s.periphOrder := rfl

/-! ### `State.setEnabled` -/

@[simp] theorem State.setEnabled_now (s : State) (m : BitVec 16) :
    (s.setEnabled m).now = s.now := rfl
@[simp] theorem State.setEnabled_iface (s : State) (m : BitVec 16) :
    (s.setEnabled m).iface = s.iface := rfl
@[simp] theorem State.setEnabled_sticky (s : State) (m : BitVec 16) :
    (s.setEnabled m).sticky = s.sticky := rfl
@[simp] theorem State.setEnabled_dec (s : State) (m : BitVec 16) :
    (s.setEnabled m).dec = s.dec := rfl
@[simp] theorem State.setEnabled_log (s : State) (m : BitVec 16) :
    (s.setEnabled m).log = s.log := rfl
@[simp] theorem State.setEnabled_snap (s : State) (m : BitVec 16) :
    (s.setEnabled m).snap = s.snap := rfl
@[simp] theorem State.setEnabled_sched (s : State) (m : BitVec 16) :
    (s.setEnabled m).sched = { s.sched with enabled := m } := rfl
@[simp] theorem State.setEnabled_cfg (s : State) (m : BitVec 16) :
    (s.setEnabled m).cfg = s.cfg := rfl
@[simp] theorem State.setEnabled_inputs (s : State) (m : BitVec 16) :
    (s.setEnabled m).inputs = s.inputs := rfl
@[simp] theorem State.setEnabled_periphOrder (s : State) (m : BitVec 16) :
    (s.setEnabled m).periphOrder = s.periphOrder := rfl

/-! ### `State.callback` -/

@[simp] theorem State.callback_now (s : State) (ch : Chan) (e : Edge) :
    (s.callback ch e).now = s.now := rfl
@[simp] theorem State.callback_iface (s : State) (ch : Chan) (e : Edge) :
    (s.callback ch e).iface = s.iface := rfl
@[simp] theorem State.callback_sticky (s : State) (ch : Chan) (e : Edge) :
    (s.callback ch e).sticky = s.sticky := rfl
@[simp] theorem State.callback_dec (s : State) (ch : Chan) (e : Edge) :
    (s.callback ch e).dec = s.dec := rfl
@[simp] theorem State.callback_log (s : State) (ch : Chan) (e : Edge) :
    (s.callback ch e).log = s.log := rfl
@[simp] theorem State.callback_snap (s : State) (ch : Chan) (e : Edge) :
    (s.callback ch e).snap = s.snap := rfl
@[simp] theorem State.callback_sched (s : State) (ch : Chan) (e : Edge) :
    (s.callback ch e).sched = { s.sched with out := setBit s.sched.out ch (e == .start), trace := s.sched.trace ++ [⟨s.now, ch, e⟩] } := rfl
@[simp] theorem State.callback_cfg (s : State) (ch : Chan) (e : Edge) :
    (s.callback ch e).cfg = s.cfg := rfl
@[simp] theorem State.callback_inputs (s : State) (ch : Chan) (e : Edge) :
    (s.callback ch e).inputs = s.inputs := rfl
@[simp] theorem State.callback_periphOrder (s : State) (ch : Chan) (e : Edge) :
    (s.callback ch e).periphOrder = s.periphOrder := rfl

/-! ### `State.issue` -/

@[simp] theorem State.issue_now (s : State) (op : Operation) :
    (s.issue op).now = s.now := rfl
@[simp] theorem State.issue_iface (s : State) (op : Operation) :
    (s.issue op).iface = s.iface := rfl
@[simp] theorem State.issue_sticky (s : State) (op : Operation) :
    (s.issue op).sticky = s.sticky := rfl
@[simp] theorem State.issue_dec (s : State) (op : Operation) :
    (s.issue op).dec = s.dec := rfl
@[simp] theorem State.issue_log (s : State) (op : Operation) :
    (s.issue op).log = s.log := rfl
@[simp] theorem State.issue_snap (s : State) (op : Operation) :
    (s.issue op).snap = s.snap := rfl
@[simp] theorem State.issue_sched (s : State) (op : Operation) :
    (s.issue op).sched = s.sched := rfl
@[simp] theorem State.issue_cfg (s : State) (op : Operation) :
    (s.issue op).cfg = s.cfg := rfl
@[simp] theorem State.issue_inputs (s : State) (op : Operation) :
    (s.issue op).inputs = s.inputs ++ [op] := rfl
@[simp] theorem State.issue_periphOrder (s : State) (op : Operation) :
    (s.issue op).periphOrder = s.periphOrder := rfl

/-! ### `State.withFetchWord` -/

@[simp] theorem State.withFetchWord_now (s : State) (nbits w : Nat) :
    (s.withFetchWord nbits w).now = s.now := rfl
@[simp] theorem State.withFetchWord_iface (s : State) (nbits w : Nat) :
    (s.withFetchWord nbits w).iface = s.iface := rfl
@[simp] theorem State.withFetchWord_sticky (s : State) (nbits w : Nat) :
    (s.withFetchWord nbits w).sticky = s.sticky := rfl
@[simp] theorem State.withFetchWord_dec (s : State) (nbits w : Nat) :
    (s.withFetchWord nbits w).dec = s.dec := rfl
@[simp] theorem State.withFetchWord_log (s : State) (nbits w : Nat) :
    (s.withFetchWord nbits w).log = s.log := rfl
@[simp] theorem State.withFetchWord_snap (s : State) (nbits w : Nat) :
    (s.withFetchWord nbits w).snap = s.snap := rfl
@[simp] theorem State.withFetchWord_sched (s : State) (nbits w : Nat) :
    (s.withFetchWord nbits w).sched = s.sched := rfl
@[simp] theorem State.withFetchWord_cfg (s : State) (nbits w : Nat) :
    (s.withFetchWord nbits w).cfg = s.cfg := rfl
@[simp] theorem State.withFetchWord_inputs (s : State) (nbits w : Nat) :
    (s.withFetchWord nbits w).inputs = .command .host (tableTransaction nbits w) :: s.inputs := rfl
@[simp] theorem State.withFetchWord_periphOrder (s : State) (nbits w : Nat) :
    (s.withFetchWord nbits w).periphOrder = s.periphOrder := rfl

/-! ### Channels and timers after an update -/

@[simp] theorem State.chan_ret (s : State) (st : StatusCode) (r0 r1 : Word) (ch : Chan) :
    (s.ret st r0 r1).chan ch = s.chan ch := rfl
@[simp] theorem State.timer_ret (s : State) (st : StatusCode) (r0 r1 : Word) (p : Periph) :
    (s.ret st r0 r1).timer p = s.timer p := rfl
@[simp] theorem State.chan_raise (s : State) (f : StickyFlag) (ch : Chan) : (s.raise f).chan ch = s.chan ch := rfl
@[simp] theorem State.timer_raise (s : State) (f : StickyFlag) (p : Periph) : (s.raise f).timer p = s.timer p := rfl
@[simp] theorem State.chan_setTimer (s : State) (p : Periph) (t : Timer) (ch : Chan) :
    (s.setTimer p t).chan ch = s.chan ch := rfl
@[simp] theorem State.timer_setChan (s : State) (ch : Chan) (c : Channel) (p : Periph) :
    (s.setChan ch c).timer p = s.timer p := rfl
@[simp] theorem State.chan_setEnabled (s : State) (m : BitVec 16) (ch : Chan) :
    (s.setEnabled m).chan ch = s.chan ch := rfl
@[simp] theorem State.timer_setEnabled (s : State) (m : BitVec 16) (p : Periph) :
    (s.setEnabled m).timer p = s.timer p := rfl
@[simp] theorem State.chan_callback (s : State) (ch : Chan) (e : Edge) (ch' : Chan) :
    (s.callback ch e).chan ch' = s.chan ch' := rfl
@[simp] theorem State.timer_callback (s : State) (ch : Chan) (e : Edge) (p : Periph) :
    (s.callback ch e).timer p = s.timer p := rfl

theorem State.chan_setChan (s : State) (ch : Chan) (c : Channel) (ch' : Chan) :
    (s.setChan ch c).chan ch' = if ch' = ch then c else s.chan ch' := by
  by_cases h : ch' = ch
  · subst h; simp [State.chan, State.setChan]
  · have h' : ch.val ≠ ch'.val := fun e => h (Fin.ext e.symm)
    simp [State.chan, State.setChan, h, h']

@[simp] theorem State.chan_setChan_self (s : State) (ch : Chan) (c : Channel) : (s.setChan ch c).chan ch = c := by
  simp [State.chan_setChan]

theorem State.chan_setChan_ne (s : State) {ch ch' : Chan} (c : Channel) (h : ch' ≠ ch) :
    (s.setChan ch c).chan ch' = s.chan ch' := by
  simp [State.chan_setChan, h]

theorem State.timer_setTimer (s : State) (p : Periph) (t : Timer) (p' : Periph) :
    (s.setTimer p t).timer p' = if p' = p then t else s.timer p' := by
  by_cases h : p' = p
  · subst h; simp [State.timer, State.setTimer]
  · have h' : p.val ≠ p'.val := fun e => h (Fin.ext e.symm)
    simp [State.timer, State.setTimer, h, h']

@[simp] theorem State.timer_setTimer_self (s : State) (p : Periph) (t : Timer) : (s.setTimer p t).timer p = t := by
  simp [State.timer_setTimer]

/-! ### OUT and SCH_EN bit by bit -/

/-- A bit of OUT after one bit is written. -/
theorem setBit_getLsbD (v : BitVec 16) (i j : Chan) (b : Bool) :
    (setBit v i b).getLsbD j.val = if j = i then b else v.getLsbD j.val := by
  have hj := j.isLt
  have hij : j = i ↔ j.val = i.val := Fin.ext_iff
  cases b <;> by_cases h : j.val = i.val <;>
    simp [setBit, hij, h] <;>
    omega

@[simp] theorem State.output_ret (s : State) (st : StatusCode) (r0 r1 : Word) (ch : Chan) :
    (s.ret st r0 r1).output ch = s.output ch := rfl
@[simp] theorem State.output_raise (s : State) (f : StickyFlag) (ch : Chan) : (s.raise f).output ch = s.output ch := rfl
@[simp] theorem State.output_setTimer (s : State) (p : Periph) (t : Timer) (ch : Chan) :
    (s.setTimer p t).output ch = s.output ch := rfl
@[simp] theorem State.output_setChan (s : State) (ch : Chan) (c : Channel) (ch' : Chan) :
    (s.setChan ch c).output ch' = s.output ch' := rfl
@[simp] theorem State.output_setEnabled (s : State) (m : BitVec 16) (ch : Chan) :
    (s.setEnabled m).output ch = s.output ch := rfl
@[simp] theorem State.chanEnabled_setEnabled (s : State) (m : BitVec 16) (ch : Chan) :
    (s.setEnabled m).chanEnabled ch = m.getLsbD ch.val := rfl
@[simp] theorem State.chanEnabled_ret (s : State) (st : StatusCode) (r0 r1 : Word) (ch : Chan) :
    (s.ret st r0 r1).chanEnabled ch = s.chanEnabled ch := rfl
@[simp] theorem State.chanEnabled_raise (s : State) (f : StickyFlag) (ch : Chan) :
    (s.raise f).chanEnabled ch = s.chanEnabled ch := rfl
@[simp] theorem State.chanEnabled_setTimer (s : State) (p : Periph) (t : Timer) (ch : Chan) :
    (s.setTimer p t).chanEnabled ch = s.chanEnabled ch := rfl
@[simp] theorem State.chanEnabled_setChan (s : State) (ch : Chan) (c : Channel) (ch' : Chan) :
    (s.setChan ch c).chanEnabled ch' = s.chanEnabled ch' := rfl
@[simp] theorem State.chanEnabled_callback (s : State) (ch : Chan) (e : Edge) (ch' : Chan) :
    (s.callback ch e).chanEnabled ch' = s.chanEnabled ch' := rfl

/-- A callback writes its own channel's output bit and no other (R213). -/
theorem State.output_callback (s : State) (ch : Chan) (e : Edge) (ch' : Chan) :
    (s.callback ch e).output ch' = if ch' = ch then e == .start else s.output ch' :=
  setBit_getLsbD s.sched.out ch ch' (e == .start)

/-! ### What a part of State determines -/

/-- States with one scheduler have one entry per channel. -/
theorem State.chan_congr {s t : State} (h : s.sched = t.sched) (ch : Chan) : s.chan ch = t.chan ch := by
  rw [State.chan, h]; rfl

/-- States with one scheduler have the same timers. -/
theorem State.timer_congr {s t : State} (h : s.sched = t.sched) (p : Periph) : s.timer p = t.timer p := by
  rw [State.timer, h]; rfl

/-- States with one scheduler have the same outputs. -/
theorem State.output_congr {s t : State} (h : s.sched = t.sched) (ch : Chan) : s.output ch = t.output ch := by
  rw [State.output, h]; rfl

/-- An entry written back as it stands changes nothing. -/
theorem State.setChan_chan (s : State) (ch : Chan) : s.setChan ch (s.chan ch) = s := by
  simp [State.setChan, State.chan]

/-- A state whose channels are known entry by entry has a known vector of channels. -/
theorem State.channels_eq_of_chan {s t : State} (h : ∀ ch, s.chan ch = t.chan ch) :
    s.sched.channels = t.sched.channels := by
  ext1 i hi
  exact h ⟨i, hi⟩

end Sys2Proof.Machine
end

