-- ==== Sys2Proof/Laws/CrankMath.lean ====
section
/-! SUPPORT. What the crank-math unit computes (40_crank_math.md), as numbers. -/

namespace Sys2Proof.Machine

/-! ### Words of integers (R13) -/

/-- An integer in the signed 32-bit range survives `sext32`. -/
theorem sext32_toInt (v : Int) (h1 : -2 ^ 31 ≤ v) (h2 : v < 2 ^ 31) : (sext32 v).toInt = v := by
  rw [sext32, BitVec.toInt_ofInt]
  exact Int.bmod_eq_of_le (by omega) (by omega)

/-- A natural number below 2^32 survives `sext32`. -/
theorem sext32_toNat (n : Nat) (h : n < 2 ^ 32) : (sext32 (n : Int)).toNat = n := by
  rw [sext32, BitVec.toNat_ofInt]
  omega

/-! ### Scale pairs (R120) -/

theorem quot_pos (a b : Nat) (h : 1 ≤ b) : quot a b = a / b := by
  rw [quot, if_neg (by omega)]

/-- TPD16 of a span of at least one degree. -/
theorem pair_fst_toNat (i span : Nat) (h : 1 ≤ span) : (pair i span).1.toNat = min (16 * i / span) (2 ^ 32 - 1) := by
  simp only [pair, quot_pos _ _ h, BitVec.toNat_ofNat]
  exact Nat.mod_eq_of_lt (by omega)

/-- DPU32768 of a span of at least one degree. -/
theorem pair_snd_toNat (i span : Nat) (h : 1 ≤ span) :
    (pair i span).2.toNat =
      if min (16 * i / span) (2 ^ 32 - 1) = 0 then 2 ^ 32 - 1 else 524288 / min (16 * i / span) (2 ^ 32 - 1) := by
  simp only [pair, quot_pos _ _ h, BitVec.toNat_ofNat]
  refine Nat.mod_eq_of_lt ?_
  split
  · omega
  · exact lt_of_le_of_lt (Nat.div_le_self _ _) (by omega)

/-- Every pair the scale-pair function gives is reciprocal (R42). -/
theorem pair_reciprocal (i span : Nat) : ReciprocalPair (pair i span).1 (pair i span).2 := by
  have key : ∀ T : Nat, T < 2 ^ 32 →
      ReciprocalPair (BitVec.ofNat 32 T) (BitVec.ofNat 32 (if T = 0 then 2 ^ 32 - 1 else 524288 / T)) := by
    intro T hlt
    by_cases h : T = 0
    · subst h; exact Or.inr rfl
    · have h0 : BitVec.ofNat 32 T ≠ 0 := by
        intro e
        have := congrArg BitVec.toNat e
        rw [BitVec.toNat_ofNat, Nat.mod_eq_of_lt hlt] at this
        exact h this
      rw [ReciprocalPair, if_neg h0, if_neg h, BitVec.toNat_ofNat, BitVec.toNat_ofNat, Nat.mod_eq_of_lt hlt]
      exact Nat.mod_eq_of_lt (lt_of_le_of_lt (Nat.div_le_self _ _) (by omega))
  exact key _ (by omega)

/-- A pair of zeros is reciprocal (R122). -/
theorem zero_reciprocal : ReciprocalPair 0 0 := by simp [ReciprocalPair]

/-! ### Conversions (R125, R126) -/

/-- The magnitude of `A2T` stays below 2^31: the result never wraps. -/
theorem a2t_bounds (a : Int) (tpd : Word) : -2 ^ 31 < a2t a tpd ∧ a2t a tpd < 2 ^ 31 := by
  unfold a2t; dsimp only
  split <;> omega

/-- `T2A` is at most 32767. -/
theorem t2a_le (t dpu : Word) : t2a t dpu ≤ 32767 := Nat.min_le_right _ _

/-! ### The speed calculation (R123) -/

/-- Nothing while no interval has been measured. -/
theorem speedCalcs_invalid (d : Decoder) (crankRpm : Half) (h : d.regValid = false) : d.speedCalcs crankRpm = d := by
  rw [Decoder.speedCalcs, if_neg (by simp [h])]

/-- With an interval and a full revolution: RPM_REG and pairs 0 and 1. -/
theorem speedCalcs_revolution (d : Decoder) (crankRpm : Half) (h : d.regValid = true) (hr : d.revSeen = 2) :
    d.speedCalcs crankRpm = { d with
      rpmReg := BitVec.ofNat 16 (d.speedRpm crankRpm)
      tpd16 := (d.tpd16.set 0 (pair d.regGap.toNat d.regSpan.toNat).1).set 1 (pair d.revTime.toNat 360).1
      dpu32768 := (d.dpu32768.set 0 (pair d.regGap.toNat d.regSpan.toNat).2).set 1 (pair d.revTime.toNat 360).2 } := by
  rw [Decoder.speedCalcs, if_pos h, if_pos hr]; rfl

/-- With an interval and no full revolution: RPM_REG and pair 0. -/
theorem speedCalcs_interval (d : Decoder) (crankRpm : Half) (h : d.regValid = true) (hr : d.revSeen ≠ 2) :
    d.speedCalcs crankRpm = { d with
      rpmReg := BitVec.ofNat 16 (d.speedRpm crankRpm)
      tpd16 := d.tpd16.set 0 (pair d.regGap.toNat d.regSpan.toNat).1
      dpu32768 := d.dpu32768.set 0 (pair d.regGap.toNat d.regSpan.toNat).2 } := by
  rw [Decoder.speedCalcs, if_pos h, if_neg hr]; rfl

/-- The speed calculation writes RPM_REG and the scale pairs and nothing else. -/
theorem speedCalcs_frame (d : Decoder) (crankRpm : Half) :
    ∃ r t u, d.speedCalcs crankRpm = { d with rpmReg := r, tpd16 := t, dpu32768 := u } := by
  by_cases h : d.regValid = false
  · exact ⟨d.rpmReg, d.tpd16, d.dpu32768, by rw [speedCalcs_invalid d crankRpm h]⟩
  · have h : d.regValid = true := by simpa using h
    by_cases hr : d.revSeen = 2
    · exact ⟨_, _, _, speedCalcs_revolution d crankRpm h hr⟩
    · exact ⟨_, _, _, speedCalcs_interval d crankRpm h hr⟩

/-- Writing a reciprocal pair keeps every pair reciprocal. -/
theorem setPair_pairs (d : Decoder) (m : Fin Config.numMethods) (p : Word × Word) (hp : ReciprocalPair p.1 p.2)
    (h : ∀ k : Fin Config.numMethods, ReciprocalPair d.tpd16[k] d.dpu32768[k]) (k : Fin Config.numMethods) :
    ReciprocalPair (d.setPair m p).tpd16[k] (d.setPair m p).dpu32768[k] := by
  by_cases e : k = m
  · subst e
    simpa [Decoder.setPair] using hp
  · have e' : m.val ≠ k.val := fun c => e (Fin.ext c.symm)
    simpa [Decoder.setPair, e'] using h k

/-- The speed calculation keeps every pair reciprocal. -/
theorem speedCalcs_pairs (d : Decoder) (crankRpm : Half)
    (h : ∀ m : Fin Config.numMethods, ReciprocalPair d.tpd16[m] d.dpu32768[m]) (m : Fin Config.numMethods) :
    ReciprocalPair (d.speedCalcs crankRpm).tpd16[m] (d.speedCalcs crankRpm).dpu32768[m] := by
  unfold Decoder.speedCalcs
  split
  · dsimp only
    have h1 := setPair_pairs { d with rpmReg := BitVec.ofNat 16 (d.speedRpm crankRpm) } 0
      (pair d.regGap.toNat d.regSpan.toNat) (pair_reciprocal _ _) h
    split
    · exact setPair_pairs _ 1 _ (pair_reciprocal _ _) h1 m
    · exact h1 m
  · exact h m

end Sys2Proof.Machine
end

