-- ==== Sys2Proof/Laws/Decode.lean ====
section
/-! SUPPORT. The fields of the words the encoder writes (30_encoding.md R91, R93, R95), the bytes of a word (20_memory.md
R72), and the numbers of the fields of any word. -/

namespace Sys2Proof

/-! ### The fields as numbers -/

/-- A concatenation as a number. -/
theorem toNat_append_eq {n m : Nat} (x : BitVec n) (y : BitVec m) : (x ++ y).toNat = x.toNat * 2 ^ m + y.toNat := by
  rw [BitVec.toNat_append, ← Nat.shiftLeft_add_eq_or_of_lt y.isLt, Nat.shiftLeft_eq]

theorem opField_toNat (w : Word) : (opField w).toNat = w.toNat % 256 := by
  simp [opField, BitVec.extractLsb'_toNat]

theorem idxField_toNat (w : Word) : (idxField w).toNat = w.toNat / 256 % 256 := by
  simp [idxField, BitVec.extractLsb'_toNat, Nat.shiftRight_eq_div_pow]

theorem rsvField_toNat (w : Word) : (rsvField w).toNat = w.toNat / 65536 := by
  have h : w.toNat < 2 ^ 32 := w.isLt
  simp only [rsvField, BitVec.extractLsb'_toNat, Nat.shiftRight_eq_div_pow]
  omega

/-- The reserved field is 0 exactly when the word is below 2^16. -/
theorem rsvField_eq_zero (w : Word) : rsvField w = 0 ↔ w.toNat < 65536 := by
  rw [← BitVec.toNat_inj, rsvField_toNat, show (0 : Half).toNat = 0 from rfl]
  omega

theorem cmdWord_toNat (op idx : Byte) : (cmdWord op idx).toNat = idx.toNat * 256 + op.toNat := by
  unfold cmdWord
  rw [toNat_append_eq, toNat_append_eq, show (0 : Half).toNat = 0 from rfl]
  omega

/-- A word with no reserved bit is the word of its fields. -/
theorem cmdWord_fields (w : Word) (h : rsvField w = 0) : cmdWord (opField w) (idxField w) = w := by
  apply BitVec.eq_of_toNat_eq
  have hr := (rsvField_eq_zero w).1 h
  rw [cmdWord_toNat, opField_toNat, idxField_toNat]
  omega

/-! ### The fields of an encoded word -/

@[simp] theorem opField_cmdWord (op idx : Byte) : opField (cmdWord op idx) = op := by
  apply BitVec.eq_of_toNat_eq
  rw [opField_toNat, cmdWord_toNat]; have := op.isLt; omega

@[simp] theorem idxField_cmdWord (op idx : Byte) : idxField (cmdWord op idx) = idx := by
  apply BitVec.eq_of_toNat_eq
  rw [idxField_toNat, cmdWord_toNat]; have := op.isLt; have := idx.isLt; omega

@[simp] theorem rsvField_cmdWord (op idx : Byte) : rsvField (cmdWord op idx) = 0 := by
  rw [rsvField_eq_zero, cmdWord_toNat]; have := op.isLt; have := idx.isLt; omega

/-- The word of an opcode and an index as R93 writes it, `OP | (IDX << 8)`. -/
theorem cmdWord_eq_or (op idx : Byte) : cmdWord op idx = op.zeroExtend 32 ||| idx.zeroExtend 32 <<< 8 := by
  have ho := op.isLt
  have hi := idx.isLt
  apply BitVec.eq_of_toNat_eq
  rw [cmdWord_toNat, BitVec.toNat_or, Nat.or_comm, BitVec.toNat_shiftLeft]
  simp only [BitVec.truncate_eq_setWidth, BitVec.toNat_setWidth, Nat.shiftLeft_eq]
  rw [Nat.mod_eq_of_lt (a := op.toNat) (by omega), Nat.mod_eq_of_lt (a := idx.toNat) (by omega),
    Nat.mod_eq_of_lt (by omega), ← Nat.shiftLeft_eq, ← Nat.shiftLeft_add_eq_or_of_lt ho, Nat.shiftLeft_eq]

theorem angleOperand_eq_truncate (w : Word) : angleOperand w = w.truncate 16 := by
  apply BitVec.eq_of_toNat_eq
  simp [angleOperand]

theorem maskOperand_eq_truncate (w : Word) : maskOperand w = w.truncate 7 := by
  apply BitVec.eq_of_toNat_eq
  simp [maskOperand]

@[simp] theorem angleOperand_zeroExtend (a : Half) : angleOperand (a.zeroExtend 32) = a := by
  apply BitVec.eq_of_toNat_eq
  have := a.isLt
  simp [angleOperand_eq_truncate]

@[simp] theorem maskOperand_zeroExtend (m : BitVec 7) : maskOperand (m.zeroExtend 32) = m := by
  apply BitVec.eq_of_toNat_eq
  have := m.isLt
  simp [maskOperand_eq_truncate]

@[simp] theorem bankOperand_ite (b : Bool) : bankOperand (if b then 1 else 0) = b := by
  cases b <;> rfl

/-! ### Decoding by opcode -/

/-- The opcodes of the map (R93). -/
theorem opcodeRow_eq_none (op idx : Byte) (opa opb : Word) :
    opcodeRow op idx opa opb = none ↔
      ¬ (op.toNat ≤ 0x0C ∨ (0x10 ≤ op.toNat ∧ op.toNat ≤ 0x13) ∨ (0x20 ≤ op.toNat ∧ op.toNat ≤ 0x23)) := by
  unfold opcodeRow
  split <;> rename_i heq
  all_goals first
    | (simp only [reduceCtorEq, false_iff]; omega)
    | (simp only [true_iff]; simp only [imp_false] at *; omega)

/-- A row's instruction is that of the opcode, with the index and the operand bits its row reads (R93, R95). -/
theorem opcodeRow_eq_some (op idx : Byte) (opa opb : Word) (f : Format) (i : Instr)
    (h : opcodeRow op idx opa opb = some (f, i)) (hl : f.legalIdx idx = true) :
    i.opcode.toNat = op.toNat ∧ i.idx = idx ∧ i.wellFormed = true := by
  unfold opcodeRow at h
  split at h <;> rename_i heq <;>
    first
    | (simp only [Option.some.injEq, Prod.mk.injEq] at h; obtain ⟨rfl, rfl⟩ := h
       rw [heq]
       simp_all [Instr.opcode, Instr.idx, Instr.wellFormed, Format.legalIdx])
    | (simp at h)

/-- Decoding a word with no reserved bit and a row: the row's instruction when the format takes the index. -/
theorem decode_row (t : Transaction) (f : Format) (i : Instr) (h0 : rsvField t.cmd = 0)
    (h1 : opcodeRow (opField t.cmd) (idxField t.cmd) t.opa t.opb = some (f, i)) :
    decode t = if f.legalIdx (idxField t.cmd) then .ok i else .error f.idxError := by
  simp [decode, h0, h1]

/-- Decoding the word of an opcode and an index. -/
theorem decode_cmdWord (op idx : Byte) (opa opb : Word) (f : Format) (i : Instr)
    (h : opcodeRow op idx opa opb = some (f, i)) :
    decode ⟨cmdWord op idx, opa, opb⟩ = if f.legalIdx idx then .ok i else .error f.idxError := by
  simpa using decode_row ⟨cmdWord op idx, opa, opb⟩ f i (by simp) (by simpa using h)

/-- A word written `OP | (IDX << 8)` (R93) with an index its format decodes. -/
theorem decode_word (op idx : Byte) (opa opb : Word) (f : Format) (i : Instr)
    (h : opcodeRow op idx opa opb = some (f, i)) (hl : f.legalIdx idx = true) :
    decode ⟨op.zeroExtend 32 ||| idx.zeroExtend 32 <<< 8, opa, opb⟩ = .ok i := by
  rw [← cmdWord_eq_or, decode_cmdWord op idx opa opb f i h, if_pos hl]

/-! ### Bytes (R72) -/

@[simp] theorem wordOfBytes_extract (w : Word) :
    wordOfBytes (w.extractLsb' 0 8) (w.extractLsb' 8 8) (w.extractLsb' 16 8) (w.extractLsb' 24 8) = w := by
  apply BitVec.eq_of_toNat_eq
  have h : w.toNat < 2 ^ 32 := w.isLt
  unfold wordOfBytes
  rw [toNat_append_eq, toNat_append_eq, toNat_append_eq]
  simp only [BitVec.extractLsb'_toNat, Nat.shiftRight_eq_div_pow]
  omega

/-- The bytes of a word as numbers: byte k carries bits 8k+7:8k (R72). -/
theorem bytesOfWord_toNat (w : Word) : (bytesOfWord w).map BitVec.toNat =
    [w.toNat % 256, w.toNat / 2 ^ 8 % 256, w.toNat / 2 ^ 16 % 256, w.toNat / 2 ^ 24 % 256] := by
  simp [bytesOfWord, Nat.shiftRight_eq_div_pow]

/-- The bytes of a transaction decode as the transaction does, whatever follows them. -/
theorem decodeBytes_toBytes (t : Transaction) (rest : List Byte) :
    decodeBytes (t.toBytes ++ rest) =
      match decode t with
      | .ok i => .ok (i, rest)
      | .error e => .error e := by
  cases t
  simp only [Transaction.toBytes, bytesOfWord, List.cons_append, List.nil_append, decodeBytes, wordOfBytes_extract] <;>
    rfl

end Sys2Proof
end

