-- ==== Sys2Proof/Laws/Decoder.lean ====
section
/-! SUPPORT. What the steps of the trigger decoder do (41_trigger_decoder.md), one lemma per case; the configurations
TD_SETUP accepts. -/

namespace Sys2Proof.Machine

/-! ### Counters -/

/-- A saturating counter as a number, where the bound fits. -/
theorem satInc_toNat {w : Nat} (x : BitVec w) (hi : Nat) (h : hi < 2 ^ w) : (satInc x hi).toNat = min (x.toNat + 1) hi := by
  rw [satInc, BitVec.toNat_ofNat]
  exact Nat.mod_eq_of_lt (lt_of_le_of_lt (Nat.min_le_right _ _) h)

/-! ### The configuration (R150, R178) -/

/-- An entry of the angle table. -/
theorem tableAt_nat (c : ConfigRegs) (i : Nat) (h : i < Config.tableMax) : c.tableAt (i : Int) = c.table[i] := by
  rw [ConfigRegs.tableAt, dif_pos ⟨by omega, by simpa using h⟩]
  simp

theorem commonOk_iff (c : ConfigRegs) : c.commonOk = true ↔
    (c.pattern = 0 ∨ c.pattern = 1 ∨ c.pattern = 2) ∧ (c.cycle = 360 ∨ c.cycle = 720) ∧ c.flags.toNat < 4 := by
  have hflags : ∀ f : Byte, (f &&& ~~~0x3#8 == 0) = true ↔ f.toNat < 4 := by decide
  have hpat : ∀ p : Byte, p.toNat ≤ 2 ↔ (p = 0 ∨ p = 1 ∨ p = 2) := by decide
  rw [ConfigRegs.commonOk, Bool.and_eq_true, Bool.and_eq_true, hflags, decide_eq_true_eq, Bool.or_eq_true,
    beq_iff_eq, beq_iff_eq, and_assoc, hpat]

theorem missingOk_iff (c : ConfigRegs) : c.missingOk = true ↔
    2 ≤ c.teeth.toNat ∧ c.teeth.toNat ≤ 360 ∧ c.teeth.toNat ∣ 360 ∧ 1 ≤ c.missing.toNat ∧
      c.missing.toNat + 2 ≤ c.teeth.toNat := by
  simp only [ConfigRegs.missingOk, Bool.and_eq_true, decide_eq_true_eq, and_assoc,
    Nat.dvd_iff_mod_eq_zero]
  refine and_congr_right fun _ => and_congr_right fun _ => and_congr_right fun _ => and_congr_right fun _ => ?_
  simp only [ConfigRegs.physTeeth]
  omega

theorem dualOk_iff (c : ConfigRegs) : c.dualOk = true ↔
    1 ≤ c.teeth.toNat ∧ c.teeth.toNat ≤ 360 ∧ c.teeth.toNat ∣ 360 := by
  simp only [ConfigRegs.dualOk, Bool.and_eq_true, decide_eq_true_eq, and_assoc, Nat.dvd_iff_mod_eq_zero]

theorem tableOk_iff (c : ConfigRegs) : c.tableOk = true ↔
    2 ≤ c.teeth.toNat ∧ c.teeth.toNat ≤ Config.tableMax ∧
      (∀ i j : Fin Config.tableMax, j.val = i.val + 1 → j.val < c.teeth.toNat → c.table[i].toNat < c.table[j].toNat) ∧
      ∀ i : Fin Config.tableMax, i.val + 1 = c.teeth.toNat → c.table[i].toNat < 360 := by
  simp only [ConfigRegs.tableOk, Bool.and_eq_true, decide_eq_true_eq, List.all_eq_true, List.mem_range, and_assoc]
  refine and_congr_right fun h2 => and_congr_right fun hmax => and_congr ?_ ?_
  · constructor
    · rintro h ⟨i, hi⟩ ⟨j, hj⟩ e hlt
      simp only at e hlt
      have := h i (by omega)
      rw [tableAt_nat c i hi, show ((i : Int) + 1) = ((i + 1 : Nat) : Int) by omega,
        tableAt_nat c (i + 1) (by omega)] at this
      subst e
      exact this
    · intro h i hi
      rw [tableAt_nat c i (by omega), show ((i : Int) + 1) = ((i + 1 : Nat) : Int) by omega,
        tableAt_nat c (i + 1) (by omega)]
      exact h ⟨i, by omega⟩ ⟨i + 1, by omega⟩ rfl (by simp only; omega)
  · rw [show ((c.teeth.toNat : Int) - 1) = ((c.teeth.toNat - 1 : Nat) : Int) by omega, tableAt_nat c _ (by omega)]
    constructor
    · rintro h ⟨i, hi⟩ e
      have : i = c.teeth.toNat - 1 := by simp only at e; omega
      subst this
      exact h
    · intro h
      exact h ⟨c.teeth.toNat - 1, by omega⟩ (by simp only; omega)

/-- TD_SETUP's checks accept exactly the legal configurations. -/
theorem valid_iff_legal (c : ConfigRegs) : c.valid = true ↔ c.Legal := by
  rw [ConfigRegs.valid, Bool.and_eq_true, commonOk_iff, ConfigRegs.Legal, and_assoc, and_assoc]
  refine and_congr_right fun hp => and_congr_right fun _ => and_congr_right fun _ => ?_
  rcases hp with h | h | h
  · rw [if_pos h, missingOk_iff]
    simp only [h]
    exact ⟨fun k => ⟨fun _ => k, fun e => absurd e (by decide), fun e => absurd e (by decide)⟩, fun k => k.1 trivial⟩
  · rw [if_neg (by rw [h]; decide), if_pos h, dualOk_iff]
    simp only [h]
    exact ⟨fun k => ⟨fun e => absurd e (by decide), fun _ => k, fun e => absurd e (by decide)⟩, fun k => k.2.1 trivial⟩
  · rw [if_neg (by rw [h]; decide), if_neg (by rw [h]; decide), tableOk_iff]
    simp only [h]
    exact ⟨fun k => ⟨fun e => absurd e (by decide), fun e => absurd e (by decide), fun _ => k⟩, fun k => k.2.2 trivial⟩

/-! ### An accepted tooth (R151) -/

/-- A tooth whose pattern step keeps sync or has none: the sample, the bookkeeping and, on a qualifying tooth, the speed
calculation, with status OK. -/
theorem acceptTooth_kept (s : State) (gap : Word) (had : Bool) (d : Decoder) (revStart : Bool) (span : Option Half)
    (h : (s.dec.shiftHistory s.now gap had).patternStep s.cfg s.now gap s.dec.toothGap had (decide (s.dec.teethSeen = 2))
      = ⟨d, revStart, false, span⟩) :
    s.acceptTooth gap had =
      { s with
        dec :=
          if ((d.sampleIf gap span).syncBookkeeping s.cfg.teethPerRev false).qualifies s.cfg revStart then
            ((d.sampleIf gap span).syncBookkeeping s.cfg.teethPerRev false).speedCalcs s.cfg.crankRpm
          else (d.sampleIf gap span).syncBookkeeping s.cfg.teethPerRev false
        log := s.toothLog gap had
        iface := ⟨0, 0, 0⟩ } := by
  unfold State.acceptTooth
  dsimp only
  rw [h]
  rfl

/-- A tooth whose pattern step loses sync: the decoder as the loss leaves it, with status SYNC_LOSS. -/
theorem acceptTooth_lost (s : State) (gap : Word) (had : Bool) (d : Decoder) (revStart : Bool)
    (h : (s.dec.shiftHistory s.now gap had).patternStep s.cfg s.now gap s.dec.toothGap had (decide (s.dec.teethSeen = 2))
      = ⟨d.syncLoss, revStart, true, none⟩) :
    s.acceptTooth gap had =
      { s with
        dec := d.syncLoss
        log := s.toothLog gap had
        sticky := s.sticky ||| 0x1
        iface := ⟨2, 0, 0⟩ } := by
  unfold State.acceptTooth
  dsimp only
  rw [h]
  simp [Decoder.sampleIf, Decoder.syncBookkeeping, Decoder.syncLoss, Decoder.qualifies]
  rfl

/-! ### The pattern steps (R161, R163) -/

/-- A sync gap without sync, or where it is expected. -/
theorem missingToothStep_start (d : Decoder) (c : ConfigRegs) (t gap prev : Word) (had pv : Bool)
    (hg : isSyncGap pv gap prev = true) (h : d.hasSync = true → (d.toothCount.toNat : Int) = c.physTeeth + 1) :
    d.missingToothStep c t gap prev had pv =
      ⟨{ d with toothCount := 1, hasSync := true }.toothOne t, true, false, none⟩ := by
  rw [Decoder.missingToothStep]
  rw [if_pos hg, if_neg]
  rw [Bool.and_eq_true, Bool.not_eq_true', decide_eq_false_iff_not]
  exact fun k => k.2 (h k.1)

/-- A sync gap where none is expected, or none where one is. -/
theorem missingToothStep_lost (d : Decoder) (c : ConfigRegs) (t gap prev : Word) (had pv : Bool) (hs : d.hasSync = true)
    (h : isSyncGap pv gap prev = true ↔ (d.toothCount.toNat : Int) ≠ c.physTeeth + 1) :
    d.missingToothStep c t gap prev had pv = ⟨d.syncLoss, false, true, none⟩ := by
  rw [Decoder.missingToothStep]
  by_cases hg : isSyncGap pv gap prev = true
  · rw [if_pos hg, if_pos (by rw [hs, decide_eq_false (h.1 hg)]; rfl)]
  · rw [if_neg hg, if_pos (by rw [hs, decide_eq_true (by by_contra k; exact hg (h.2 k))]; rfl)]

/-- No sync gap where none is expected: the gap is regular. -/
theorem missingToothStep_regular (d : Decoder) (c : ConfigRegs) (t gap prev : Word) (had pv : Bool)
    (hg : ¬ isSyncGap pv gap prev = true) (h : d.hasSync = true → (d.toothCount.toNat : Int) ≠ c.physTeeth + 1) :
    d.missingToothStep c t gap prev had pv = ⟨d, false, false, if had then some d.toothAngle else none⟩ := by
  rw [Decoder.missingToothStep]
  rw [if_neg hg, if_neg]
  rw [Bool.and_eq_true, decide_eq_true_eq]
  exact fun k => h k.1 k.2

/-- A sync gap as numbers (R160). -/
theorem isSyncGap_iff (pv : Bool) (gap prev : Word) :
    isSyncGap pv gap prev = true ↔ pv = true ∧ 3 * prev.toNat ≤ 2 * gap.toNat := by
  rw [isSyncGap, Bool.and_eq_true, decide_eq_true_eq]

/-- A tooth of the cam patterns without sync. -/
theorem camStep_unsynced (d : Decoder) (c : ConfigRegs) (t : Word) (had : Bool) (h : d.hasSync = false) :
    d.camStep c t had = ⟨d, false, false, if had && (c.pattern == 1) then some d.toothAngle else none⟩ := by
  unfold Decoder.camStep
  by_cases hp : c.pattern = 1#8 <;> simp [h, hp]

/-- A tooth of the cam patterns with sync: the tooth after tooth N is the revolution start. -/
theorem camStep_synced (d : Decoder) (c : ConfigRegs) (t : Word) (had : Bool) (h : d.hasSync = true) :
    d.camStep c t had =
      let wrap := decide (c.teeth.toNat < d.toothCount.toNat)
      let e := if wrap then { d with toothCount := 1 }.toothOne t else d
      ⟨e, wrap, false,
        if had then some (if c.pattern = 1 then e.toothAngle else c.tableSpan e.toothCount.toNat) else none⟩ := by
  by_cases hw : c.teeth.toNat < d.toothCount.toNat <;> simp [Decoder.camStep, Decoder.toothOne, h, hw]

/-! ### The angle table (R167) -/

/-- The entries a legal table of N teeth uses lie below 360. -/
theorem table_lt_360 (c : ConfigRegs) (h : c.tableOk = true) (i : Nat) (hi : i < c.teeth.toNat) :
    (c.table[i]?.getD 0).toNat < 360 := by
  obtain ⟨h2, hmax, hmono, hlast⟩ := (tableOk_iff c).1 h
  have key : ∀ n : Nat, ∀ i : Nat, i + n + 1 = c.teeth.toNat → (c.table[i]?.getD 0).toNat < 360 := by
    intro n
    induction n with
    | zero =>
      intro i e
      have := hlast ⟨i, by omega⟩ e
      rwa [Vector.getElem?_eq_getElem (by omega : i < Config.tableMax), Option.getD_some]
    | succ n ih =>
      intro i e
      have h1 := ih (i + 1) (by omega)
      have h3 := hmono ⟨i, by omega⟩ ⟨i + 1, by omega⟩ rfl (by simp only; omega)
      rw [Vector.getElem?_eq_getElem (by omega : i < Config.tableMax), Option.getD_some]
      rw [Vector.getElem?_eq_getElem (by omega : i + 1 < Config.tableMax), Option.getD_some] at h1
      exact lt_trans h3 h1
  exact key (c.teeth.toNat - 1 - i) i (by omega)

/-- The entries a legal table uses rise from one to the next. -/
theorem table_rises (c : ConfigRegs) (h : c.tableOk = true) (i : Nat) (hi : i + 1 < c.teeth.toNat) :
    (c.table[i]?.getD 0).toNat < (c.table[i + 1]?.getD 0).toNat := by
  obtain ⟨h2, hmax, hmono, -⟩ := (tableOk_iff c).1 h
  have := hmono ⟨i, by omega⟩ ⟨i + 1, by omega⟩ rfl (by simpa using hi)
  rw [Vector.getElem?_eq_getElem (by omega : i < Config.tableMax), Option.getD_some,
    Vector.getElem?_eq_getElem (by omega : i + 1 < Config.tableMax), Option.getD_some]
  exact this

/-- The entries rise over any distance. -/
theorem table_lt_of_lt (c : ConfigRegs) (h : c.tableOk = true) (i j : Nat) (hij : i < j) (hj : j < c.teeth.toNat) :
    (c.table[i]?.getD 0).toNat < (c.table[j]?.getD 0).toNat := by
  induction j with
  | zero => omega
  | succ j ih =>
    have h1 := table_rises c h j hj
    by_cases e : i = j
    · subst e; exact h1
    · exact lt_trans (ih (by omega) (by omega)) h1

theorem tableAt_getD (c : ConfigRegs) (i : Nat) (h : i < Config.tableMax) :
    (c.tableAt (i : Int)).toNat = (c.table[i]?.getD 0).toNat := by
  rw [tableAt_nat c i h, Vector.getElem?_eq_getElem h, Option.getD_some]

/-- The span across the revolution boundary. -/
theorem tableSpan_first (c : ConfigRegs) (h : c.tableOk = true) :
    c.tableSpan 1 =
      BitVec.ofNat 16 ((c.table[0]?.getD 0).toNat + 360 - (c.table[c.teeth.toNat - 1]?.getD 0).toNat) := by
  obtain ⟨h2, hmax, -, -⟩ := (tableOk_iff c).1 h
  have hl := table_lt_360 c h (c.teeth.toNat - 1) (by omega)
  rw [ConfigRegs.tableSpan, if_pos rfl, show (0 : Int) = ((0 : Nat) : Int) from rfl, tableAt_getD c 0 (by decide),
    show ((c.teeth.toNat : Int) - 1) = ((c.teeth.toNat - 1 : Nat) : Int) by omega, tableAt_getD c _ (by omega),
    ← BitVec.ofInt_natCast]
  congr 1
  omega

/-- The span between two teeth of one revolution. -/
theorem tableSpan_inner (c : ConfigRegs) (h : c.tableOk = true) (k : Nat) (h1 : 2 ≤ k) (hk : k ≤ c.teeth.toNat) :
    c.tableSpan k = BitVec.ofNat 16 ((c.table[k - 1]?.getD 0).toNat - (c.table[k - 2]?.getD 0).toNat) := by
  obtain ⟨h2, hmax, -, -⟩ := (tableOk_iff c).1 h
  have hr := table_lt_of_lt c h (k - 2) (k - 1) (by omega) (by omega)
  rw [ConfigRegs.tableSpan, if_neg (by omega), show ((k : Int) - 1) = ((k - 1 : Nat) : Int) by omega,
    tableAt_getD c _ (by omega), show ((k : Int) - 2) = ((k - 2 : Nat) : Int) by omega, tableAt_getD c _ (by omega),
    ← BitVec.ofInt_natCast]
  congr 1
  omega

/-- Every span of a legal table is 1 to 359 degrees (R167). -/
theorem tableSpan_range (c : ConfigRegs) (h : c.tableOk = true) (k : Nat) (h1 : 1 ≤ k) (hk : k ≤ c.teeth.toNat) :
    1 ≤ (c.tableSpan k).toNat ∧ (c.tableSpan k).toNat ≤ 359 := by
  obtain ⟨h2, hmax, -, -⟩ := (tableOk_iff c).1 h
  by_cases e : k = 1
  · subst e
    have hl := table_lt_360 c h (c.teeth.toNat - 1) (by omega)
    have hr := table_lt_of_lt c h 0 (c.teeth.toNat - 1) (by omega) (by omega)
    rw [tableSpan_first c h, BitVec.toNat_ofNat, Nat.mod_eq_of_lt (by omega)]
    omega
  · have hl := table_lt_360 c h (k - 1) (by omega)
    have hr := table_lt_of_lt c h (k - 2) (k - 1) (by omega) (by omega)
    rw [tableSpan_inner c h k (by omega) hk, BitVec.toNat_ofNat, Nat.mod_eq_of_lt (by omega)]
    omega

/-! ### Bookkeeping (R169) -/

theorem syncBookkeeping_synced (d : Decoder) (tpr : Int) (lost : Bool) (h : d.hasSync = true) :
    d.syncBookkeeping tpr lost =
      { d with validTeeth := satInc d.validTeeth 65535, graceActive := false, graceTeeth := 0 } := by
  rw [Decoder.syncBookkeeping, if_pos h]

theorem syncBookkeeping_idle (d : Decoder) (tpr : Int) (lost : Bool) (h : d.hasSync = false) (hg : d.graceActive = false) :
    d.syncBookkeeping tpr lost = d := by
  rw [Decoder.syncBookkeeping, if_neg (by simp [h]), if_neg (by simp [hg])]

theorem syncBookkeeping_grace (d : Decoder) (tpr : Int) (h : d.hasSync = false) (hg : d.graceActive = true) :
    d.syncBookkeeping tpr false =
      if tpr ≤ ((d.graceTeeth + 1).toNat : Int) then { d with graceTeeth := d.graceTeeth + 1 }.hardReset
      else { d with graceTeeth := d.graceTeeth + 1 } := by
  rw [Decoder.syncBookkeeping, if_neg (by simp [h]), if_pos (by simp [hg])]

theorem syncBookkeeping_lost (d : Decoder) (tpr : Int) (h : d.hasSync = false) : d.syncBookkeeping tpr true = d := by
  rw [Decoder.syncBookkeeping, if_neg (by simp [h]), if_neg (by simp)]

/-! ### What the pattern step and the bookkeeping keep -/

/-- The timing record, the configuration's latches and the secondary's record agree. -/
structure SameRecord (d e : Decoder) : Prop where
  configured : e.configured = d.configured
  toothAngle : e.toothAngle = d.toothAngle
  toothLastTime : e.toothLastTime = d.toothLastTime
  toothLastMinusOneTime : e.toothLastMinusOneTime = d.toothLastMinusOneTime
  toothGap : e.toothGap = d.toothGap
  teethSeen : e.teethSeen = d.teethSeen
  secLastTime : e.secLastTime = d.secLastTime
  secSeen : e.secSeen = d.secSeen

theorem SameRecord.refl (d : Decoder) : SameRecord d d := ⟨rfl, rfl, rfl, rfl, rfl, rfl, rfl, rfl⟩

theorem SameRecord.trans {d e f : Decoder} (h : SameRecord d e) (k : SameRecord e f) : SameRecord d f :=
  ⟨k.1.trans h.1, k.2.trans h.2, k.3.trans h.3, k.4.trans h.4, k.5.trans h.5, k.6.trans h.6, k.7.trans h.7, k.8.trans h.8⟩

theorem patternStep_record (d : Decoder) (c : ConfigRegs) (t gap prev : Word) (had pv : Bool) :
    SameRecord d (d.patternStep c t gap prev had pv).dec := by
  unfold Decoder.patternStep Decoder.missingToothStep Decoder.camStep
  dsimp only
  split
  · split
    · split <;> exact ⟨rfl, rfl, rfl, rfl, rfl, rfl, rfl, rfl⟩
    · split <;> exact ⟨rfl, rfl, rfl, rfl, rfl, rfl, rfl, rfl⟩
  · dsimp only
    split <;> exact ⟨rfl, rfl, rfl, rfl, rfl, rfl, rfl, rfl⟩

theorem sampleIf_record (d : Decoder) (gap : Word) (span : Option Half) : SameRecord d (d.sampleIf gap span) := by
  cases span <;> exact ⟨rfl, rfl, rfl, rfl, rfl, rfl, rfl, rfl⟩

theorem syncBookkeeping_record (d : Decoder) (tpr : Int) (lost : Bool) : SameRecord d (d.syncBookkeeping tpr lost) := by
  unfold Decoder.syncBookkeeping
  split
  · exact ⟨rfl, rfl, rfl, rfl, rfl, rfl, rfl, rfl⟩
  · split
    · dsimp only
      split <;> exact ⟨rfl, rfl, rfl, rfl, rfl, rfl, rfl, rfl⟩
    · exact SameRecord.refl d

theorem speedCalcs_record (d : Decoder) (crankRpm : Half) : SameRecord d (d.speedCalcs crankRpm) := by
  obtain ⟨r, t, u, h⟩ := speedCalcs_frame d crankRpm
  rw [h]
  exact ⟨rfl, rfl, rfl, rfl, rfl, rfl, rfl, rfl⟩

/-- An accepted tooth leaves the timing record as the history shift does (R153). -/
theorem acceptTooth_record (s : State) (gap : Word) (had : Bool) :
    SameRecord (s.dec.shiftHistory s.now gap had) (s.acceptTooth gap had).dec := by
  unfold State.acceptTooth
  dsimp only
  have h : ∀ r : ToothResult, SameRecord (s.dec.shiftHistory s.now gap had) r.dec → ∀ b : Decoder,
      b = (r.dec.sampleIf gap r.span).syncBookkeeping s.cfg.teethPerRev r.lost →
      SameRecord (s.dec.shiftHistory s.now gap had)
        (if b.qualifies s.cfg r.revStart then b.speedCalcs s.cfg.crankRpm else b) := by
    rintro r hr b rfl
    have hb := (hr.trans (sampleIf_record r.dec gap r.span)).trans (syncBookkeeping_record _ s.cfg.teethPerRev r.lost)
    split
    · exact hb.trans (speedCalcs_record _ _)
    · exact hb
  split <;> exact h _ (patternStep_record _ _ _ _ _ _ _) _ rfl

/-- An accepted tooth leaves the log as step 4 does (R151). -/
theorem acceptTooth_log (s : State) (gap : Word) (had : Bool) : (s.acceptTooth gap had).log = s.toothLog gap had := by
  unfold State.acceptTooth
  dsimp only
  split <;> rfl

/-! ### Debounce (R152) -/

theorem primaryGap_of_seen (s : State) (h : 1 ≤ s.dec.teethSeen.toNat) : s.primaryGap = s.now - s.dec.toothLastTime := by
  rw [State.primaryGap, if_pos h]

theorem primaryBounces_iff (s : State) : s.primaryBounces = true ↔
    1 ≤ s.dec.teethSeen.toNat ∧ (s.now - s.dec.toothLastTime).toNat < s.cfg.debounce.toNat := by
  rw [State.primaryBounces, Bool.and_eq_true, decide_eq_true_eq, decide_eq_true_eq]
  refine and_congr_right fun h => ?_
  rw [primaryGap_of_seen s h]

/-- An accepted primary edge. -/
theorem execTdPrimaryEdge_accepted (s : State) (hc : s.dec.configured = true)
    (hb : 1 ≤ s.dec.teethSeen.toNat → s.cfg.debounce.toNat ≤ (s.now - s.dec.toothLastTime).toNat) :
    execTdPrimaryEdge s = .next (s.acceptTooth s.primaryGap (decide (1 ≤ s.dec.teethSeen.toNat))) := by
  unfold execTdPrimaryEdge
  rw [if_neg (by simp [hc]), if_neg]
  rw [primaryBounces_iff]
  rintro ⟨h, k⟩
  have := hb h
  omega

end Sys2Proof.Machine
end

