-- ==== Sys2Proof/Laws/DecoderInvariant.lean ====
section
/-! SUPPORT. The decoder's part of the decoder invariant through the steps of an accepted tooth (41_trigger_decoder.md R151,
R161 to R171). -/

namespace Sys2Proof.Machine

/-- A legal configuration has at least one tooth per revolution, and no more than a register holds (R178). -/
theorem teethPerRev_range {c : ConfigRegs} (h : c.Legal) : 1 ≤ c.teethPerRev ∧ c.teethPerRev ≤ 65535 := by
  obtain ⟨hp, -, -, h0, h1, h2⟩ := h
  have := c.teeth.isLt
  unfold ConfigRegs.teethPerRev ConfigRegs.physTeeth
  rcases hp with e | e | e
  · have := h0 e; rw [if_pos e]; omega
  · have := h1 e; rw [if_neg (by rw [e]; decide)]; omega
  · have := h2 e; rw [if_neg (by rw [e]; decide)]; omega

/-- The nominal tooth angle of a wheel with equal teeth is 1 to 360 degrees (R24, R150). -/
theorem toothAngle_range (s : State) (h : s.DecInv) (hc : s.dec.configured = true)
    (hp : s.cfg.pattern = 0 ∨ s.cfg.pattern = 1) : 1 ≤ s.dec.toothAngle.toNat ∧ s.dec.toothAngle.toNat ≤ 360 := by
  obtain ⟨⟨-, -, -, h0, h1, -⟩, ha⟩ := h.configured_legal hc
  rw [ha, if_neg (by rcases hp with e | e <;> rw [e] <;> decide)]
  have : 1 ≤ s.cfg.teeth.toNat ∧ s.cfg.teeth.toNat ≤ 360 := by
    rcases hp with e | e
    · have := h0 e; omega
    · have := h1 e; omega
  refine ⟨?_, Nat.div_le_self _ _⟩
  rw [Nat.le_div_iff_mul_le (by omega)]
  omega

/-- What holds of the decoder between the steps of a tooth, TPR given. -/
structure ToothOk (tpr : Int) (d : Decoder) : Prop where
  rev_seen : d.revSeen.toNat ≤ 2
  synced_count : d.hasSync = true → 1 ≤ d.toothCount.toNat ∧ (d.toothCount.toNat : Int) ≤ tpr
  grace_idle : d.graceActive = false → d.graceTeeth = 0
  grace_count : d.hasSync = false → d.graceActive = true → (d.graceTeeth.toNat : Int) < tpr
  unsynced_counts : d.hasSync = false → d.validTeeth = 0 ∧ d.revSeen = 0
  span_range : d.regValid = true → 1 ≤ d.regSpan.toNat ∧ d.regSpan.toNat ≤ 360
  pairs : ∀ m : Fin Config.numMethods, ReciprocalPair d.tpd16[m] d.dpu32768[m]

/-- What holds of the decoder after the bookkeeping of a tooth: grace has ended where sync is held. -/
structure BookedOk (tpr : Int) (d : Decoder) : Prop extends ToothOk tpr d where
  grace_unsynced : d.graceActive = true → d.hasSync = false

/-- The invariant of a configured decoder in this form. -/
theorem State.DecInv.booked {s : State} (h : s.DecInv) (hc : s.dec.configured = true) :
    BookedOk s.cfg.teethPerRev s.dec :=
  ⟨⟨h.rev_seen, h.synced_count hc, h.grace_idle, fun _ k => h.grace_count hc k, h.unsynced_counts, h.span_range,
    h.pairs⟩, h.grace_unsynced⟩

/-- The invariant from this form and the parts that are not the tooth's. -/
theorem BookedOk.decInv {s : State} (h : BookedOk s.cfg.teethPerRev s.dec) (ht : s.dec.teethSeen.toNat ≤ 2)
    (hw : s.log.wr.toNat ≤ Config.logSize) (hf : s.log.full = true ↔ s.log.wr.toNat = Config.logSize)
    (hg : s.dec.teethSeen = 2 → s.dec.toothGap = s.dec.toothLastTime - s.dec.toothLastMinusOneTime)
    (hl : s.dec.configured = true → s.cfg.Legal ∧
      s.dec.toothAngle.toNat = if s.cfg.pattern = 2 then 0 else 360 / s.cfg.teeth.toNat) : s.DecInv :=
  ⟨ht, h.rev_seen, hw, hf, hg, hl, fun _ k => h.synced_count k, h.grace_unsynced, h.grace_idle,
    fun _ k => h.grace_count (h.grace_unsynced k) k, h.unsynced_counts, h.span_range, h.pairs⟩

/-- The invariant reads the decoder, the log and the configuration only. -/
theorem State.DecInv.congr {s t : State} (h : s.DecInv) (hd : t.dec = s.dec) (hl : t.log = s.log) (hc : t.cfg = s.cfg) :
    t.DecInv := by
  obtain ⟨_, _, _, d, l, _, _, c, _, _⟩ := t
  simp only at hd hl hc
  subst hd hl hc
  exact ⟨h.1, h.2, h.3, h.4, h.5, h.6, h.7, h.8, h.9, h.10, h.11, h.12, h.13⟩

/-- Zeroed pairs are reciprocal (R122). -/
theorem zeroed_pairs (m : Fin Config.numMethods) :
    ReciprocalPair (Vector.replicate Config.numMethods (0 : Word))[m] (Vector.replicate Config.numMethods (0 : Word))[m] := by
  rw [Fin.getElem_fin, Vector.getElem_replicate]
  simp [ReciprocalPair]

/-- A regular sample of 1 to 360 degrees (R166). -/
theorem ToothOk.sampleIf {tpr : Int} {d : Decoder} (h : ToothOk tpr d) (gap : Word) (o : Option Half)
    (ho : ∀ x, o = some x → 1 ≤ x.toNat ∧ x.toNat ≤ 360) : ToothOk tpr (d.sampleIf gap o) := by
  cases o with
  | none => exact h
  | some x =>
    exact ⟨h.rev_seen, h.synced_count, h.grace_idle, h.grace_count, h.unsynced_counts, fun _ => ho x rfl,
      setPair_pairs _ 2 _ (pair_reciprocal _ _) h.pairs⟩

/-- The bookkeeping of a tooth that loses no sync (R169, R171). -/
theorem ToothOk.syncBookkeeping {tpr : Int} {d : Decoder} (h : ToothOk tpr d) :
    BookedOk tpr (d.syncBookkeeping tpr false) := by
  by_cases hs : d.hasSync = true
  · rw [syncBookkeeping_synced _ _ _ hs]
    exact ⟨⟨h.rev_seen, h.synced_count, fun _ => rfl, fun k => by simp [hs] at k, fun k => by simp [hs] at k,
      h.span_range, h.pairs⟩, fun k => by simp at k⟩
  · have hs' : d.hasSync = false := by simpa using hs
    by_cases hg : d.graceActive = true
    · rw [syncBookkeeping_grace _ _ hs' hg]
      split
      · exact ⟨⟨by simp [Decoder.hardReset], fun k => absurd k hs, fun _ => rfl,
          fun _ k => by simp [Decoder.hardReset] at k, fun _ => ⟨rfl, rfl⟩,
          fun k => by simp [Decoder.hardReset] at k, zeroed_pairs⟩, fun k => by simp [Decoder.hardReset] at k⟩
      · rename_i hk
        exact ⟨⟨h.rev_seen, h.synced_count, fun k => by simp [hg] at k, fun _ _ => by simpa using hk,
          h.unsynced_counts, h.span_range, h.pairs⟩, fun _ => hs'⟩
    · rw [syncBookkeeping_idle _ _ _ hs' (by simpa using hg)]
      exact ⟨h, fun k => absurd k hg⟩

/-- The speed calculation (R123). -/
theorem BookedOk.speedCalcs {tpr : Int} {d : Decoder} (h : BookedOk tpr d) (crankRpm : Half) :
    BookedOk tpr (d.speedCalcs crankRpm) := by
  have hp := speedCalcs_pairs d crankRpm h.pairs
  obtain ⟨r, t, u, e⟩ := speedCalcs_frame d crankRpm
  rw [e] at hp ⊢
  exact ⟨⟨h.rev_seen, h.synced_count, h.grace_idle, h.grace_count, h.unsynced_counts, h.span_range, hp⟩,
    h.grace_unsynced⟩

/-- A loss of sync, whatever the counts were (R170). -/
theorem bookedOk_syncLoss {tpr : Int} {d : Decoder} (ht : 1 ≤ tpr)
    (hs : d.regValid = true → 1 ≤ d.regSpan.toNat ∧ d.regSpan.toNat ≤ 360)
    (hp : ∀ m : Fin Config.numMethods, ReciprocalPair d.tpd16[m] d.dpu32768[m]) : BookedOk tpr d.syncLoss :=
  ⟨⟨by simp [Decoder.syncLoss], fun k => by simp [Decoder.syncLoss] at k, fun k => by simp [Decoder.syncLoss] at k,
    fun _ _ => lt_of_lt_of_le (show ((0 : Half).toNat : Int) < 1 by decide) ht, fun _ => ⟨rfl, rfl⟩, hs, hp⟩, fun _ => rfl⟩

/-- A revolution start that gains or keeps sync (R162). -/
theorem ToothOk.revolutionStart {tpr : Int} {d : Decoder} (t : Word) (ht : 1 ≤ tpr) (hr : d.revSeen.toNat ≤ 2)
    (hs : d.hasSync = true) (hc : d.toothCount = 1) (hg : d.graceActive = false → d.graceTeeth = 0)
    (hv : d.regValid = true → 1 ≤ d.regSpan.toNat ∧ d.regSpan.toNat ≤ 360)
    (hp : ∀ m : Fin Config.numMethods, ReciprocalPair d.tpd16[m] d.dpu32768[m]) : ToothOk tpr (d.toothOne t) := by
  have h1 : (d.toothOne t).revSeen.toNat ≤ 2 := by
    show (satInc d.revSeen 2).toNat ≤ 2
    rw [satInc_toNat _ _ (by decide)]; omega
  have hs' : (d.toothOne t).hasSync = true := hs
  refine ⟨h1, fun _ => ?_, hg, fun k => ?_, fun k => ?_, hv, hp⟩
  · show 1 ≤ d.toothCount.toNat ∧ (d.toothCount.toNat : Int) ≤ tpr
    rw [hc]
    exact ⟨by decide, ht⟩
  · rw [hs'] at k; exact absurd k (by decide)
  · rw [hs'] at k; exact absurd k (by decide)

/-- The shifted decoder where its count is right or it has no sync. -/
theorem State.DecInv.shifted {s : State} (h : s.DecInv) (hc : s.dec.configured = true) (gap : Word) (had : Bool)
    (hk : s.dec.hasSync = true → 1 ≤ (s.dec.shiftHistory s.now gap had).toothCount.toNat ∧
      ((s.dec.shiftHistory s.now gap had).toothCount.toNat : Int) ≤ s.cfg.teethPerRev) :
    ToothOk s.cfg.teethPerRev (s.dec.shiftHistory s.now gap had) :=
  ⟨h.rev_seen, hk, h.grace_idle, fun _ k => h.grace_count hc k, h.unsynced_counts, h.span_range, h.pairs⟩

/-- An accepted tooth of a configured decoder (R151). -/
theorem acceptTooth_bookedOk (s : State) (gap : Word) (had : Bool) (hc : s.dec.configured = true) (h : s.DecInv) :
    BookedOk s.cfg.teethPerRev (s.acceptTooth gap had).dec := by
  have hlegal := (h.configured_legal hc).1
  have htpr := (teethPerRev_range hlegal).1
  have hang := toothAngle_range s h hc
  have hsh := h.shifted hc gap had
  have hcount : (s.dec.shiftHistory s.now gap had).toothCount.toNat = min (s.dec.toothCount.toNat + 1) 65535 :=
    satInc_toNat _ _ (by decide)
  -- a tooth whose pattern step keeps sync or has none
  have kept : ∀ (e : Decoder) (revStart : Bool) (span : Option Half),
      (s.dec.shiftHistory s.now gap had).patternStep s.cfg s.now gap s.dec.toothGap had (decide (s.dec.teethSeen = 2)) =
        ⟨e, revStart, false, span⟩ → ToothOk s.cfg.teethPerRev e →
      (∀ x, span = some x → 1 ≤ x.toNat ∧ x.toNat ≤ 360) → BookedOk s.cfg.teethPerRev (s.acceptTooth gap had).dec := by
    intro e revStart span he hp hspan
    rw [acceptTooth_kept s gap had e revStart span he]
    have hb := (hp.sampleIf gap span hspan).syncBookkeeping
    dsimp only
    split
    · exact hb.speedCalcs _
    · exact hb
  have hpat := hlegal.1
  by_cases h0 : s.cfg.pattern = 0
  · have hstep : ∀ pv, (s.dec.shiftHistory s.now gap had).patternStep s.cfg s.now gap s.dec.toothGap had pv =
        (s.dec.shiftHistory s.now gap had).missingToothStep s.cfg s.now gap s.dec.toothGap had pv := fun pv => by
      rw [Decoder.patternStep, if_pos h0]
    have hT : s.cfg.teethPerRev = s.cfg.physTeeth := by rw [ConfigRegs.teethPerRev, if_pos h0]
    by_cases hg : isSyncGap (decide (s.dec.teethSeen = 2)) gap s.dec.toothGap = true
    · by_cases hx : s.dec.hasSync = true →
          ((s.dec.shiftHistory s.now gap had).toothCount.toNat : Int) = s.cfg.physTeeth + 1
      · exact kept _ _ _ ((hstep _).trans (missingToothStep_start _ s.cfg s.now gap _ had _ hg hx))
          (ToothOk.revolutionStart s.now htpr h.rev_seen rfl rfl h.grace_idle h.span_range h.pairs) (by simp)
      · simp only [Classical.not_imp] at hx
        rw [acceptTooth_lost s gap had _ _ ((hstep _).trans (missingToothStep_lost _ s.cfg s.now gap s.dec.toothGap had _
          hx.1 ⟨fun _ => hx.2, fun _ => hg⟩))]
        exact bookedOk_syncLoss htpr h.span_range h.pairs
    · by_cases hx : s.dec.hasSync = true →
          ((s.dec.shiftHistory s.now gap had).toothCount.toNat : Int) ≠ s.cfg.physTeeth + 1
      · refine kept _ _ _ ((hstep _).trans (missingToothStep_regular _ s.cfg s.now gap _ had _ hg hx)) (hsh fun hs => ?_) ?_
        · have h1 := hx hs
          have h2 := h.synced_count hc hs
          rw [hT] at h2 ⊢
          omega
        · intro x hx'
          split at hx'
          · injection hx' with e; rw [← e]; exact hang (.inl h0)
          · exact absurd hx' (by simp)
      · simp only [Classical.not_imp, not_not] at hx
        rw [acceptTooth_lost s gap had _ _ ((hstep _).trans (missingToothStep_lost _ s.cfg s.now gap s.dec.toothGap had _
          hx.1 ⟨fun k => absurd k hg, fun k => absurd hx.2 k⟩))]
        exact bookedOk_syncLoss htpr h.span_range h.pairs
  · have hstep : ∀ pv, (s.dec.shiftHistory s.now gap had).patternStep s.cfg s.now gap s.dec.toothGap had pv =
        (s.dec.shiftHistory s.now gap had).camStep s.cfg s.now had := fun pv => by
      rw [Decoder.patternStep, if_neg h0]
    have hT : s.cfg.teethPerRev = s.cfg.teeth.toNat := by rw [ConfigRegs.teethPerRev, if_neg h0]
    by_cases hs : s.dec.hasSync = true
    · have hcam := (hstep (decide (s.dec.teethSeen = 2))).trans
        (camStep_synced (s.dec.shiftHistory s.now gap had) s.cfg s.now had hs)
      have htable : s.cfg.pattern ≠ 1 → ∀ k, 1 ≤ k → k ≤ s.cfg.teeth.toNat →
          1 ≤ (s.cfg.tableSpan k).toNat ∧ (s.cfg.tableSpan k).toNat ≤ 360 := by
        intro h1 k k1 k2
        have hv := (valid_iff_legal _).2 hlegal
        rw [ConfigRegs.valid, Bool.and_eq_true, if_neg h0, if_neg h1] at hv
        have := tableSpan_range s.cfg hv.2 k k1 k2
        exact ⟨this.1, by omega⟩
      by_cases hw : s.cfg.teeth.toNat < (s.dec.shiftHistory s.now gap had).toothCount.toNat
      · rw [decide_eq_true hw] at hcam
        refine kept _ _ _ hcam (ToothOk.revolutionStart s.now htpr h.rev_seen hs rfl h.grace_idle h.span_range h.pairs) ?_
        intro x hx
        split at hx
        · injection hx with hx
          rw [← hx]
          split
          · rename_i h1; exact hang (.inr h1)
          · rename_i h1; exact htable h1 1 (by omega) (by omega)
        · exact absurd hx (by simp)
      · rw [decide_eq_false hw] at hcam
        refine kept _ _ _ hcam (hsh fun _ => ⟨by omega, by omega⟩) ?_
        intro x hx
        split at hx
        · injection hx with hx
          rw [← hx]
          split
          · rename_i h1; exact hang (.inr h1)
          · rename_i h1
            have := htable h1 (s.dec.shiftHistory s.now gap had).toothCount.toNat (by omega) (by omega)
            exact this
        · exact absurd hx (by simp)
    · have hs' : s.dec.hasSync = false := by simpa using hs
      refine kept _ _ _ ((hstep _).trans (camStep_unsynced _ s.cfg s.now had hs')) (hsh fun k => absurd k hs) ?_
      intro x hx
      split at hx
      · rename_i hk
        rw [Bool.and_eq_true, beq_iff_eq] at hk
        injection hx with hx
        rw [← hx]
        exact hang (.inr hk.2)
      · exact absurd hx (by simp)

end Sys2Proof.Machine
end

