-- ==== Sys2Proof/Laws/Ops.lean ====
section
/-! SUPPORT. What each shared operation of Machine/Ops.lean does, said once per kind of operand; the codes and masks of
Machine/Flags.lean as numbers. -/

namespace Sys2Proof.Machine

/-! ### Codes and masks (R49, R280) -/

@[simp] theorem StickyFlag.mask_syncLoss : StickyFlag.syncLoss.mask = 0x1 := rfl
@[simp] theorem StickyFlag.mask_stall : StickyFlag.stall.mask = 0x2 := rfl
@[simp] theorem StickyFlag.mask_debounce : StickyFlag.debounce.mask = 0x4 := rfl
@[simp] theorem StickyFlag.mask_overrun : StickyFlag.overrun.mask = 0x8 := rfl
@[simp] theorem StickyFlag.mask_misconfig : StickyFlag.misconfig.mask = 0x10 := rfl
@[simp] theorem StickyFlag.mask_illegal : StickyFlag.illegal.mask = 0x20 := rfl
@[simp] theorem StickyFlag.mask_refused : StickyFlag.refused.mask = 0x40 := rfl

@[simp] theorem StatusCode.code_ok : StatusCode.ok.code = 0 := rfl
@[simp] theorem StatusCode.code_debounceReject : StatusCode.debounceReject.code = 1 := rfl
@[simp] theorem StatusCode.code_syncLoss : StatusCode.syncLoss.code = 2 := rfl
@[simp] theorem StatusCode.code_stall : StatusCode.stall.code = 3 := rfl
@[simp] theorem StatusCode.code_noSync : StatusCode.noSync.code = 4 := rfl
@[simp] theorem StatusCode.code_overrun : StatusCode.overrun.code = 5 := rfl
@[simp] theorem StatusCode.code_notConfigured : StatusCode.notConfigured.code = 6 := rfl
@[simp] theorem StatusCode.code_misconfig : StatusCode.misconfig.code = 7 := rfl
@[simp] theorem StatusCode.code_channelDisabled : StatusCode.channelDisabled.code = 8 := rfl
@[simp] theorem StatusCode.code_range : StatusCode.range.code = 9 := rfl
@[simp] theorem StatusCode.code_refused : StatusCode.refused.code = 10 := rfl
@[simp] theorem StatusCode.code_illegal : StatusCode.illegal.code = 11 := rfl

/-- STATUS codes are 0 to 11 (R280). -/
theorem StatusCode.code_le (c : StatusCode) : c.code.toNat ≤ 11 := by cases c <;> decide

/-- Only OK has code 0 (R280). -/
theorem StatusCode.code_eq_zero (c : StatusCode) : c.code = 0 ↔ c = .ok := by cases c <;> decide

/-- Setting a sticky flag sets its bit and keeps every other (R49). -/
theorem stickySet_getLsbD (v : BitVec 7) (f : StickyFlag) (j : Fin 7) :
    (stickySet v f).getLsbD j.val = (v.getLsbD j.val || decide (j.val = f.bit)) := by
  have key : f.mask.getLsbD j.val = decide (j.val = f.bit) := by revert j; cases f <;> decide
  rw [stickySet, BitVec.getLsbD_or, key]

/-- No flag is lost when one is set. -/
theorem stickySet_keeps (v : BitVec 7) (f : StickyFlag) (j : Fin 7) (h : v.getLsbD j.val = true) :
    (stickySet v f).getLsbD j.val = true := by
  rw [stickySet_getLsbD, h, Bool.true_or]

/-! ### Methods (R94, R96, R124) -/

theorem State.withMethod_implemented (s : State) (m : Byte) (body : Fin Config.numMethods → State) (h : m.toNat < 3) :
    s.withMethod m body = body ⟨m.toNat, h⟩ := by
  have hm : m = 0 ∨ m = 1 ∨ m = 2 := by
    rcases (by omega : m.toNat = 0 ∨ m.toNat = 1 ∨ m.toNat = 2) with k | k | k
    · exact .inl (BitVec.eq_of_toNat_eq (by simpa using k))
    · exact .inr (.inl (BitVec.eq_of_toNat_eq (by simpa using k)))
    · exact .inr (.inr (BitVec.eq_of_toNat_eq (by simpa using k)))
  rcases hm with rfl | rfl | rfl <;> rfl

theorem State.withMethod_reserved (s : State) (m : Byte) (body : Fin Config.numMethods → State) (h : 3 ≤ m.toNat)
    (h' : m.toNat ≤ 4) : s.withMethod m body = s.refuse := by
  have hm : m = 3 ∨ m = 4 := by
    rcases (by omega : m.toNat = 3 ∨ m.toNat = 4) with k | k
    · exact .inl (BitVec.eq_of_toNat_eq (by simpa using k))
    · exact .inr (BitVec.eq_of_toNat_eq (by simpa using k))
  rcases hm with rfl | rfl <;> rfl

theorem State.withMethod_illegal (s : State) (m : Byte) (body : Fin Config.numMethods → State) (h : 4 < m.toNat) :
    s.withMethod m body = s.illegal := by
  unfold State.withMethod Method.ofIdx?
  split
  · rfl
  · rename_i heq
    split at heq <;> first | omega | simp at heq

/-- The three things a command of format CM can do. -/
theorem State.withMethod_cases (s : State) (m : Byte) (body : Fin Config.numMethods → State) :
    (∃ h : m.toNat < 3, s.withMethod m body = body ⟨m.toNat, h⟩) ∨
    (3 ≤ m.toNat ∧ m.toNat ≤ 4 ∧ s.withMethod m body = s.refuse) ∨
    (4 < m.toNat ∧ s.withMethod m body = s.illegal) := by
  by_cases h : m.toNat < 3
  · exact .inl ⟨h, s.withMethod_implemented m body h⟩
  · by_cases h' : m.toNat ≤ 4
    · exact .inr (.inl ⟨by omega, h', s.withMethod_reserved m body (by omega) h'⟩)
    · exact .inr (.inr ⟨by omega, s.withMethod_illegal m body (by omega)⟩)

/-! ### Channels (R94, R97) -/

theorem State.withChan_legal (s : State) (ch : Byte) (body : Chan → State) (h : ch.toNat < 16) :
    s.withChan ch body = body ⟨ch.toNat, h⟩ := by
  unfold State.withChan Chan.ofIdx?
  rw [dif_pos h]

theorem State.withChan_illegal (s : State) (ch : Byte) (body : Chan → State) (h : 16 ≤ ch.toNat) :
    s.withChan ch body = s.illegal := by
  unfold State.withChan Chan.ofIdx?
  rw [dif_neg (by simp only [Config.numChannels]; omega)]

theorem State.withChan_ofNat (s : State) (c : Chan) (body : Chan → State) :
    s.withChan (BitVec.ofNat 8 c.val) body = body c := by
  have hc : c.val < 16 := c.isLt
  have h : (BitVec.ofNat 8 c.val).toNat = c.val := by
    rw [BitVec.toNat_ofNat]; exact Nat.mod_eq_of_lt (by omega)
  rw [s.withChan_legal _ body (by omega)]
  congr 1
  exact Fin.ext h

/-- The two things a command of format CC can do. -/
theorem State.withChan_cases (s : State) (ch : Byte) (body : Chan → State) :
    (∃ h : ch.toNat < 16, s.withChan ch body = body ⟨ch.toNat, h⟩) ∨
    (16 ≤ ch.toNat ∧ s.withChan ch body = s.illegal) := by
  by_cases h : ch.toNat < 16
  · exact .inl ⟨h, s.withChan_legal ch body h⟩
  · exact .inr ⟨by omega, s.withChan_illegal ch body (by omega)⟩

/-! ### Operations -/

theorem State.takeOperation_nil (s : State) (h : s.inputs = []) : s.takeOperation = none := by
  simp [State.takeOperation, h]

theorem State.takeOperation_cons (s : State) (op : Operation) (rest : List Operation) (h : s.inputs = op :: rest) :
    s.takeOperation = some (op, { s with inputs := rest }) := by
  simp [State.takeOperation, h]

/-- Everything one step can do: wait, run the decoded command, refuse an illegal word, or step the time. -/
theorem step_cases (s : State) :
    (s.inputs = [] ∧ step s = .next s) ∨
    (∃ a t i rest, s.inputs = .command a t :: rest ∧ decode t = .ok i ∧ step s = exec i { s with inputs := rest }) ∨
    (∃ a t e rest, s.inputs = .command a t :: rest ∧ decode t = .error e ∧
      step s = .next { s with inputs := rest }.illegal) ∨
    ∃ rest, s.inputs = .timeStep :: rest ∧ step s = .next { s with inputs := rest }.timeStep := by
  cases h : s.inputs with
  | nil => exact .inl ⟨rfl, by rw [step, s.takeOperation_nil h]⟩
  | cons op rest =>
    have hs := s.takeOperation_cons op rest h
    cases op with
    | timeStep => exact .inr (.inr (.inr ⟨rest, rfl, by rw [step, hs]⟩))
    | command a t =>
      cases hd : decode t with
      | ok i => exact .inr (.inl ⟨a, t, i, rest, rfl, hd, by rw [step, hs]; simp only [runTransaction, hd]⟩)
      | error e => exact .inr (.inr (.inl ⟨a, t, e, rest, rfl, hd, by rw [step, hs]; simp only [runTransaction, hd]⟩))

end Sys2Proof.Machine
end

