-- ==== Sys2Proof/Laws/Scheduler.lean ====
section
/-! SUPPORT. What each operation of the event scheduler (42_event_scheduler.md) does, said once: the channels, the timers,
the outputs and the trace it leaves. -/

namespace Sys2Proof.Machine

/-! ## Frames -/

/-- t differs from s in the scheduler and STICKY only. -/
def SchedFrame (s t : State) : Prop := t = { s with sched := t.sched, sticky := t.sticky }

theorem SchedFrame.refl (s : State) : SchedFrame s s := rfl

theorem SchedFrame.trans {s t u : State} (h : SchedFrame s t) (k : SchedFrame t u) : SchedFrame s u := by
  rw [SchedFrame] at *
  rw [h] at k
  exact k

theorem SchedFrame.now {s t : State} (h : SchedFrame s t) : t.now = s.now := by
  rw [SchedFrame] at h; rw [h]

theorem SchedFrame.foldl {α : Type} {f : State → α → State} (hf : ∀ s a, SchedFrame s (f s a)) (l : List α) (s : State) :
    SchedFrame s (l.foldl f s) := by
  induction l generalizing s with
  | nil => exact SchedFrame.refl s
  | cons a l ih => exact (hf s a).trans (ih (f s a))

theorem setTimer_frame (s : State) (p : Periph) (t : Timer) : SchedFrame s (s.setTimer p t) := rfl

theorem endEvent_frame (s : State) (ch : Chan) : SchedFrame s (s.endEvent ch) := rfl

theorem startEvent_frame (s : State) (ch : Chan) : SchedFrame s (s.startEvent ch) := by
  unfold State.startEvent; dsimp only; split <;> rfl

theorem cancelChannel_frame (s : State) (ch : Chan) : SchedFrame s (s.cancelChannel ch) := by
  unfold State.cancelChannel; dsimp only; split <;> rfl

theorem rearbitrate_frame (s : State) (p : Periph) : SchedFrame s (s.rearbitrate p) := by
  unfold State.rearbitrate; split <;> rfl

theorem fireChannel_frame (s : State) (ch : Chan) : SchedFrame s (s.fireChannel ch) := by
  unfold State.fireChannel
  split
  · exact startEvent_frame s ch
  · split
    · exact endEvent_frame s ch
    · exact SchedFrame.refl s

theorem examinePeriph_frame (s : State) (p : Periph) : SchedFrame s (s.examinePeriph p) := by
  unfold State.examinePeriph
  split
  · exact (SchedFrame.foldl fireChannel_frame _ s).trans (rearbitrate_frame _ p)
  · exact SchedFrame.refl s

/-- A time step changes NOW by one, and beyond it the scheduler and STICKY only (R230). -/
theorem timeStep_frame (s : State) : SchedFrame { s with now := s.now + 1 } s.timeStep :=
  SchedFrame.foldl examinePeriph_frame _ _

/-! ## End event (R232) -/

@[simp] theorem endEvent_now (s : State) (ch : Chan) : (s.endEvent ch).now = s.now := rfl
@[simp] theorem endEvent_enabled (s : State) (ch : Chan) : (s.endEvent ch).sched.enabled = s.sched.enabled := rfl
@[simp] theorem endEvent_timer (s : State) (ch : Chan) (p : Periph) : (s.endEvent ch).timer p = s.timer p := rfl
@[simp] theorem endEvent_sticky (s : State) (ch : Chan) : (s.endEvent ch).sticky = s.sticky := rfl
@[simp] theorem endEvent_trace (s : State) (ch : Chan) :
    (s.endEvent ch).sched.trace = s.sched.trace ++ [⟨s.now, ch, .stop⟩] := rfl

theorem endEvent_chan (s : State) (ch ch' : Chan) :
    (s.endEvent ch).chan ch' = if ch' = ch then { s.chan ch with status := .off } else s.chan ch' := by
  simp [State.endEvent, State.chan_setChan]

theorem endEvent_out (s : State) (ch ch' : Chan) :
    (s.endEvent ch).output ch' = if ch' = ch then false else s.output ch' := by
  rw [State.endEvent, State.output_callback]
  rfl

/-! ## Start event (R231) -/

/-- The entry a start event leaves: RUNNING, or OFF where the end is already due. -/
def Channel.started (c : Channel) (now : Word) : Channel :=
  { c with status := if c.endTarget = now then .off else .running }

/-- The callbacks of a start event. -/
def startCallbacks (now : Word) (ch : Chan) (c : Channel) : List Callback :=
  ⟨now, ch, .start⟩ :: if c.endTarget = now then [⟨now, ch, .stop⟩] else []

theorem off_eq_zero (now x : Word) : off now x = 0 ↔ x = now := by
  unfold off
  constructor
  · intro h
    have := congrArg (· + now) h
    simpa using this
  · rintro rfl; simp

/-- A start event whose end lies ahead. -/
theorem startEvent_ahead (s : State) (ch : Chan) (h : (s.chan ch).endTarget ≠ s.now) :
    s.startEvent ch = (s.setChan ch { s.chan ch with status := .running }).callback ch .start := by
  rw [State.startEvent, if_neg]
  rw [off_eq_zero]; simpa using h

/-- A start event whose end is due (R224, R231). -/
theorem startEvent_due (s : State) (ch : Chan) (h : (s.chan ch).endTarget = s.now) :
    s.startEvent ch =
      (((s.setChan ch { s.chan ch with status := .running }).callback ch .start).raise .overrun).endEvent ch := by
  rw [State.startEvent, if_pos]
  rw [off_eq_zero]; simpa using h

/-- Everything a start event does. -/
theorem startEvent_spec (s : State) (ch : Chan) :
    (∀ ch', (s.startEvent ch).chan ch' = if ch' = ch then (s.chan ch).started s.now else s.chan ch') ∧
    (∀ p, (s.startEvent ch).timer p = s.timer p) ∧
    (s.startEvent ch).sched.enabled = s.sched.enabled ∧
    (∀ ch' : Chan, (s.startEvent ch).output ch' =
      if ch' = ch then decide ((s.chan ch).endTarget ≠ s.now) else s.output ch') ∧
    (s.startEvent ch).sched.trace = s.sched.trace ++ startCallbacks s.now ch (s.chan ch) ∧
    (s.startEvent ch).sticky =
      if (s.chan ch).endTarget = s.now then stickySet s.sticky .overrun else s.sticky := by
  by_cases h : (s.chan ch).endTarget = s.now
  · rw [startEvent_due s ch h]
    refine ⟨fun ch' => ?_, fun p => by simp, by simp, fun ch' => ?_, by simp [startCallbacks, h], by simp [h]⟩
    · by_cases k : ch' = ch <;> simp [h, k, endEvent_chan, Channel.started, State.chan_setChan]
    · by_cases k : ch' = ch <;> simp [h, k, endEvent_out, State.output_callback]
  · rw [startEvent_ahead s ch h]
    refine ⟨fun ch' => ?_, fun p => by simp, by simp, fun ch' => ?_, by simp [startCallbacks, h], by simp [h]⟩
    · by_cases k : ch' = ch <;> simp [h, k, Channel.started, State.chan_setChan]
    · by_cases k : ch' = ch <;> simp [h, k, State.output_callback]

/-! ## A channel at a compare match (R230) -/

/-- The entry a match leaves of a channel: started when its start is due, OFF when its end is, else as it was. -/
def Channel.fired (c : Channel) (now : Word) : Channel :=
  if c.status = .pending ∧ c.startTarget = now then c.started now
  else if c.status = .running ∧ c.endTarget = now then { c with status := .off }
  else c

/-- The callbacks of a channel at a match. -/
def firedCallbacks (now : Word) (ch : Chan) (c : Channel) : List Callback :=
  if c.status = .pending ∧ c.startTarget = now then startCallbacks now ch c
  else if c.status = .running ∧ c.endTarget = now then [⟨now, ch, .stop⟩]
  else []

/-- The output bit a match leaves of a channel whose bit was b. -/
def firedOut (now : Word) (c : Channel) (b : Bool) : Bool :=
  if c.status = .pending ∧ c.startTarget = now then decide (c.endTarget ≠ now)
  else if c.status = .running ∧ c.endTarget = now then false
  else b

/-- Everything a match does to one channel, but for STICKY. -/
theorem fireChannel_spec (s : State) (ch : Chan) :
    (∀ ch', (s.fireChannel ch).chan ch' = if ch' = ch then (s.chan ch).fired s.now else s.chan ch') ∧
    (∀ p, (s.fireChannel ch).timer p = s.timer p) ∧
    (s.fireChannel ch).sched.enabled = s.sched.enabled ∧
    (∀ ch' : Chan, (s.fireChannel ch).output ch' =
      if ch' = ch then firedOut s.now (s.chan ch) (s.output ch) else s.output ch') ∧
    (s.fireChannel ch).sched.trace = s.sched.trace ++ firedCallbacks s.now ch (s.chan ch) := by
  unfold State.fireChannel Channel.fired firedCallbacks firedOut
  split
  · obtain ⟨h1, h2, h3, h4, h5, -⟩ := startEvent_spec s ch
    exact ⟨h1, h2, h3, h4, h5⟩
  · split
    · exact ⟨endEvent_chan s ch, endEvent_timer s ch, rfl, endEvent_out s ch, rfl⟩
    · refine ⟨fun ch' => ?_, fun _ => rfl, rfl, fun ch' => ?_, by simp⟩ <;>
        by_cases h : ch' = ch <;> simp [h]

/-- Everything a match does to a list of channels without repeats, but for STICKY. -/
theorem fireChannels_spec (l : List Chan) (hl : l.Nodup) (s : State) :
    (∀ ch', (l.foldl State.fireChannel s).chan ch' = if ch' ∈ l then (s.chan ch').fired s.now else s.chan ch') ∧
    (∀ p, (l.foldl State.fireChannel s).timer p = s.timer p) ∧
    (l.foldl State.fireChannel s).sched.enabled = s.sched.enabled ∧
    (∀ ch' : Chan, (l.foldl State.fireChannel s).output ch' =
      if ch' ∈ l then firedOut s.now (s.chan ch') (s.output ch') else s.output ch') ∧
    (l.foldl State.fireChannel s).sched.trace =
      s.sched.trace ++ l.flatMap fun ch => firedCallbacks s.now ch (s.chan ch) := by
  induction l generalizing s with
  | nil => exact ⟨fun _ => by simp, fun _ => rfl, rfl, fun _ => by simp, by simp⟩
  | cons a l ih =>
    obtain ⟨ha, hl⟩ := List.nodup_cons.1 hl
    obtain ⟨f1, f2, f3, f4, f5⟩ := fireChannel_spec s a
    have fn : (s.fireChannel a).now = s.now := (fireChannel_frame s a).now
    obtain ⟨i1, i2, i3, i4, i5⟩ := ih hl (s.fireChannel a)
    rw [List.foldl_cons]
    refine ⟨fun ch' => ?_, fun p => ?_, ?_, fun ch' => ?_, ?_⟩
    · rw [i1, f1, fn]
      by_cases h : ch' = a
      · subst h; simp [ha]
      · simp [h]
    · rw [i2, f2]
    · rw [i3, f3]
    · rw [i4, f4, f1, fn]
      by_cases h : ch' = a
      · subst h; simp [ha]
      · simp [h]
    · rw [i5, f5, fn, List.flatMap_cons, List.append_assoc]
      congr 2
      refine List.flatMap_congr fun ch hch => ?_
      rw [f1]
      have : ch ≠ a := fun e => ha (e ▸ hch)
      simp [this]

/-! ## Cancelling (R225) -/

/-- Everything a cancellation does. -/
theorem cancelChannel_spec (s : State) (ch : Chan) :
    (∀ ch', (s.cancelChannel ch).chan ch' = if ch' = ch then { s.chan ch with status := .off } else s.chan ch') ∧
    (∀ p, (s.cancelChannel ch).timer p = s.timer p) ∧
    (s.cancelChannel ch).sched.enabled = s.sched.enabled ∧
    (∀ ch' : Chan, (s.cancelChannel ch).output ch' =
      if ch' = ch ∧ (s.chan ch).status = .running then false else s.output ch') ∧
    (s.cancelChannel ch).sched.trace =
      s.sched.trace ++ (if (s.chan ch).status = .running then [⟨s.now, ch, .stop⟩] else []) ∧
    (s.cancelChannel ch).sticky = s.sticky := by
  unfold State.cancelChannel
  by_cases h : (s.chan ch).status = .running
  · refine ⟨fun ch' => ?_, fun p => ?_, ?_, fun ch' => ?_, ?_, ?_⟩
    · by_cases k : ch' = ch <;> simp [h, k, endEvent_chan, State.chan_setChan]
    · simp [h]
    · simp [h]
    · by_cases k : ch' = ch <;> simp [h, k, endEvent_out]
    · simp [h]
    · simp [h]
  · refine ⟨fun ch' => ?_, fun p => ?_, ?_, fun ch' => ?_, ?_, ?_⟩
    · by_cases k : ch' = ch <;> simp [h, k, State.chan_setChan]
    · simp [h]
    · simp [h]
    · simp [h]
    · simp [h]
    · simp [h]

/-- Everything the cancellation of a list of channels without repeats does. -/
theorem cancelChannels_spec (l : List Chan) (hl : l.Nodup) (s : State) :
    (∀ ch', (l.foldl State.cancelChannel s).chan ch' =
      if ch' ∈ l then { s.chan ch' with status := .off } else s.chan ch') ∧
    (∀ p, (l.foldl State.cancelChannel s).timer p = s.timer p) ∧
    (l.foldl State.cancelChannel s).sched.enabled = s.sched.enabled ∧
    (∀ ch' : Chan, (l.foldl State.cancelChannel s).output ch' =
      if ch' ∈ l ∧ (s.chan ch').status = .running then false else s.output ch') ∧
    (l.foldl State.cancelChannel s).sched.trace =
      s.sched.trace ++ (l.filter fun ch => (s.chan ch).status = .running).map (fun ch => ⟨s.now, ch, .stop⟩) ∧
    (l.foldl State.cancelChannel s).sticky = s.sticky := by
  induction l generalizing s with
  | nil => exact ⟨fun _ => by simp, fun _ => rfl, rfl, fun _ => by simp, by simp, rfl⟩
  | cons a l ih =>
    obtain ⟨ha, hl⟩ := List.nodup_cons.1 hl
    obtain ⟨f1, f2, f3, f4, f5, f6⟩ := cancelChannel_spec s a
    have fn : (s.cancelChannel a).now = s.now := (cancelChannel_frame s a).now
    obtain ⟨i1, i2, i3, i4, i5, i6⟩ := ih hl (s.cancelChannel a)
    rw [List.foldl_cons]
    refine ⟨fun ch' => ?_, fun p => ?_, ?_, fun ch' => ?_, ?_, ?_⟩
    · rw [i1, f1]
      by_cases h : ch' = a
      · subst h; simp [ha]
      · simp [h]
    · rw [i2, f2]
    · rw [i3, f3]
    · rw [i4, f4, f1]
      by_cases h : ch' = a
      · subst h; simp [ha]
      · simp [h]
    · rw [i5, f5, fn]
      have hf : l.filter (fun ch => ((s.cancelChannel a).chan ch).status = .running) =
          l.filter (fun ch => (s.chan ch).status = .running) := by
        refine List.filter_congr fun ch hch => ?_
        have : ch ≠ a := fun e => ha (e ▸ hch)
        rw [f1]; simp [this]
      rw [hf]
      by_cases h : (s.chan a).status = .running <;> simp [h]
    · rw [i6, f6]

/-- Everything `cancelAll` does. -/
theorem cancelAll_spec (s : State) :
    (∀ ch, s.cancelAll.chan ch = { s.chan ch with status := .off }) ∧
    (∀ p, s.cancelAll.timer p = s.timer p) ∧
    s.cancelAll.sched.enabled = s.sched.enabled ∧
    (∀ ch : Chan, s.cancelAll.output ch = if (s.chan ch).status = .running then false else s.output ch) ∧
    s.cancelAll.sched.trace = s.sched.trace ++
      ((List.finRange Config.numChannels).filter fun ch => (s.chan ch).status = .running).map
        (fun ch => ⟨s.now, ch, .stop⟩) ∧
    s.cancelAll.sticky = s.sticky := by
  obtain ⟨h1, h2, h3, h4, h5, h6⟩ := cancelChannels_spec _ (List.nodup_finRange Config.numChannels) s
  refine ⟨fun ch => ?_, h2, h3, fun ch => ?_, h5, h6⟩
  · rw [State.cancelAll, h1, if_pos (List.mem_finRange ch)]
  · rw [State.cancelAll, h4]; simp [List.mem_finRange]

theorem cancelAll_frame (s : State) : SchedFrame s s.cancelAll := SchedFrame.foldl cancelChannel_frame _ s

theorem setEnabled_frame (s : State) (mask : BitVec 16) : SchedFrame s (s.setEnabled mask) := rfl

/-! ## Rearbitration (R233) -/

theorem mem_channels (p : Periph) (ch : Chan) : ch ∈ Periph.channels p ↔ ch.periph = p := by
  simp [Periph.channels]

theorem channels_nodup (p : Periph) : (Periph.channels p).Nodup :=
  (List.nodup_finRange _).filter _

theorem mem_offsets (s : State) (p : Periph) (n : Nat) :
    n ∈ s.offsets p ↔ ∃ ch x, ch.periph = p ∧ (s.chan ch).target? = some x ∧ n = (off s.now x).toNat := by
  simp only [State.offsets, List.mem_filterMap, mem_channels, Option.map_eq_some_iff]
  constructor
  · rintro ⟨ch, h, x, hx, rfl⟩; exact ⟨ch, x, h, hx, rfl⟩
  · rintro ⟨ch, x, h, hx, rfl⟩; exact ⟨ch, h, x, hx, rfl⟩

theorem target_isSome (c : Channel) : (∃ x, c.target? = some x) ↔ c.status ≠ .off := by
  unfold Channel.target?
  cases h : c.status <;> simp

/-- Everything a rearbitration does: the other peripheral, the channels, the outputs and the trace are kept; p is disarmed
with COMPARE kept when none of its channels waits for a target, else armed at the nearest target or 0xFFFF ahead. -/
theorem rearbitrate_spec (s : State) (p : Periph) :
    (∀ ch, (s.rearbitrate p).chan ch = s.chan ch) ∧
    (∀ p', p' ≠ p → (s.rearbitrate p).timer p' = s.timer p') ∧
    (s.rearbitrate p).sched.enabled = s.sched.enabled ∧
    (s.rearbitrate p).sched.out = s.sched.out ∧
    (s.rearbitrate p).sched.trace = s.sched.trace ∧
    (s.rearbitrate p).sticky = s.sticky ∧
    (((∀ ch : Chan, ch.periph = p → (s.chan ch).status = .off) ∧
        (s.rearbitrate p).timer p = { s.timer p with armed := false }) ∨
      ∃ (ch : Chan) (x : Word), ch.periph = p ∧ (s.chan ch).target? = some x ∧
        (∀ (ch' : Chan) (x' : Word), ch'.periph = p → (s.chan ch').target? = some x' →
          (off s.now x).toNat ≤ (off s.now x').toNat) ∧
        (s.rearbitrate p).timer p =
          ⟨BitVec.ofNat 16 (s.now.toNat + min (off s.now x).toNat 0xFFFF), true⟩) := by
  unfold State.rearbitrate
  cases hm : (s.offsets p).min? with
  | none =>
    refine ⟨fun _ => rfl, fun p' h => by simp [State.timer_setTimer, h], rfl, rfl, rfl, rfl, .inl ⟨fun ch hch => ?_, by simp⟩⟩
    by_contra hoff
    obtain ⟨x, hx⟩ := (target_isSome _).2 hoff
    have hmem := (mem_offsets s p _).2 ⟨ch, x, hch, hx, rfl⟩
    rw [List.min?_eq_none_iff.1 hm] at hmem
    simp at hmem
  | some m =>
    obtain ⟨hmem, hle⟩ := List.min?_eq_some_iff.1 hm
    obtain ⟨ch, x, hch, hx, rfl⟩ := (mem_offsets s p m).1 hmem
    refine ⟨fun _ => rfl, fun p' h => by simp [State.timer_setTimer, h], rfl, rfl, rfl, rfl, .inr ⟨ch, x, hch, hx, ?_, by simp⟩⟩
    exact fun ch' x' h' hx' => hle _ ((mem_offsets s p _).2 ⟨ch', x', h', hx', rfl⟩)

theorem rearbitrate_timer_ne (s : State) (p p' : Periph) (h : p' ≠ p) : (s.rearbitrate p).timer p' = s.timer p' :=
  (rearbitrate_spec s p).2.1 p' h

theorem rearbitrate_chan (s : State) (p : Periph) (ch : Chan) : (s.rearbitrate p).chan ch = s.chan ch :=
  (rearbitrate_spec s p).1 ch

theorem rearbitrate_output (s : State) (p : Periph) (ch : Chan) : (s.rearbitrate p).output ch = s.output ch := by
  rw [State.output, State.output, (rearbitrate_spec s p).2.2.2.1]

theorem rearbitrate_enabled (s : State) (p : Periph) : (s.rearbitrate p).sched.enabled = s.sched.enabled :=
  (rearbitrate_spec s p).2.2.1

theorem rearbitrate_trace (s : State) (p : Periph) : (s.rearbitrate p).sched.trace = s.sched.trace :=
  (rearbitrate_spec s p).2.2.2.2.1

theorem rearbitrate_now (s : State) (p : Periph) : (s.rearbitrate p).now = s.now := (rearbitrate_frame s p).now

/-- A peripheral with no active channel is disarmed, COMPARE kept (R233). -/
theorem rearbitrate_off (s : State) (p : Periph) (h : ∀ ch : Chan, ch.periph = p → (s.chan ch).status = .off) :
    (s.rearbitrate p).timer p = { s.timer p with armed := false } := by
  obtain ⟨-, -, -, -, -, -, h1 | ⟨ch, x, h2, h3, -⟩⟩ := rearbitrate_spec s p
  · exact h1.2
  · exact absurd (h ch h2) ((target_isSome _).1 ⟨x, h3⟩)

/-- A peripheral with a nearest target is armed at it, or 0xFFFF ahead (R233). -/
theorem rearbitrate_near (s : State) (p : Periph) (ch : Chan) (x : Word) (hp : ch.periph = p)
    (hx : (s.chan ch).target? = some x)
    (hn : ∀ (ch' : Chan) (x' : Word), ch'.periph = p → (s.chan ch').target? = some x' →
      (off s.now x).toNat ≤ (off s.now x').toNat) :
    (s.rearbitrate p).timer p = ⟨BitVec.ofNat 16 (s.now.toNat + min (off s.now x).toNat 0xFFFF), true⟩ := by
  obtain ⟨-, -, -, -, -, -, h1 | ⟨ch', x', h2, h3, h4, h5⟩⟩ := rearbitrate_spec s p
  · exact absurd (h1.1 ch hp) ((target_isSome _).1 ⟨x, hx⟩)
  · have e1 := hn ch' x' h2 h3
    have e2 := h4 ch x hp hx
    rw [h5, show (off s.now x).toNat = (off s.now x').toNat by omega]

/-! ## SCH_INIT's enables (R220) -/

/-- The channels SCH_INIT enables, bit by bit. -/
theorem enableMask_bit (f g : Nat) (ch : Chan) : (enableMask f g).getLsbD ch.val = true ↔
    (ch.val < 8 ∧ f ≤ 8 ∧ ch.val < f) ∨ (8 ≤ ch.val ∧ g ≤ 8 ∧ ch.val < 8 + g) := by
  have key : ∀ f g : Fin 10, ∀ ch : Chan, ((enableMask f.val g.val).getLsbD ch.val = true ↔
      (ch.val < 8 ∧ f.val ≤ 8 ∧ ch.val < f.val) ∨ (8 ≤ ch.val ∧ g.val ≤ 8 ∧ ch.val < 8 + g.val)) := by
    decide
  have hm : enableMask f g = enableMask (min f 9) (min g 9) := by
    unfold enableMask Config.maxChPerKind
    congr 2
    · by_cases h : f ≤ 8
      · rw [if_pos h, if_pos (by omega), min_eq_left (by omega)]
      · rw [if_neg h, if_neg (by omega)]
    · by_cases h : g ≤ 8
      · rw [if_pos h, if_pos (by omega), min_eq_left (by omega)]
      · rw [if_neg h, if_neg (by omega)]
  rw [hm]
  refine (key ⟨min f 9, by omega⟩ ⟨min g 9, by omega⟩ ch).trans ?_
  dsimp only
  omega

end Sys2Proof.Machine
end

