-- ==== Sys2Proof/Laws/Frames.lean ====
section
/-! SUPPORT. What each command may change, one lemma per command: every command answers a next state, and the record it
differs from the state before it in is named. -/

namespace Sys2Proof.Machine

/-! ### Frames -/

/-- t differs from s in the result registers and STICKY only, and STICKY has lost no flag. -/
def QueryFrame (s t : State) : Prop := ∃ i k, t = { s with iface := i, sticky := s.sticky ||| k }

/-- t differs from s in the decoder, the log, the result registers and STICKY only, and STICKY has lost no flag. -/
def DecoderFrame (s t : State) : Prop := ∃ d l i k, t = { s with dec := d, log := l, iface := i, sticky := s.sticky ||| k }

/-- t differs from s in the scheduler, the result registers and STICKY only, and STICKY has lost no flag. -/
def SchedulerFrame (s t : State) : Prop := ∃ c i k, t = { s with sched := c, iface := i, sticky := s.sticky ||| k }

theorem sticky_or_zero (v : BitVec 7) : v ||| 0 = v := by simp

theorem QueryFrame.ret (s : State) (st : StatusCode) (r0 r1 : Word) : QueryFrame s (s.ret st r0 r1) :=
  ⟨⟨st.code, r0, r1⟩, 0, by rw [sticky_or_zero]; rfl⟩

theorem QueryFrame.raise (s : State) (f : StickyFlag) (st : StatusCode) (r0 r1 : Word) :
    QueryFrame s ((s.raise f).ret st r0 r1) := ⟨⟨st.code, r0, r1⟩, f.mask, rfl⟩

theorem QueryFrame.illegal (s : State) : QueryFrame s s.illegal := QueryFrame.raise s .illegal .illegal 0 0

theorem QueryFrame.refuse (s : State) : QueryFrame s s.refuse := QueryFrame.raise s .refused .refused 0 0

theorem QueryFrame.decoder {s t : State} (h : QueryFrame s t) : DecoderFrame s t := by
  obtain ⟨i, k, rfl⟩ := h
  exact ⟨s.dec, s.log, i, k, rfl⟩

theorem QueryFrame.scheduler {s t : State} (h : QueryFrame s t) : SchedulerFrame s t := by
  obtain ⟨i, k, rfl⟩ := h
  exact ⟨s.sched, i, k, rfl⟩

theorem DecoderFrame.ret (s : State) (d : Decoder) (l : ToothLog) (st : StatusCode) (r0 r1 : Word) :
    DecoderFrame s ({ s with dec := d, log := l }.ret st r0 r1) := ⟨d, l, ⟨st.code, r0, r1⟩, 0, by rw [sticky_or_zero]; rfl⟩

theorem DecoderFrame.raise (s : State) (d : Decoder) (l : ToothLog) (f : StickyFlag) (st : StatusCode) (r0 r1 : Word) :
    DecoderFrame s (({ s with dec := d, log := l }.raise f).ret st r0 r1) := ⟨d, l, ⟨st.code, r0, r1⟩, f.mask, rfl⟩

theorem SchedulerFrame.of {s t : State} (h : SchedFrame s t) (hs : ∃ k, t.sticky = s.sticky ||| k) (st : StatusCode)
    (r0 r1 : Word) : SchedulerFrame s (t.ret st r0 r1) := by
  obtain ⟨k, hk⟩ := hs
  refine ⟨t.sched, ⟨st.code, r0, r1⟩, k, ?_⟩
  rw [SchedFrame] at h
  rw [← hk]
  conv_lhs => rw [h]
  rfl

/-- The two frames a method's command has from its body's. -/
theorem QueryFrame.withMethod (s : State) (m : Byte) (body : Fin Config.numMethods → State)
    (h : ∀ k, QueryFrame s (body k)) : QueryFrame s (s.withMethod m body) := by
  rcases s.withMethod_cases m body with ⟨_, e⟩ | ⟨_, _, e⟩ | ⟨_, e⟩ <;> rw [e]
  · exact h _
  · exact QueryFrame.refuse s
  · exact QueryFrame.illegal s

/-! ### STICKY in the scheduler's operations -/

theorem startEvent_sticky (s : State) (ch : Chan) : ∃ k, (s.startEvent ch).sticky = s.sticky ||| k := by
  obtain ⟨-, -, -, -, -, h⟩ := startEvent_spec s ch
  by_cases e : (s.chan ch).endTarget = s.now
  · exact ⟨StickyFlag.overrun.mask, by rw [h, if_pos e]; rfl⟩
  · exact ⟨0, by rw [h, if_neg e, sticky_or_zero]⟩

theorem fireChannel_sticky (s : State) (ch : Chan) : ∃ k, (s.fireChannel ch).sticky = s.sticky ||| k := by
  unfold State.fireChannel
  split
  · exact startEvent_sticky s ch
  · split
    · exact ⟨0, by rw [sticky_or_zero]; rfl⟩
    · exact ⟨0, by rw [sticky_or_zero]⟩

theorem rearbitrate_sticky (s : State) (p : Periph) : (s.rearbitrate p).sticky = s.sticky :=
  (rearbitrate_spec s p).2.2.2.2.2.1

/-- STICKY through a list of operations that each only set flags. -/
theorem foldl_sticky {α : Type} (f : State → α → State) (hf : ∀ s a, ∃ k, (f s a).sticky = s.sticky ||| k) (l : List α)
    (s : State) : ∃ k, (l.foldl f s).sticky = s.sticky ||| k := by
  induction l generalizing s with
  | nil => exact ⟨0, by rw [sticky_or_zero]; rfl⟩
  | cons a l ih =>
    obtain ⟨k, hk⟩ := hf s a
    obtain ⟨k', hk'⟩ := ih (f s a)
    exact ⟨k ||| k', by rw [List.foldl_cons, hk', hk, BitVec.or_assoc]⟩

theorem examinePeriph_sticky (s : State) (p : Periph) : ∃ k, (s.examinePeriph p).sticky = s.sticky ||| k := by
  unfold State.examinePeriph
  split
  · rw [rearbitrate_sticky]
    exact foldl_sticky _ fireChannel_sticky _ s
  · exact ⟨0, by rw [sticky_or_zero]⟩

/-- A time step clears no flag (R49). -/
theorem timeStep_sticky (s : State) : ∃ k, s.timeStep.sticky = s.sticky ||| k :=
  foldl_sticky _ examinePeriph_sticky _ { s with now := s.now + 1 }

/-! ### The queries (R75) -/

theorem execNop_frame (s : State) : ∃ t, execNop s = .next t ∧ QueryFrame s t := ⟨_, rfl, QueryFrame.ret ..⟩

theorem execTdGetRpm_frame (s : State) : ∃ t, execTdGetRpm s = .next t ∧ QueryFrame s t := by
  refine ⟨_, rfl, ?_⟩
  split
  · exact QueryFrame.ret ..
  · split <;> exact QueryFrame.ret ..

theorem execTdGetCrankAngle_frame (m : Byte) (s : State) : ∃ t, execTdGetCrankAngle m s = .next t ∧ QueryFrame s t := by
  refine ⟨_, rfl, QueryFrame.withMethod _ _ _ fun k => ?_⟩
  split
  · exact QueryFrame.ret ..
  · split <;> exact QueryFrame.ret ..

theorem execRegRead_frame (r : Byte) (b : Bool) (s : State) : ∃ t, execRegRead r b s = .next t ∧ QueryFrame s t := by
  refine ⟨_, rfl, ?_⟩
  split
  · split <;> exact QueryFrame.ret ..
  · split <;> exact QueryFrame.ret ..

theorem execLogRead_frame (i : Byte) (s : State) : ∃ t, execLogRead i s = .next t ∧ QueryFrame s t := by
  refine ⟨_, rfl, ?_⟩
  split <;> exact QueryFrame.ret ..

theorem execCmAngleToTime_frame (m : Byte) (a : Half) (s : State) :
    ∃ t, execCmAngleToTime m a s = .next t ∧ QueryFrame s t :=
  ⟨_, rfl, QueryFrame.withMethod _ _ _ fun _ => QueryFrame.ret ..⟩

theorem execCmTimeToAngle_frame (m : Byte) (x : Word) (s : State) :
    ∃ t, execCmTimeToAngle m x s = .next t ∧ QueryFrame s t :=
  ⟨_, rfl, QueryFrame.withMethod _ _ _ fun _ => QueryFrame.ret ..⟩

theorem execCmIgnitionLimits_frame (a : Half) (s : State) : ∃ t, execCmIgnitionLimits a s = .next t ∧ QueryFrame s t := by
  refine ⟨_, rfl, ?_⟩
  split <;> exact QueryFrame.ret ..

theorem execSchStatus_frame (ch : Byte) (s : State) : ∃ t, execSchStatus ch s = .next t ∧ QueryFrame s t := by
  refine ⟨_, rfl, ?_⟩
  rcases s.withChan_cases ch _ with ⟨_, e⟩ | ⟨_, e⟩ <;> rw [e]
  · split <;> exact QueryFrame.ret ..
  · exact QueryFrame.illegal s

/-! ### The commands that write the decoder or the log -/

theorem execTdSetup_frame (s : State) : ∃ t, execTdSetup s = .next t ∧ DecoderFrame s t := by
  refine ⟨_, rfl, ?_⟩
  split
  · exact DecoderFrame.ret ..
  · exact DecoderFrame.raise s _ s.log ..

theorem acceptTooth_frame (s : State) (gap : Word) (had : Bool) : DecoderFrame s (s.acceptTooth gap had) := by
  unfold State.acceptTooth
  dsimp only
  split
  · exact DecoderFrame.raise ..
  · exact DecoderFrame.ret ..

theorem execTdPrimaryEdge_frame (s : State) : ∃ t, execTdPrimaryEdge s = .next t ∧ DecoderFrame s t := by
  refine ⟨_, rfl, ?_⟩
  split
  · exact (QueryFrame.ret ..).decoder
  · split
    · exact (QueryFrame.raise ..).decoder
    · exact acceptTooth_frame ..

theorem execTdSecondaryEdge_frame (s : State) : ∃ t, execTdSecondaryEdge s = .next t ∧ DecoderFrame s t := by
  refine ⟨_, rfl, ?_⟩
  split
  · exact (QueryFrame.ret ..).decoder
  · split
    · exact (QueryFrame.raise ..).decoder
    · dsimp only
      split
      · exact DecoderFrame.ret s _ s.log ..
      · split
        · exact DecoderFrame.raise s _ s.log ..
        · exact DecoderFrame.ret s _ s.log ..

theorem execTdStallCheck_frame (s : State) : ∃ t, execTdStallCheck s = .next t ∧ DecoderFrame s t := by
  refine ⟨_, rfl, ?_⟩
  split
  · exact (QueryFrame.ret ..).decoder
  · split
    · exact DecoderFrame.raise s _ s.log ..
    · exact (QueryFrame.ret ..).decoder

theorem execCmSpeedCalcs_frame (s : State) : ∃ t, execCmSpeedCalcs s = .next t ∧ DecoderFrame s t := by
  refine ⟨_, rfl, ?_⟩
  split
  · exact (QueryFrame.ret ..).decoder
  · split
    · exact (QueryFrame.ret ..).decoder
    · exact DecoderFrame.ret s _ s.log ..

theorem execLogClear_frame (s : State) : ∃ t, execLogClear s = .next t ∧ DecoderFrame s t :=
  ⟨_, rfl, DecoderFrame.ret s s.dec ..⟩

/-! ### The commands that write the scheduler -/

theorem execSchInit_frame (s : State) : ∃ t, execSchInit s = .next t ∧ SchedulerFrame s t := by
  have key (m : BitVec 16) : SchedFrame s (((s.cancelAll.setEnabled m).rearbitrate 0).rearbitrate 1) :=
    ((cancelAll_frame s).trans (setEnabled_frame _ m)).trans ((rearbitrate_frame _ 0).trans (rearbitrate_frame _ 1))
  have hs (m : BitVec 16) : (((s.cancelAll.setEnabled m).rearbitrate 0).rearbitrate 1).sticky = s.sticky := by
    rw [rearbitrate_sticky, rearbitrate_sticky, State.setEnabled_sticky, (cancelAll_spec s).2.2.2.2.2]
  unfold execSchInit
  dsimp only
  generalize hm : ((s.cancelAll.setEnabled _).rearbitrate 0).rearbitrate 1 = t
  have kt : SchedFrame s t := hm ▸ key _
  have ht : t.sticky = s.sticky := hm ▸ hs _
  refine ⟨_, rfl, ?_⟩
  split
  · exact SchedulerFrame.of (t := t.raise .misconfig) (kt.trans rfl) ⟨StickyFlag.misconfig.mask, by rw [← ht]; rfl⟩ ..
  · exact SchedulerFrame.of kt ⟨0, by rw [ht, sticky_or_zero]⟩ ..

theorem execSchSchedule_frame (ch : Byte) (d u : Word) (s : State) :
    ∃ t, execSchSchedule ch d u s = .next t ∧ SchedulerFrame s t := by
  refine ⟨_, rfl, ?_⟩
  rcases s.withChan_cases ch _ with ⟨_, e⟩ | ⟨_, e⟩ <;> rw [e]
  · split
    · exact (QueryFrame.ret ..).scheduler
    · split
      · exact (QueryFrame.ret ..).scheduler
      · dsimp only
        split
        · refine SchedulerFrame.of (SchedFrame.trans (t := State.raise (s.setChan _ _) .overrun) rfl
            ((startEvent_frame _ _).trans (rearbitrate_frame _ _))) ?_ ..
          rw [rearbitrate_sticky]
          obtain ⟨k, hk⟩ := startEvent_sticky (State.raise (s.setChan _ _) .overrun) _
          exact ⟨StickyFlag.overrun.mask ||| k, by rw [hk, ← BitVec.or_assoc]; rfl⟩
        · refine SchedulerFrame.of (SchedFrame.trans (t := s.setChan _ _) rfl (rearbitrate_frame _ _)) ⟨0, ?_⟩ ..
          rw [rearbitrate_sticky, sticky_or_zero]; rfl
  · exact (QueryFrame.illegal s).scheduler

theorem execSchCancel_frame (ch : Byte) (s : State) : ∃ t, execSchCancel ch s = .next t ∧ SchedulerFrame s t := by
  refine ⟨_, rfl, ?_⟩
  rcases s.withChan_cases ch _ with ⟨_, e⟩ | ⟨_, e⟩ <;> rw [e]
  · refine SchedulerFrame.of ((cancelChannel_frame s _).trans (rearbitrate_frame _ _)) ⟨0, ?_⟩ ..
    rw [rearbitrate_sticky, sticky_or_zero]
    exact (cancelChannel_spec s _).2.2.2.2.2
  · exact (QueryFrame.illegal s).scheduler

/-! ### The commands that write one register space -/

theorem execTdSnapshot_frame (s : State) : ∃ t v i, execTdSnapshot s = .next t ∧ t = { s with snap := v, iface := i } :=
  ⟨_, _, _, rfl, rfl⟩

theorem execStickyClear_frame (mask : BitVec 7) (s : State) :
    ∃ t v i, execStickyClear mask s = .next t ∧ t = { s with sticky := v, iface := i } := ⟨_, _, _, rfl, rfl⟩

theorem execCfgWrite_frame (r : Byte) (v : Word) (s : State) :
    ∃ t c b i, execCfgWrite r v s = .next t ∧ t = { s with cfg := c, dec := { s.dec with configured := b }, iface := i } := by
  have hr : ∀ i, ({ s with iface := i } : State) =
      { s with cfg := s.cfg, dec := { s.dec with configured := s.dec.configured }, iface := i } := fun _ => rfl
  unfold execCfgWrite
  split
  · exact ⟨_, _, _, _, rfl, hr _⟩
  · split
    · exact ⟨_, _, _, _, rfl, hr _⟩
    · split
      · exact ⟨_, _, _, _, rfl, hr _⟩
      · rename_i reg _ _ _
        refine ⟨_, s.cfg.write reg v, if reg.clearsConfigured then false else s.dec.configured, ⟨0, 0, 0⟩, rfl, ?_⟩
        cases reg.clearsConfigured <;> rfl

/-! ### Every command -/

/-- What a command may change, by its kind: the queries nothing but the result registers and STICKY, the decoder's and the
log's commands those two besides, the scheduler's commands the scheduler, and three commands one register space each. -/
theorem exec_frame (i : Instr) (s : State) : ∃ t, exec i s = .next t ∧
    (QueryFrame s t ∨
      ((i = .tdSetup ∨ i = .tdPrimaryEdge ∨ i = .tdSecondaryEdge ∨ i = .tdStallCheck ∨ i = .cmSpeedCalcs ∨
        i = .logClear) ∧ DecoderFrame s t) ∨
      ((i = .schInit ∨ (∃ c d u, i = .schSchedule c d u) ∨ (∃ c, i = .schCancel c)) ∧ SchedulerFrame s t) ∨
      (i = .tdSnapshot ∧ ∃ v f, t = { s with snap := v, iface := f }) ∨
      ((∃ m, i = .stickyClear m) ∧ ∃ v f, t = { s with sticky := v, iface := f }) ∨
      ((∃ r v, i = .cfgWrite r v) ∧
        ∃ c b f, t = { s with cfg := c, dec := { s.dec with configured := b }, iface := f })) := by
  cases i
  case nop =>
    obtain ⟨t, h, k⟩ := execNop_frame s
    exact ⟨t, h, .inl k⟩
  case tdGetRpm =>
    obtain ⟨t, h, k⟩ := execTdGetRpm_frame s
    exact ⟨t, h, .inl k⟩
  case tdGetCrankAngle m =>
    obtain ⟨t, h, k⟩ := execTdGetCrankAngle_frame m s
    exact ⟨t, h, .inl k⟩
  case regRead r b =>
    obtain ⟨t, h, k⟩ := execRegRead_frame r b s
    exact ⟨t, h, .inl k⟩
  case logRead r =>
    obtain ⟨t, h, k⟩ := execLogRead_frame r s
    exact ⟨t, h, .inl k⟩
  case cmAngleToTime m a =>
    obtain ⟨t, h, k⟩ := execCmAngleToTime_frame m a s
    exact ⟨t, h, .inl k⟩
  case cmTimeToAngle m a =>
    obtain ⟨t, h, k⟩ := execCmTimeToAngle_frame m a s
    exact ⟨t, h, .inl k⟩
  case cmIgnitionLimits a =>
    obtain ⟨t, h, k⟩ := execCmIgnitionLimits_frame a s
    exact ⟨t, h, .inl k⟩
  case schStatus ch =>
    obtain ⟨t, h, k⟩ := execSchStatus_frame ch s
    exact ⟨t, h, .inl k⟩
  case tdSetup =>
    obtain ⟨t, h, k⟩ := execTdSetup_frame s
    exact ⟨t, h, .inr (.inl ⟨by simp, k⟩)⟩
  case tdPrimaryEdge =>
    obtain ⟨t, h, k⟩ := execTdPrimaryEdge_frame s
    exact ⟨t, h, .inr (.inl ⟨by simp, k⟩)⟩
  case tdSecondaryEdge =>
    obtain ⟨t, h, k⟩ := execTdSecondaryEdge_frame s
    exact ⟨t, h, .inr (.inl ⟨by simp, k⟩)⟩
  case tdStallCheck =>
    obtain ⟨t, h, k⟩ := execTdStallCheck_frame s
    exact ⟨t, h, .inr (.inl ⟨by simp, k⟩)⟩
  case cmSpeedCalcs =>
    obtain ⟨t, h, k⟩ := execCmSpeedCalcs_frame s
    exact ⟨t, h, .inr (.inl ⟨by simp, k⟩)⟩
  case logClear =>
    obtain ⟨t, h, k⟩ := execLogClear_frame s
    exact ⟨t, h, .inr (.inl ⟨by simp, k⟩)⟩
  case schInit =>
    obtain ⟨t, h, k⟩ := execSchInit_frame s
    exact ⟨t, h, .inr (.inr (.inl ⟨by simp, k⟩))⟩
  case schSchedule c d u =>
    obtain ⟨t, h, k⟩ := execSchSchedule_frame c d u s
    exact ⟨t, h, .inr (.inr (.inl ⟨by simp, k⟩))⟩
  case schCancel c =>
    obtain ⟨t, h, k⟩ := execSchCancel_frame c s
    exact ⟨t, h, .inr (.inr (.inl ⟨by simp, k⟩))⟩
  case tdSnapshot =>
    obtain ⟨t, v, f, h, k⟩ := execTdSnapshot_frame s
    exact ⟨t, h, .inr (.inr (.inr (.inl ⟨rfl, v, f, k⟩)))⟩
  case stickyClear m =>
    obtain ⟨t, v, f, h, k⟩ := execStickyClear_frame m s
    exact ⟨t, h, .inr (.inr (.inr (.inr (.inl ⟨by simp, v, f, k⟩))))⟩
  case cfgWrite r v =>
    obtain ⟨t, c, b, f, h, k⟩ := execCfgWrite_frame r v s
    exact ⟨t, h, .inr (.inr (.inr (.inr (.inr ⟨by simp, c, b, f, k⟩))))⟩

end Sys2Proof.Machine
end

