-- ==== Sys2Proof/Laws/Requests.lean ====
section
/-! SUPPORT. What an accepted SCH_SCHEDULE and a SCH_CANCEL do (42_event_scheduler.md R221 to R225), said once. -/

namespace Sys2Proof.Machine

theorem off_add (now d : Word) : off now (now + d) = d := by
  unfold off
  rw [BitVec.add_comm, BitVec.add_sub_cancel]

/-- The distance of an end from NOW: two operands below 2^31 do not wrap. -/
theorem off_add_add (now d u : Word) (hd : d.toNat < 2 ^ 31) (hu : u.toNat < 2 ^ 31) :
    (off now (now + d + u)).toNat = d.toNat + u.toNat := by
  rw [BitVec.add_assoc, off_add, BitVec.toNat_add]
  exact Nat.mod_eq_of_lt (by omega)

theorem missedCompare_iff (s : State) (ch : Chan) :
    s.missedCompare ch = true ↔ (s.chan ch).status = .pending ∧ (s.chan ch).startTarget = s.now := by
  rw [State.missedCompare, Bool.and_eq_true, beq_iff_eq, beq_iff_eq, off_eq_zero]

/-- The state of an accepted request before a missed compare is looked for: the entry written, nothing else. -/
def State.requested (s : State) (c : Chan) (d u : Word) : State :=
  s.setChan c ((s.chan c).request s.now (s.now + d) (s.now + d + u) u)

/-- An accepted request that misses no compare. -/
theorem execSchSchedule_armed (s : State) (c : Chan) (d u : Word) (he : s.chanEnabled c = true) (hd : d.toNat < 2 ^ 31)
    (hu : u.toNat < 2 ^ 31) (hm : ¬ (s.requested c d u).missedCompare c = true) :
    execSchSchedule (BitVec.ofNat 8 c.val) d u s = .next (((s.requested c d u).rearbitrate c.periph).ret .ok) := by
  unfold execSchSchedule
  rw [s.withChan_ofNat, if_neg (by simp [he]), if_neg (by simp only [Config.maxDelay]; omega)]
  exact congrArg _ (if_neg hm)

/-- An accepted request that misses its compare (R224). -/
theorem execSchSchedule_missed (s : State) (c : Chan) (d u : Word) (he : s.chanEnabled c = true) (hd : d.toNat < 2 ^ 31)
    (hu : u.toNat < 2 ^ 31) (hm : (s.requested c d u).missedCompare c = true) :
    execSchSchedule (BitVec.ofNat 8 c.val) d u s =
      .next (((((s.requested c d u).raise .overrun).startEvent c).rearbitrate c.periph).ret .overrun) := by
  unfold execSchSchedule
  rw [s.withChan_ofNat, if_neg (by simp [he]), if_neg (by simp only [Config.maxDelay]; omega)]
  exact congrArg _ (if_pos hm)

theorem execSchCancel_chan (s : State) (c : Chan) :
    execSchCancel (BitVec.ofNat 8 c.val) s = .next (((s.cancelChannel c).rearbitrate c.periph).ret .ok) := by
  unfold execSchCancel
  rw [s.withChan_ofNat]

/-- The entry of a requested channel. -/
theorem requested_chan (s : State) (c : Chan) (d u : Word) (ch : Chan) : (s.requested c d u).chan ch =
    if ch = c then (s.chan c).request s.now (s.now + d) (s.now + d + u) u else s.chan ch := by
  rw [State.requested, State.chan_setChan]

theorem request_off (c : Channel) (now d u : Word) (h : c.status = .off) :
    c.request now (now + d) (now + d + u) u = ⟨.pending, now + d, now + d + u, u⟩ := by
  simp [Channel.request, h]

theorem request_pending (c : Channel) (now d u : Word) (h : c.status = .pending) (hd : d.toNat < 2 ^ 31)
    (hu : u.toNat < 2 ^ 31) : c.request now (now + d) (now + d + u) u =
      if d.toNat < (off now c.startTarget).toNat then ⟨.pending, now + d, now + d + u, u⟩
      else if (off now c.endTarget).toNat < d.toNat + u.toNat then
        { c with endTarget := now + d + u, duration := now + d + u - c.startTarget }
      else c := by
  simp only [Channel.request, h, off_add_add now d u hd hu, off_add, gt_iff_lt]

theorem request_running (c : Channel) (now d u : Word) (h : c.status = .running) (hd : d.toNat < 2 ^ 31)
    (hu : u.toNat < 2 ^ 31) : c.request now (now + d) (now + d + u) u =
      if (off now c.endTarget).toNat < d.toNat + u.toNat then
        { c with endTarget := now + d + u, duration := now + d + u - c.startTarget }
      else c := by
  simp only [Channel.request, h, off_add_add now d u hd hu, gt_iff_lt]

end Sys2Proof.Machine
end

