-- ==== Sys2Proof/Laws/Invariants.lean ====
section
/-! SUPPORT. The scheduler's invariant channel by channel and timer by timer, and what a rearbitration and a compare match do
to it (42_event_scheduler.md R214, R230, R233, R236, R237). -/

namespace Sys2Proof.Machine

/-- The part of the scheduler's invariant that is about one channel. -/
structure ChanOk (now : Word) (enabled out : Bool) (c : Channel) : Prop where
  out_running : out = true ↔ c.status = .running
  disabled_off : enabled = false → c.status = .off
  target_ahead : ∀ x : Word, c.target? = some x → off now x ≠ 0
  start_before_end : c.status = .pending → (off now c.startTarget).toNat ≤ (off now c.endTarget).toNat
  duration_eq : c.duration = c.endTarget - c.startTarget

/-- The part of the scheduler's invariant that is about one timer peripheral. -/
structure State.TimerOk (s : State) (p : Periph) : Prop where
  armed_active : (s.timer p).armed = true ↔ ∃ ch : Chan, ch.periph = p ∧ (s.chan ch).status ≠ .off
  compare_nearest : (s.timer p).armed = true →
    0 < s.matchDistance p ∧ ∀ (ch : Chan) (x : Word), ch.periph = p → (s.chan ch).target? = some x →
      s.matchDistance p ≤ (off s.now x).toNat

/-- The scheduler's invariant in its parts. -/
theorem schedInv_iff (s : State) : s.SchedInv ↔
    (∀ ch : Chan, ChanOk s.now (s.chanEnabled ch) (s.output ch) (s.chan ch)) ∧ ∀ p : Periph, s.TimerOk p :=
  ⟨fun h => ⟨fun ch => ⟨h.out_running ch, h.disabled_off ch, h.target_ahead ch, h.start_before_end ch, h.duration_eq ch⟩,
      fun p => ⟨h.armed_active p, h.compare_nearest p⟩⟩,
    fun h => ⟨fun ch => (h.1 ch).out_running, fun p => (h.2 p).armed_active, fun ch => (h.1 ch).disabled_off,
      fun ch => (h.1 ch).target_ahead, fun ch => (h.1 ch).start_before_end, fun ch => (h.1 ch).duration_eq,
      fun p => (h.2 p).compare_nearest⟩⟩

/-- A timer's part reads NOW, the timer and the channels of its peripheral. -/
theorem State.TimerOk.congr {s t : State} {p : Periph} (h : s.TimerOk p) (hn : t.now = s.now) (ht : t.timer p = s.timer p)
    (hc : ∀ ch : Chan, ch.periph = p → t.chan ch = s.chan ch) : t.TimerOk p := by
  have hd : t.matchDistance p = s.matchDistance p := by
    rw [State.matchDistance, State.matchDistance, ht, State.count, State.count, hn]
  refine ⟨?_, ?_⟩
  · rw [ht, h.armed_active]
    exact exists_congr fun ch => and_congr_right fun k => by rw [hc ch k]
  · rw [ht, hd, hn]
    exact fun k => ⟨(h.compare_nearest k).1, fun ch x hp hx => (h.compare_nearest k).2 ch x hp (by rw [← hc ch hp]; exact hx)⟩

/-- The distance to the match of a compare set m ticks ahead, below a lap of the counter. -/
theorem compare_distance (now : Word) (m : Nat) (h : m ≤ 0xFFFF) :
    (BitVec.ofNat 16 (now.toNat + m) - now.extractLsb' 0 16).toNat = m := by
  have e : (now.extractLsb' 0 16 : Half).toNat = now.toNat % 65536 := by
    rw [BitVec.extractLsb'_toNat]; simp
  rw [BitVec.toNat_sub, BitVec.toNat_ofNat, e]
  omega

/-- A rearbitration establishes its timer's part, every target of the peripheral being ahead (R233). -/
theorem rearbitrate_timerOk (s : State) (p : Periph)
    (h : ∀ (ch : Chan) (x : Word), ch.periph = p → (s.chan ch).target? = some x → off s.now x ≠ 0) :
    (s.rearbitrate p).TimerOk p := by
  obtain ⟨hc, -, -, -, -, -, hr⟩ := rearbitrate_spec s p
  have hn := rearbitrate_now s p
  rcases hr with ⟨h1, h2⟩ | ⟨ch, x, h1, h2, h3, h4⟩
  · refine ⟨?_, ?_⟩
    · rw [h2]
      simp only [Bool.false_eq_true, false_iff]
      rintro ⟨ch, hp, hs⟩
      rw [hc] at hs
      exact hs (h1 ch hp)
    · rw [h2]; intro k; exact absurd k Bool.false_ne_true
  · have hd : (s.rearbitrate p).matchDistance p = min (off s.now x).toNat 0xFFFF := by
      rw [State.matchDistance, h4, State.count, hn]
      exact compare_distance s.now _ (Nat.min_le_right _ _)
    have hx : 0 < (off s.now x).toNat := by
      have := h ch x h1 h2
      by_contra k
      exact this (BitVec.eq_of_toNat_eq (by simpa using k))
    refine ⟨?_, fun _ => ?_⟩
    · rw [h4]
      simp only [true_iff]
      exact ⟨ch, h1, by rw [hc]; exact (target_isSome _).1 ⟨x, h2⟩⟩
    · rw [hd, hn]
      refine ⟨by omega, fun ch' x' hp hx' => ?_⟩
      rw [hc] at hx'
      have := h3 ch' x' hp hx'
      omega

/-- A rearbitration keeps the other timer's part. -/
theorem rearbitrate_timerOk_ne (s : State) (p p' : Periph) (h : p' ≠ p) (k : s.TimerOk p') :
    (s.rearbitrate p).TimerOk p' :=
  k.congr (rearbitrate_now s p) (rearbitrate_timer_ne s p p' h) fun ch _ => rearbitrate_chan s p ch

/-- A rearbitration keeps every channel's part. -/
theorem rearbitrate_chanOk (s : State) (p : Periph) (ch : Chan)
    (k : ChanOk s.now (s.chanEnabled ch) (s.output ch) (s.chan ch)) :
    ChanOk (s.rearbitrate p).now ((s.rearbitrate p).chanEnabled ch) ((s.rearbitrate p).output ch)
      ((s.rearbitrate p).chan ch) := by
  rw [rearbitrate_now, State.chanEnabled, rearbitrate_enabled, rearbitrate_output, rearbitrate_chan]
  exact k

/-- A channel sent OFF with its output cleared. -/
theorem chanOk_off (now : Word) (enabled : Bool) (c : Channel) (h : c.duration = c.endTarget - c.startTarget) :
    ChanOk now enabled false { c with status := .off } :=
  ⟨by simp, fun _ => rfl, fun x hx => by simp [Channel.target?] at hx, fun k => by simp at k, h⟩

/-! ## A tick of the clock -/

theorem off_succ (now x : Word) (h : off now x ≠ 0) :
    (off (now + 1) x).toNat + 1 = (off now x).toNat := by
  unfold off at *
  have h' : (x - now).toNat ≠ 0 := fun e => h (BitVec.eq_of_toNat_eq (by simpa using e))
  have h1 := x.isLt
  have h2 := now.isLt
  have h3 : (1 : Word).toNat = 1 := rfl
  rw [BitVec.toNat_sub] at *
  rw [BitVec.toNat_sub, BitVec.toNat_add, h3]
  omega

theorem off_one (now x : Word) : off now x = 1 ↔ x = now + 1 := by
  unfold off
  constructor
  · intro h
    have := congrArg (· + now) h
    simp only [BitVec.sub_add_cancel] at this
    rw [this, BitVec.add_comm]
  · rintro rfl
    rw [BitVec.add_comm, BitVec.add_sub_cancel]

/-- A channel's part after a match at the new NOW (R214, R230). -/
theorem chanOk_fired (now n : Word) (hn : n = now + 1) (enabled out : Bool) (c : Channel)
    (h : ChanOk now enabled out c) : ChanOk n enabled (firedOut n c out) (c.fired n) := by
  obtain ⟨h1, h2, h3, h4, h5⟩ := h
  obtain ⟨st, a, e, u⟩ := c
  cases st with
  | off =>
    have ho : out = false := by simpa using h1
    exact ⟨by simp [firedOut, Channel.fired, ho], fun _ => by simp [Channel.fired],
      fun x hx => by simp [Channel.fired, Channel.target?] at hx, fun k => by simp [Channel.fired] at k,
      by simpa [Channel.fired] using h5⟩
  | pending =>
    have ho : out = false := by simpa using h1
    have ha : off now a ≠ 0 := h3 a rfl
    have hae := h4 rfl
    simp only at hae h5
    have hen : enabled ≠ false := fun k => by simpa using h2 k
    have he : off now e ≠ 0 := by
      intro k
      rw [k] at hae
      exact ha (BitVec.eq_of_toNat_eq (by simpa using hae))
    by_cases hs : a = n
    · by_cases hd : e = n
      · have hf : Channel.fired ⟨.pending, a, e, u⟩ n = ⟨.off, a, e, u⟩ := by
          simp [Channel.fired, Channel.started, hs, hd]
        have hfo : firedOut n ⟨.pending, a, e, u⟩ out = false := by simp [firedOut, hs, hd]
        rw [hf, hfo]
        exact chanOk_off n enabled ⟨.pending, a, e, u⟩ h5
      · have hf : Channel.fired ⟨.pending, a, e, u⟩ n = ⟨.running, a, e, u⟩ := by
          simp [Channel.fired, Channel.started, hs, hd]
        have hfo : firedOut n ⟨.pending, a, e, u⟩ out = true := by simp [firedOut, hs, hd]
        rw [hf, hfo]
        refine ⟨by simp, fun k => absurd k hen, fun x hx => ?_, fun k => by simp at k, h5⟩
        simp only [Channel.target?, Option.some.injEq] at hx
        rw [← hx, Ne, off_eq_zero]
        exact hd
    · have hf : Channel.fired ⟨.pending, a, e, u⟩ n = ⟨.pending, a, e, u⟩ := by simp [Channel.fired, hs]
      have hfo : firedOut n ⟨.pending, a, e, u⟩ out = out := by simp [firedOut, hs]
      rw [hf, hfo]
      refine ⟨by simp [ho], h2, fun x hx => ?_, fun _ => ?_, h5⟩
      · simp only [Channel.target?, Option.some.injEq] at hx
        rw [← hx, Ne, off_eq_zero]
        exact hs
      · have e1 := off_succ now a ha
        have e2 := off_succ now e he
        rw [← hn] at e1 e2
        simp only
        omega
  | running =>
    have ho : out = true := by simpa using h1
    have hen : enabled ≠ false := fun k => by simpa using h2 k
    by_cases hd : e = n
    · have hf : Channel.fired ⟨.running, a, e, u⟩ n = ⟨.off, a, e, u⟩ := by simp [Channel.fired, hd]
      have hfo : firedOut n ⟨.running, a, e, u⟩ out = false := by simp [firedOut, hd]
      rw [hf, hfo]
      exact chanOk_off n enabled ⟨.running, a, e, u⟩ h5
    · have hf : Channel.fired ⟨.running, a, e, u⟩ n = ⟨.running, a, e, u⟩ := by simp [Channel.fired, hd]
      have hfo : firedOut n ⟨.running, a, e, u⟩ out = out := by simp [firedOut, hd]
      rw [hf, hfo]
      refine ⟨by simp [ho], h2, fun x hx => ?_, fun k => by simp at k, h5⟩
      simp only [Channel.target?, Option.some.injEq] at hx
      rw [← hx, Ne, off_eq_zero]
      exact hd

/-- A channel is due at n. -/
def Channel.due (c : Channel) (n : Word) : Prop :=
  (c.status = .pending ∧ c.startTarget = n) ∨ (c.status = .running ∧ c.endTarget = n)

theorem due_iff (c : Channel) (n : Word) : c.due n ↔ c.target? = some n := by
  unfold Channel.due Channel.target?
  cases h : c.status <;> simp

theorem fired_not_due (c : Channel) (n : Word) (h : ¬ c.due n) : c.fired n = c := by
  rw [Channel.due, not_or] at h
  rw [Channel.fired, if_neg h.1, if_neg h.2]

theorem firedOut_not_due (c : Channel) (n : Word) (b : Bool) (h : ¬ c.due n) : firedOut n c b = b := by
  rw [Channel.due, not_or] at h
  rw [firedOut, if_neg h.1, if_neg h.2]

theorem firedCallbacks_not_due (c : Channel) (n : Word) (ch : Chan) (h : ¬ c.due n) : firedCallbacks n ch c = [] := by
  rw [Channel.due, not_or] at h
  rw [firedCallbacks, if_neg h.1, if_neg h.2]

/-- The pulse of a channel has no length and is due: OVERRUN (R231). -/
def Channel.overruns (c : Channel) (n : Word) : Prop := (c.status = .pending ∧ c.startTarget = n) ∧ c.endTarget = n

/-- STICKY after a match: OVERRUN exactly when some channel's pulse has no length. -/
theorem fireChannels_sticky (l : List Chan) (hl : l.Nodup) (s : State) :
    ((∃ ch ∈ l, (s.chan ch).overruns s.now) → (l.foldl State.fireChannel s).sticky = stickySet s.sticky .overrun) ∧
    ((¬ ∃ ch ∈ l, (s.chan ch).overruns s.now) → (l.foldl State.fireChannel s).sticky = s.sticky) := by
  have one : ∀ (s : State) (a : Chan), ((s.chan a).overruns s.now → (s.fireChannel a).sticky = stickySet s.sticky .overrun) ∧
      ((¬ (s.chan a).overruns s.now) → (s.fireChannel a).sticky = s.sticky) := by
    intro s a
    unfold State.fireChannel
    constructor
    · rintro ⟨h1, h2⟩
      rw [if_pos h1, (startEvent_spec s a).2.2.2.2.2, if_pos h2]
    · intro h
      split
      · rename_i h1
        rw [(startEvent_spec s a).2.2.2.2.2, if_neg fun h2 => h ⟨h1, h2⟩]
      · split <;> rfl
  have twice : ∀ v : BitVec 7, stickySet (stickySet v .overrun) .overrun = stickySet v .overrun := by
    intro v; rw [stickySet, stickySet, BitVec.or_assoc, BitVec.or_self]
  induction l generalizing s with
  | nil => exact ⟨fun ⟨_, h, _⟩ => absurd h (by simp), fun _ => rfl⟩
  | cons a l ih =>
    obtain ⟨ha, hl⟩ := List.nodup_cons.1 hl
    have fn : (s.fireChannel a).now = s.now := (fireChannel_frame s a).now
    have fc : ∀ ch ∈ l, (s.fireChannel a).chan ch = s.chan ch := fun ch h => by
      have hne : ch ≠ a := fun e => ha (e ▸ h)
      rw [(fireChannel_spec s a).1, if_neg hne]
    have hex : (∃ ch ∈ l, ((s.fireChannel a).chan ch).overruns (s.fireChannel a).now) ↔
        ∃ ch ∈ l, (s.chan ch).overruns s.now :=
      exists_congr fun ch => and_congr_right fun h => by rw [fc ch h, fn]
    obtain ⟨i1, i2⟩ := ih hl (s.fireChannel a)
    rw [hex] at i1 i2
    obtain ⟨o1, o2⟩ := one s a
    rw [List.foldl_cons]
    by_cases h1 : (s.chan a).overruns s.now <;> by_cases h2 : ∃ ch ∈ l, (s.chan ch).overruns s.now
    · exact ⟨fun _ => by rw [i1 h2, o1 h1, twice], fun k => absurd ⟨a, by simp, h1⟩ k⟩
    · exact ⟨fun _ => by rw [i2 h2, o1 h1], fun k => absurd ⟨a, by simp, h1⟩ k⟩
    · exact ⟨fun _ => by rw [i1 h2, o2 h1], fun k => absurd (h2.imp fun ch h => ⟨by simp [h.1], h.2⟩) k⟩
    · refine ⟨fun ⟨ch, hm, k⟩ => ?_, fun _ => by rw [i2 h2, o2 h1]⟩
      rcases List.mem_cons.1 hm with rfl | hm
      · exact absurd k h1
      · exact absurd ⟨ch, hm, k⟩ h2

/-! ## One peripheral in a time step -/

/-- Peripheral p's compare does not stand past a due channel: it matches, or none of its channels is due. -/
def State.MatchesDue (s : State) (p : Periph) : Prop :=
  ((s.timer p).armed = true ∧ (s.timer p).compare = s.count) ∨ ∀ ch : Chan, ch.periph = p → ¬ (s.chan ch).due s.now

/-- Everything the examination of a peripheral does, its compare not standing past a due channel (R230). -/
theorem examinePeriph_spec (s : State) (p : Periph) (h : s.MatchesDue p) :
    (∀ ch : Chan, (s.examinePeriph p).chan ch = if ch.periph = p then (s.chan ch).fired s.now else s.chan ch) ∧
    (∀ p', p' ≠ p → (s.examinePeriph p).timer p' = s.timer p') ∧
    (s.examinePeriph p).sched.enabled = s.sched.enabled ∧
    (∀ ch : Chan, (s.examinePeriph p).output ch =
      if ch.periph = p then firedOut s.now (s.chan ch) (s.output ch) else s.output ch) ∧
    (s.examinePeriph p).sched.trace =
      s.sched.trace ++ (Periph.channels p).flatMap (fun ch => firedCallbacks s.now ch (s.chan ch)) ∧
    ((∃ ch : Chan, ch.periph = p ∧ (s.chan ch).overruns s.now) →
      (s.examinePeriph p).sticky = stickySet s.sticky .overrun) ∧
    ((¬ ∃ ch : Chan, ch.periph = p ∧ (s.chan ch).overruns s.now) → (s.examinePeriph p).sticky = s.sticky) ∧
    (¬ ((s.timer p).armed = true ∧ (s.timer p).compare = s.count) → s.examinePeriph p = s) := by
  by_cases hm : (s.timer p).armed = true ∧ (s.timer p).compare = s.count
  · obtain ⟨f1, f2, f3, f4, f5⟩ := fireChannels_spec _ (channels_nodup p) s
    obtain ⟨g1, g2⟩ := fireChannels_sticky _ (channels_nodup p) s
    simp only [mem_channels] at f1 f4 g1 g2
    have he : s.examinePeriph p = ((Periph.channels p).foldl State.fireChannel s).rearbitrate p := by
      rw [State.examinePeriph, if_pos hm]
    rw [he, rearbitrate_enabled, rearbitrate_trace, rearbitrate_sticky]
    refine ⟨fun ch => ?_, fun p' hp => ?_, f3, fun ch => ?_, f5, g1, g2, fun k => absurd hm k⟩
    · rw [rearbitrate_chan, f1]
    · rw [rearbitrate_timer_ne _ _ _ hp, f2]
    · rw [rearbitrate_output, f4]
  · have hd : ∀ ch : Chan, ch.periph = p → ¬ (s.chan ch).due s.now := h.resolve_left hm
    have he : s.examinePeriph p = s := by rw [State.examinePeriph, if_neg hm]
    rw [he]
    refine ⟨fun ch => ?_, fun _ _ => rfl, rfl, fun ch => ?_, ?_, fun ⟨ch, hp, k⟩ => ?_, fun _ => rfl, fun _ => rfl⟩
    · split
      · rename_i hp; rw [fired_not_due _ _ (hd ch hp)]
      · rfl
    · split
      · rename_i hp; rw [firedOut_not_due _ _ _ (hd ch hp)]
      · rfl
    · have : (Periph.channels p).flatMap (fun ch => firedCallbacks s.now ch (s.chan ch)) = [] := by
        rw [List.flatMap_eq_nil_iff]
        exact fun ch hch => firedCallbacks_not_due _ _ _ (hd ch ((mem_channels p ch).1 hch))
      rw [this, List.append_nil]
    · exact absurd (.inl k.1) (hd ch hp)

/-- Under the invariant at NOW no compare stands past a channel due at NOW + 1 (R236(b)). -/
theorem matchesDue_of_timerOk (s : State) (p : Periph) (h : s.TimerOk p) :
    { s with now := s.now + 1 }.MatchesDue p := by
  by_cases hd : ∃ ch : Chan, ch.periph = p ∧ (s.chan ch).due (s.now + 1)
  · left
    obtain ⟨ch, hp, hd⟩ := hd
    have ht := (due_iff _ _).1 hd
    have ha : (s.timer p).armed = true := h.armed_active.2 ⟨ch, hp, (target_isSome _).1 ⟨_, ht⟩⟩
    refine ⟨ha, ?_⟩
    obtain ⟨h1, h2⟩ := h.compare_nearest ha
    have h3 := h2 ch _ hp ht
    rw [(off_one s.now _).2 rfl] at h3
    have h4 : s.matchDistance p = 1 := by
      have : (1 : Word).toNat = 1 := rfl
      omega
    rw [State.matchDistance, State.count] at h4
    show (s.timer p).compare = (s.now + 1).extractLsb' 0 16
    have h5 : (s.timer p).compare - s.now.extractLsb' 0 16 = 1 := BitVec.eq_of_toNat_eq (by rw [h4]; rfl)
    have h6 := congrArg (· + s.now.extractLsb' 0 16) h5
    simp only [BitVec.sub_add_cancel] at h6
    rw [h6]
    apply BitVec.eq_of_toNat_eq
    have e1 : (1 : Half).toNat = 1 := rfl
    have e2 : (1 : Word).toNat = 1 := rfl
    simp only [BitVec.toNat_add, BitVec.extractLsb'_toNat, Nat.shiftRight_zero, e1, e2]
    omega
  · right
    exact fun ch hp k => hd ⟨ch, hp, k⟩

/-! ## The time step -/

/-- The two peripherals in the order of a time step. -/
theorem timeStep_order (s : State) : ∃ p q : Periph, p ≠ q ∧ periphList s.periphOrder = [p, q] ∧
    ∀ r : Periph, r = p ∨ r = q := by
  cases h : s.periphOrder
  · exact ⟨0, 1, by decide, rfl, by decide⟩
  · exact ⟨1, 0, by decide, rfl, by decide⟩

/-- Everything a time step does where no compare stands past a due channel (R230). -/
theorem timeStep_spec (s : State) (h : ∀ p : Periph, { s with now := s.now + 1 }.MatchesDue p) :
    (∀ ch : Chan, s.timeStep.chan ch = (s.chan ch).fired (s.now + 1)) ∧
    s.timeStep.sched.enabled = s.sched.enabled ∧
    (∀ ch : Chan, s.timeStep.output ch = firedOut (s.now + 1) (s.chan ch) (s.output ch)) ∧
    s.timeStep.sched.trace = s.sched.trace ++ (periphList s.periphOrder).flatMap (fun p =>
      (Periph.channels p).flatMap fun ch => firedCallbacks (s.now + 1) ch (s.chan ch)) ∧
    ((∃ ch : Chan, (s.chan ch).overruns (s.now + 1)) → s.timeStep.sticky = stickySet s.sticky .overrun) ∧
    ((¬ ∃ ch : Chan, (s.chan ch).overruns (s.now + 1)) → s.timeStep.sticky = s.sticky) ∧
    ∀ p : Periph,
      (¬ ((s.timer p).armed = true ∧ (s.timer p).compare = (s.now + 1).extractLsb' 0 16) ∧
        s.timeStep.timer p = s.timer p) ∨
      ((s.timer p).armed = true ∧ (s.timer p).compare = (s.now + 1).extractLsb' 0 16) ∧
      ∃ u : State, u.now = s.now + 1 ∧ u.timer p = s.timer p ∧
        (∀ ch : Chan, ch.periph = p → u.chan ch = (s.chan ch).fired (s.now + 1)) ∧
        s.timeStep.timer p = (u.rearbitrate p).timer p := by
  obtain ⟨p, q, hpq, hl, hr⟩ := timeStep_order s
  set u : State := { s with now := s.now + 1 } with hu
  have hts : s.timeStep = (u.examinePeriph p).examinePeriph q := by
    rw [State.timeStep, hl]; rfl
  obtain ⟨a1, a2, a3, a4, a5, a6, a7, a8⟩ := examinePeriph_spec u p (h p)
  have an : (u.examinePeriph p).now = s.now + 1 := (examinePeriph_frame u p).now
  have hq : (u.examinePeriph p).MatchesDue q := by
    rcases h q with k | k
    · left
      rw [a2 q hpq.symm, State.count, an]
      exact k
    · right
      intro ch hc
      rw [a1, if_neg (by rw [hc]; exact hpq.symm), an]
      exact k ch hc
  obtain ⟨b1, b2, b3, b4, b5, b6, b7, b8⟩ := examinePeriph_spec (u.examinePeriph p) q hq
  rw [← hts] at b1 b2 b3 b4 b5 b6 b7 b8
  rw [an] at b1 b4 b5 b6 b7
  have hcq : ∀ ch : Chan, ch.periph = q → (u.examinePeriph p).chan ch = s.chan ch := fun ch hc => by
    rw [a1, if_neg (by rw [hc]; exact hpq.symm)]; rfl
  have hex : (∃ ch : Chan, ch.periph = q ∧ ((u.examinePeriph p).chan ch).overruns (s.now + 1)) ↔
      ∃ ch : Chan, ch.periph = q ∧ (s.chan ch).overruns (s.now + 1) :=
    exists_congr fun ch => and_congr_right fun hc => by rw [hcq ch hc]
  rw [hex] at b6 b7
  have twice : ∀ v : BitVec 7, stickySet (stickySet v .overrun) .overrun = stickySet v .overrun := by
    intro v; rw [stickySet, stickySet, BitVec.or_assoc, BitVec.or_self]
  refine ⟨fun ch => ?_, b3.trans a3, fun ch => ?_, ?_, ?_, ?_, fun r => ?_⟩
  · rw [b1, a1]
    rcases hr ch.periph with e | e
    · rw [if_neg (by rw [e]; exact hpq), if_pos e]; rfl
    · rw [if_pos e, if_neg (by rw [e]; exact hpq.symm)]; rfl
  · rw [b4, a4, a1]
    rcases hr ch.periph with e | e
    · rw [if_neg (by rw [e]; exact hpq), if_pos e]; rfl
    · rw [if_pos e, if_neg (by rw [e]; exact hpq.symm), if_neg (by rw [e]; exact hpq.symm)]; rfl
  · rw [b5, a5, hl, List.flatMap_cons, List.flatMap_cons, List.flatMap_nil, List.append_nil, List.append_assoc]
    congr 2
    refine List.flatMap_congr fun ch hch => ?_
    rw [hcq ch ((mem_channels q ch).1 hch)]
  · rintro ⟨ch, k⟩
    rcases hr ch.periph with e | e
    · have a6' := a6 ⟨ch, e, k⟩
      by_cases hb : ∃ ch : Chan, ch.periph = q ∧ (s.chan ch).overruns (s.now + 1)
      · rw [b6 hb, a6', twice]
      · rw [b7 hb, a6']
    · rw [b6 ⟨ch, e, k⟩]
      by_cases ha : ∃ ch : Chan, ch.periph = p ∧ (u.chan ch).overruns u.now
      · rw [a6 ha, twice]
      · rw [a7 ha]
  · intro k
    rw [b7 fun ⟨ch, _, kk⟩ => k ⟨ch, kk⟩, a7 fun ⟨ch, _, kk⟩ => k ⟨ch, kk⟩]
  · rcases hr r with rfl | rfl
    · rw [b2 r hpq]
      by_cases hm : (u.timer r).armed = true ∧ (u.timer r).compare = u.count
      · right
        refine ⟨hm, (Periph.channels r).foldl State.fireChannel u,
          (SchedFrame.foldl fireChannel_frame _ u).now, (fireChannels_spec _ (channels_nodup r) u).2.1 r,
          fun ch hc => ?_, ?_⟩
        · rw [(fireChannels_spec _ (channels_nodup r) u).1, if_pos ((mem_channels r ch).2 hc)]; rfl
        · rw [State.examinePeriph, if_pos hm]
      · left
        exact ⟨hm, by rw [a8 hm]; rfl⟩
    · have hs : (u.examinePeriph p).timer r = s.timer r := a2 r hpq.symm
      have hcn : (u.examinePeriph p).count = (s.now + 1).extractLsb' 0 16 := by rw [State.count, an]
      by_cases hm : ((u.examinePeriph p).timer r).armed = true ∧
          ((u.examinePeriph p).timer r).compare = (u.examinePeriph p).count
      · right
        refine ⟨by rw [hs, hcn] at hm; exact hm, (Periph.channels r).foldl State.fireChannel (u.examinePeriph p),
          (SchedFrame.foldl fireChannel_frame _ _).now.trans an,
          ((fireChannels_spec _ (channels_nodup r) _).2.1 r).trans hs, fun ch hc => ?_, ?_⟩
        · rw [(fireChannels_spec _ (channels_nodup r) _).1, if_pos ((mem_channels r ch).2 hc), an, hcq ch hc]
        · rw [hts, State.examinePeriph, if_pos hm]
      · left
        refine ⟨by rw [hs, hcn] at hm; exact hm, ?_⟩
        rw [b8 hm, hs]

/-- A match of peripheral p leaves it disarmed with COMPARE kept when none of its channels waits, else armed at the nearest
target or 0xFFFF ahead of the new NOW (R233, R234). -/
theorem timeStep_timer_match (s : State) (p : Periph) (h : ∀ q : Periph, { s with now := s.now + 1 }.MatchesDue q)
    (hm : (s.timer p).armed = true ∧ (s.timer p).compare = (s.now + 1).extractLsb' 0 16) :
    ((∀ ch : Chan, ch.periph = p → (s.timeStep.chan ch).status = .off) →
      s.timeStep.timer p = ⟨(s.timer p).compare, false⟩) ∧
    ∀ (ch : Chan) (x : Word), ch.periph = p → (s.timeStep.chan ch).target? = some x →
      (∀ (ch' : Chan) (x' : Word), ch'.periph = p → (s.timeStep.chan ch').target? = some x' →
        (off (s.now + 1) x).toNat ≤ (off (s.now + 1) x').toNat) →
      s.timeStep.timer p = ⟨BitVec.ofNat 16 ((s.now + 1).toNat + min (off (s.now + 1) x).toNat 0xFFFF), true⟩ := by
  obtain ⟨k1, -, -, -, -, -, k7⟩ := timeStep_spec s h
  obtain ⟨-, u, un, ut, uc, hu⟩ := (k7 p).resolve_left fun k => k.1 hm
  have hc : ∀ ch : Chan, ch.periph = p → s.timeStep.chan ch = u.chan ch := fun ch hp => by rw [k1, uc ch hp]
  rw [hu, ← ut, ← un]
  rcases (rearbitrate_spec u p).2.2.2.2.2.2 with ⟨h1, h2⟩ | ⟨c, y, h1, h2, h3, h4⟩
  · refine ⟨fun _ => h2, fun ch x hp hx _ => ?_⟩
    rw [hc ch hp] at hx
    exact absurd (h1 ch hp) ((target_isSome _).1 ⟨x, hx⟩)
  · refine ⟨fun k => ?_, fun ch x hp hx hmin => ?_⟩
    · have := k c h1
      rw [hc c h1] at this
      exact absurd this ((target_isSome _).1 ⟨y, h2⟩)
    · rw [h4]
      rw [hc ch hp] at hx
      have e1 := h3 ch x hp hx
      have e2 := hmin c y h1 (by rw [hc c h1]; exact h2)
      rw [Nat.le_antisymm e1 e2]

/-! ## The commands -/

/-- The invariant reads NOW and the scheduler only. -/
theorem State.SchedInv.congr {s t : State} (h : s.SchedInv) (hn : t.now = s.now) (hs : t.sched = s.sched) : t.SchedInv := by
  rw [schedInv_iff] at *
  refine ⟨fun ch => ?_, fun p => (h.2 p).congr hn (State.timer_congr hs p) fun ch _ => State.chan_congr hs ch⟩
  rw [hn, State.chan_congr hs, State.output_congr hs, State.chanEnabled, hs]
  exact h.1 ch

/-- The invariant after the rearbitration that ends a command. -/
theorem rearbitrate_schedInv (s : State) (p : Periph)
    (hc : ∀ ch : Chan, ChanOk s.now (s.chanEnabled ch) (s.output ch) (s.chan ch))
    (ht : ∀ q, q ≠ p → s.TimerOk q) : (s.rearbitrate p).SchedInv := by
  rw [schedInv_iff]
  refine ⟨fun ch => rearbitrate_chanOk s p ch (hc ch), fun q => ?_⟩
  by_cases h : q = p
  · subst h; exact rearbitrate_timerOk s q fun ch x _ hx => (hc ch).target_ahead x hx
  · exact rearbitrate_timerOk_ne s p q h (ht q h)

/-- A request that misses no compare keeps its channel's part (R214, R221 to R223). -/
theorem request_chanOk (now d u : Word) (c : Channel) (out : Bool) (h : ChanOk now true out c) (hd : d.toNat < 2 ^ 31)
    (hu : u.toNat < 2 ^ 31)
    (hm : ¬ ((c.request now (now + d) (now + d + u) u).status = .pending ∧
      (c.request now (now + d) (now + d + u) u).startTarget = now)) :
    ChanOk now true out (c.request now (now + d) (now + d + u) u) := by
  have armed : out = false → ¬ (now + d = now) → ChanOk now true out ⟨.pending, now + d, now + d + u, u⟩ := by
    intro ho hne
    refine ⟨by simp [ho], fun k => by simp at k, fun x hx => ?_, fun _ => ?_, ?_⟩
    · simp only [Channel.target?, Option.some.injEq] at hx
      rw [← hx, Ne, off_eq_zero]; exact hne
    · simp only
      rw [off_add_add now d u hd hu, off_add]; omega
    · simp only
      rw [BitVec.add_comm (now + d) u, BitVec.add_sub_cancel]
  cases hs : c.status with
  | off =>
    rw [request_off _ _ _ _ hs] at *
    exact armed (by simpa [hs] using h.out_running) (fun e => hm ⟨rfl, e⟩)
  | pending =>
    rw [request_pending _ _ _ _ hs hd hu] at *
    have ho : out = false := by simpa [hs] using h.out_running
    split
    · rename_i h1
      rw [if_pos h1] at hm
      exact armed ho (fun e => hm ⟨rfl, e⟩)
    · split
      · refine ⟨by simp [hs, ho], fun k => by simp at k, fun x hx => ?_, fun _ => ?_, rfl⟩
        · simp only [Channel.target?, hs, Option.some.injEq] at hx
          exact h.target_ahead x (by simp [Channel.target?, hs, hx])
        · have := h.start_before_end hs
          simp only
          rw [off_add_add now d u hd hu]; omega
      · exact h
  | running =>
    rw [request_running _ _ _ _ hs hd hu] at *
    have ho : out = true := by simpa [hs] using h.out_running
    split
    · rename_i h1
      refine ⟨by simp [hs, ho], fun k => by simp at k, fun x hx => ?_, fun k => by simp [hs] at k, rfl⟩
      simp only [Channel.target?, hs, Option.some.injEq] at hx
      rw [← hx]
      intro k
      have := off_add_add now d u hd hu
      rw [k] at this
      simp at this
      omega
    · exact h

end Sys2Proof.Machine
end

