-- ==== Sys2Proof/Laws/PerInstr.lean ====
section
/-! SUPPORT. The per-instruction family `Fields`: the CMD word the encoder writes has the instruction's OP and IDX and no
reserved bit (30_encoding.md R91), and a well-formed instruction decodes back from its words (R93 to R95). -/

namespace Sys2Proof.Laws.Fields

/-- What the family says of an instruction. -/
def Statement (i : Instr) : Prop :=
  rsvField (encode i).cmd = 0 ∧ opField (encode i).cmd = i.opcode ∧ idxField (encode i).cmd = i.idx ∧
    (i.wellFormed = true → decode (encode i) = .ok i)

/-- The low bits of a zero-extended operand are the operand (R95). -/
theorem extract_zeroExtend {w : Nat} (x : BitVec w) (h : w ≤ 32) : (x.setWidth 32).extractLsb' 0 w = x := by
  apply BitVec.eq_of_toNat_eq
  have := x.isLt
  have h2 : 2 ^ w ≤ 2 ^ 32 := Nat.pow_le_pow_right (by decide) h
  rw [BitVec.extractLsb'_toNat, Nat.shiftRight_zero, BitVec.toNat_setWidth,
    Nat.mod_eq_of_lt (a := x.toNat) (by omega), Nat.mod_eq_of_lt this]

/-- The family from the row of the opcode map: the row's instruction is i, and its format decodes what is well formed. -/
theorem of_row (i : Instr) (f : Format) (h : opcodeRow i.opcode i.idx i.opa i.opb = some (f, i))
    (hl : i.wellFormed = true → f.legalIdx i.idx = true) : Statement i :=
  ⟨by simp [encode], by simp [encode], by simp [encode], fun k => by
    rw [encode, decode_cmdWord _ _ _ _ f i h, if_pos (hl k)]⟩

theorem nop : Statement .nop := of_row _ .c0 rfl (fun _ => rfl)

theorem tdSetup : Statement .tdSetup := of_row _ .c0 rfl (fun _ => rfl)

theorem tdPrimaryEdge : Statement .tdPrimaryEdge := of_row _ .c0 rfl (fun _ => rfl)

theorem tdSecondaryEdge : Statement .tdSecondaryEdge := of_row _ .c0 rfl (fun _ => rfl)

theorem tdGetRpm : Statement .tdGetRpm := of_row _ .c0 rfl (fun _ => rfl)

theorem tdGetCrankAngle (m : Byte) : Statement (.tdGetCrankAngle m) := of_row _ .cm rfl (fun h => h)

theorem tdStallCheck : Statement .tdStallCheck := of_row _ .c0 rfl (fun _ => rfl)

theorem tdSnapshot : Statement .tdSnapshot := of_row _ .c0 rfl (fun _ => rfl)

theorem regRead (reg : Byte) (bank : Bool) : Statement (.regRead reg bank) := of_row _ .cr (by cases bank <;> simp [opcodeRow, Instr.opcode, Instr.idx, Instr.opa, bankOperand]) (fun _ => rfl)

theorem cfgWrite (reg : Byte) (value : Word) : Statement (.cfgWrite reg value) := of_row _ .cr rfl (fun _ => rfl)

theorem stickyClear (mask : BitVec 7) : Statement (.stickyClear mask) := of_row _ .c0 (by simp [opcodeRow, Instr.opcode, Instr.opa, maskOperand, extract_zeroExtend]) (fun _ => rfl)

theorem logRead (i : Byte) : Statement (.logRead i) := of_row _ .cl rfl (fun _ => rfl)

theorem logClear : Statement .logClear := of_row _ .c0 rfl (fun _ => rfl)

theorem cmAngleToTime (m : Byte) (angle : Half) : Statement (.cmAngleToTime m angle) := of_row _ .cm (by simp [opcodeRow, Instr.opcode, Instr.idx, Instr.opa, angleOperand, extract_zeroExtend]) (fun h => h)

theorem cmTimeToAngle (m : Byte) (time : Word) : Statement (.cmTimeToAngle m time) := of_row _ .cm rfl (fun h => h)

theorem cmSpeedCalcs : Statement .cmSpeedCalcs := of_row _ .c0 rfl (fun _ => rfl)

theorem cmIgnitionLimits (angle : Half) : Statement (.cmIgnitionLimits angle) := of_row _ .c0 (by simp [opcodeRow, Instr.opcode, Instr.opa, angleOperand, extract_zeroExtend]) (fun _ => rfl)

theorem schInit : Statement .schInit := of_row _ .c0 rfl (fun _ => rfl)

theorem schSchedule (ch : Byte) (delay duration : Word) : Statement (.schSchedule ch delay duration) := of_row _ .cc rfl (fun h => h)

theorem schCancel (ch : Byte) : Statement (.schCancel ch) := of_row _ .cc rfl (fun h => h)

theorem schStatus (ch : Byte) : Statement (.schStatus ch) := of_row _ .cc rfl (fun h => h)

end Sys2Proof.Laws.Fields
end

