-- ==== Sys2Proof/Laws/Registers.lean ====
section
/-! SUPPORT. The register map as a table (10_state.md R60 to R63): which number names which register, which are writable, and
what a read after a write gives. -/

namespace Sys2Proof.Machine

/-! ### Numbers and names -/

/-- A number in the configuration table's range. -/
theorem ofNumber?_table (i : Fin Config.tableMax) : Reg.ofNumber? (BitVec.ofNat 8 (0x40 + i.val)) = some (.cfgTable i) := by
  have hi : i.val < 64 := i.isLt
  have e : (BitVec.ofNat 8 (0x40 + i.val)).toNat = 0x40 + i.val := by
    rw [BitVec.toNat_ofNat]; exact Nat.mod_eq_of_lt (by omega)
  rw [Reg.ofNumber?, e, if_neg (by omega), if_neg (by omega), if_pos (by omega),
    dif_pos (show 0x40 + i.val - 0x40 < Config.tableMax by exact (by omega : 0x40 + i.val - 0x40 < 64))]
  congr 2
  exact Fin.ext (by simp)

/-- A number in the channels' range. -/
theorem ofNumber?_channel (ch : Chan) (k : Nat) (hk : k < 4) :
    Reg.ofNumber? (BitVec.ofNat 8 (0x80 + k + 4 * ch.val)) = some (Reg.ofChannel ch k) := by
  have hc : ch.val < 16 := ch.isLt
  have e : (BitVec.ofNat 8 (0x80 + k + 4 * ch.val)).toNat = 0x80 + k + 4 * ch.val := by
    rw [BitVec.toNat_ofNat]; exact Nat.mod_eq_of_lt (by omega)
  have h : (0x80 + k + 4 * ch.val - 0x80) / 4 < 16 := by omega
  rw [Reg.ofNumber?, e, if_neg (by omega), if_neg (by omega), if_neg (by omega), if_pos (by omega), dif_pos h]
  have h1 : (⟨(0x80 + k + 4 * ch.val - 0x80) / 4, h⟩ : Chan) = ch :=
    Fin.ext (show (0x80 + k + 4 * ch.val - 0x80) / 4 = ch.val by omega)
  have h2 : (0x80 + k + 4 * ch.val - 0x80) % 4 = k := by omega
  rw [h1, h2]

/-- A register's number names it (R60). -/
theorem ofNumber?_number (r : Reg) : Reg.ofNumber? (BitVec.ofNat 8 r.number) = some r := by
  cases r
  case tpd16 m => revert m; decide
  case dpu32768 m => revert m; decide
  case compare p => revert p; decide
  case armed p => revert p; decide
  case cfgTable i => exact ofNumber?_table i
  case chStatus ch => exact ofNumber?_channel ch 0 (by decide)
  case startTarget ch => exact ofNumber?_channel ch 1 (by decide)
  case endTarget ch => exact ofNumber?_channel ch 2 (by decide)
  case duration ch => exact ofNumber?_channel ch 3 (by decide)
  all_goals rfl

/-- The number of the register a byte names is that byte. -/
theorem number_of_ofNumber? (n : Byte) (r : Reg) (h : Reg.ofNumber? n = some r) : r.number = n.toNat := by
  have key : ∀ n : Byte, ((Reg.ofNumber? n).map Reg.number).all (fun k => k == n.toNat) = true := by decide
  have := key n
  rw [h] at this
  simpa using this

/-- The register map has no two names for one number and no two numbers for one name (R60). -/
theorem ofNumber?_eq_some (n : Byte) (r : Reg) : Reg.ofNumber? n = some r ↔ r.number = n.toNat := by
  refine ⟨number_of_ofNumber? n r, fun h => ?_⟩
  rw [← ofNumber?_number r, h, BitVec.ofNat_toNat, BitVec.setWidth_eq]

/-- The reserved numbers (R62). -/
theorem ofNumber?_eq_none (n : Byte) : Reg.ofNumber? n = none ↔
    (0x18 ≤ n.toNat ∧ n.toNat ≤ 0x1F) ∨ (0x2B ≤ n.toNat ∧ n.toNat ≤ 0x3F) ∨ 0xC6 ≤ n.toNat := by
  have key : ∀ n : Byte, ((Reg.ofNumber? n).isNone = true ↔
      (0x18 ≤ n.toNat ∧ n.toNat ≤ 0x1F) ∨ (0x2B ≤ n.toNat ∧ n.toNat ≤ 0x3F) ∨ 0xC6 ≤ n.toNat) := by decide
  rw [← Option.isNone_iff_eq_none]
  exact key n

/-- The RW registers (R60). -/
theorem writable_iff (r : Reg) : r.writable = true ↔
    (0x20 ≤ r.number ∧ r.number ≤ 0x2A) ∨ (0x40 ≤ r.number ∧ r.number ≤ 0x7F) := by
  cases r <;> first | decide | (rename_i i; revert i; decide)

/-- The widths of the RW registers (R60). -/
theorem width_of_writable (r : Reg) (h : r.writable = true) : r.width =
    if r.number = 0x20 ∨ 0x28 ≤ r.number ∧ r.number ≤ 0x2A then 8
    else if r.number = 0x23 ∨ r.number = 0x24 then 32 else 16 := by
  cases r <;> first | rfl | exact absurd h Bool.false_ne_true | (rename_i i; revert i; decide)

/-- The RW registers that are not the decoder's (R252). -/
theorem clearsConfigured_iff (r : Reg) : r.clearsConfigured = true ↔
    r.writable = true ∧ r.number ≠ 0x29 ∧ r.number ≠ 0x2A := by
  cases r <;> first | decide | (rename_i i; revert i; decide)

/-! ### Reading -/

/-- A live read of a register the map names. -/
theorem execRegRead_live (s : State) (n : Byte) (r : Reg) (h : Reg.ofNumber? n = some r) :
    execRegRead n false s = .next (s.ret .ok (s.readReg r)) := by
  unfold execRegRead
  rw [if_neg (by decide), h]

/-- A live read of a reserved number (R62). -/
theorem execRegRead_reserved (s : State) (n : Byte) (h : Reg.ofNumber? n = none) :
    execRegRead n false s = .next (s.ret .range) := by
  unfold execRegRead
  rw [if_neg (by decide), h]

/-- A snapshot read (R46, R254). -/
theorem execRegRead_snap (s : State) (n : Byte) :
    execRegRead n true s = .next (if h : n.toNat < 24 then s.ret .ok s.snap[n.toNat] else s.ret .range) := rfl

/-- The word of the snapshot is a live read's (R257). -/
theorem snapWord_eq (s : State) (i : Fin Config.snapSize) (r : Reg) (h : Reg.ofNumber? (BitVec.ofNat 8 i.val) = some r) :
    s.snapWord i = s.readReg r := by
  have hi : i.val < 24 := i.isLt
  have : Reg.low? i.val = some r := by
    rw [← h, Reg.ofNumber?]
    have : (BitVec.ofNat 8 i.val).toNat = i.val := by
      rw [BitVec.toNat_ofNat]; exact Nat.mod_eq_of_lt (by omega)
    rw [this]
    exact (if_pos (by omega)).symm
  rw [State.snapWord, this]

/-- Every number below 0x18 names a register. -/
theorem ofNumber?_low (i : Fin Config.snapSize) : ∃ r, Reg.ofNumber? (BitVec.ofNat 8 i.val) = some r := by
  have key : ∀ i : Fin Config.snapSize, (Reg.ofNumber? (BitVec.ofNat 8 i.val)).isSome = true := by decide
  exact Option.isSome_iff_exists.1 (key i)

/-! ### Writing -/

/-- The state an accepted CFG_WRITE leaves. -/
def State.written (s : State) (r : Reg) (v : Word) : State :=
  { s with
      cfg := s.cfg.write r v
      dec := if r.clearsConfigured then { s.dec with configured := false } else s.dec }.ret .ok

theorem execCfgWrite_accepted (s : State) (n : Byte) (v : Word) (r : Reg) (h : Reg.ofNumber? n = some r)
    (hw : r.writable = true) (hv : v.toNat < 2 ^ r.width) : execCfgWrite n v s = .next (s.written r v) := by
  unfold execCfgWrite
  rw [h]
  dsimp only
  rw [if_neg (by simp [hw]), if_neg (by omega)]
  rfl

/-- A read after a write gives the value written. -/
theorem readReg_written (s : State) (r : Reg) (v : Word) (hw : r.writable = true) (hv : v.toNat < 2 ^ r.width) :
    (s.written r v).readReg r = v := by
  have h8 : v.toNat < 2 ^ 8 → (v.truncate 8).zeroExtend 32 = v := fun h => by
    apply BitVec.eq_of_toNat_eq
    simp only [BitVec.truncate, BitVec.zeroExtend, BitVec.toNat_setWidth]
    omega
  have h16 : v.toNat < 2 ^ 16 → (v.truncate 16).zeroExtend 32 = v := fun h => by
    apply BitVec.eq_of_toNat_eq
    simp only [BitVec.truncate, BitVec.zeroExtend, BitVec.toNat_setWidth]
    omega
  cases r <;> first
    | exact h8 hv
    | exact h16 hv
    | rfl
    | exact absurd hw Bool.false_ne_true
    | (rename_i i
       refine Eq.trans ?_ (h16 hv)
       show BitVec.zeroExtend 32 (Vector.set s.cfg.table i (v.truncate 16))[i] = _
       rw [Fin.getElem_fin, Vector.getElem_set_self])

/-- A write leaves every other register as it was, but for CONFIGURED in TD_STATUS. -/
theorem readReg_written_ne (s : State) (r r' : Reg) (v : Word) (h : r' ≠ r) (h0 : r' ≠ .tdStatus) :
    (s.written r v).readReg r' = s.readReg r' := by
  have hd : ∀ {α : Type} (f : Decoder → α), (∀ b, f { s.dec with configured := b } = f s.dec) →
      f (s.written r v).dec = f s.dec := by
    intro α f hf
    show f (if r.clearsConfigured then { s.dec with configured := false } else s.dec) = _
    split
    · exact hf false
    · rfl
  cases r'
  case tdStatus => exact absurd rfl h0
  case tpd16 m => exact hd (fun d => d.tpd16[m]) fun _ => rfl
  case dpu32768 m => exact hd (fun d => d.dpu32768[m]) fun _ => rfl
  case toothCount => exact hd (fun d => d.toothCount.zeroExtend 32) fun _ => rfl
  case validTeeth => exact hd (fun d => d.validTeeth.zeroExtend 32) fun _ => rfl
  case syncLossCount => exact hd (fun d => d.syncLossCount.zeroExtend 32) fun _ => rfl
  case graceTeeth => exact hd (fun d => d.graceTeeth.zeroExtend 32) fun _ => rfl
  case toothLastTime => exact hd (·.toothLastTime) fun _ => rfl
  case toothLastMinusOneTime => exact hd (·.toothLastMinusOneTime) fun _ => rfl
  case toothGap => exact hd (·.toothGap) fun _ => rfl
  case toothOneTime => exact hd (·.toothOneTime) fun _ => rfl
  case toothOneMinusOneTime => exact hd (·.toothOneMinusOneTime) fun _ => rfl
  case regGap => exact hd (·.regGap) fun _ => rfl
  case regSpan => exact hd (fun d => d.regSpan.zeroExtend 32) fun _ => rfl
  case rpmReg => exact hd (fun d => d.rpmReg.zeroExtend 32) fun _ => rfl
  case secLastTime => exact hd (·.secLastTime) fun _ => rfl
  case toothAngle => exact hd (fun d => d.toothAngle.zeroExtend 32) fun _ => rfl
  case cfgTable j =>
    cases r
    case cfgTable i =>
      have : i.val ≠ j.val := fun e => h (by rw [Fin.ext e])
      show BitVec.zeroExtend 32 (Vector.set s.cfg.table i (v.truncate 16))[j] = BitVec.zeroExtend 32 s.cfg.table[j]
      rw [Fin.getElem_fin, Vector.getElem_set_ne _ _ this]
      rfl
    all_goals rfl
  all_goals first
    | rfl
    | (cases r <;> first | rfl | exact absurd rfl h)

end Sys2Proof.Machine
end

