-- ==== Sys2Proof/Tests/Slice0.lean ====
section
/-! SUPPORT. Tests on fixed values: the smoke tests of well-formedness, the words of 30_encoding.md R101 and of
95_test_vectors.md 2.1 decoded, one step of each command with the result 95_test_vectors.md gives it, and for every
statement with hypotheses a concrete state and operands that meet them. The vector or rule a value comes from is named
beside it. -/

namespace Sys2Proof.Tests

open Sys2Proof.Machine

/-! ## Well-formedness (R92) -/

theorem test_method_4_well_formed : (Instr.tdGetCrankAngle 4).wellFormed = true := by decide
theorem test_method_5_ill_formed : (Instr.tdGetCrankAngle 5).wellFormed = false := by decide
theorem test_angle_to_time_method_5_ill_formed : (Instr.cmAngleToTime 5 0).wellFormed = false := by decide
theorem test_time_to_angle_method_255_ill_formed : (Instr.cmTimeToAngle 255 0).wellFormed = false := by decide
theorem test_channel_15_well_formed : (Instr.schSchedule 15 0 0).wellFormed = true := by decide
theorem test_channel_16_ill_formed : (Instr.schSchedule 16 0 0).wellFormed = false := by decide
theorem test_cancel_channel_16_ill_formed : (Instr.schCancel 16).wellFormed = false := by decide
theorem test_status_channel_16_ill_formed : (Instr.schStatus 16).wellFormed = false := by decide
theorem test_c0_index_1_illegal : Format.c0.legalIdx 1 = false := by decide
theorem test_register_255_well_formed : (Instr.regRead 255 false).wellFormed = true := by decide
theorem test_roles : Agent.primary.mayIssue .tdPrimaryEdge = true ∧ Agent.primary.mayIssue .tdSecondaryEdge = false ∧
    Agent.tick.mayIssue .tdStallCheck = true ∧ Agent.timebase.mayIssue .nop = false ∧
    (Operation.command .secondary ⟨0x03, 0, 0⟩).inRole = true ∧ (Operation.command .tick ⟨0x03, 0, 0⟩).inRole = false := by
  decide

/-! ## Decoding: one word of every row, from R93's map and R101's and 95_test_vectors.md 2.1's words -/

theorem test_decode_nop : decode ⟨0x00000000, 0, 0⟩ = .ok .nop := by decide
theorem test_decode_td_setup : decode ⟨0x00000001, 0, 0⟩ = .ok .tdSetup := by decide
theorem test_decode_td_primary_edge : decode ⟨0x00000002, 0, 0⟩ = .ok .tdPrimaryEdge := by decide
theorem test_decode_td_secondary_edge : decode ⟨0x00000003, 0, 0⟩ = .ok .tdSecondaryEdge := by decide
theorem test_decode_td_get_rpm : decode ⟨0x00000004, 0, 0⟩ = .ok .tdGetRpm := by decide
theorem test_decode_td_get_crank_angle : decode ⟨0x00000105, 0, 0⟩ = .ok (.tdGetCrankAngle 1) := by decide
theorem test_decode_td_stall_check : decode ⟨0x00000006, 0, 0⟩ = .ok .tdStallCheck := by decide
theorem test_decode_td_snapshot : decode ⟨0x00000007, 0, 0⟩ = .ok .tdSnapshot := by decide
theorem test_decode_reg_read : decode ⟨0x00000C08, 0x00000001, 0⟩ = .ok (.regRead 0x0C true) := by decide
theorem test_decode_reg_read_bank_bit_only : decode ⟨0x0000FF08, 0xFFFFFFFE, 7⟩ = .ok (.regRead 0xFF false) := by decide
theorem test_decode_cfg_write : decode ⟨0x00002109, 0x00000024, 0⟩ = .ok (.cfgWrite 0x21 36) := by decide
theorem test_decode_sticky_clear : decode ⟨0x0000000A, 0xFFFFFF81, 0⟩ = .ok (.stickyClear 1) := by decide
theorem test_decode_log_read : decode ⟨0x0000FF0B, 0, 0⟩ = .ok (.logRead 255) := by decide
theorem test_decode_log_clear : decode ⟨0x0000000C, 0, 0⟩ = .ok .logClear := by decide
theorem test_decode_angle_to_time : decode ⟨0x00000010, 0x0000FFA6, 0⟩ = .ok (.cmAngleToTime 0 (-90)) := by decide
theorem test_decode_time_to_angle : decode ⟨0x00000411, 0x0000000A, 0⟩ = .ok (.cmTimeToAngle 4 10) := by decide
theorem test_decode_speed_calcs : decode ⟨0x00000012, 0, 0⟩ = .ok .cmSpeedCalcs := by decide
theorem test_decode_ignition_limits : decode ⟨0x00000013, 0x0000FFF6, 0⟩ = .ok (.cmIgnitionLimits (-10)) := by decide
theorem test_decode_sch_init : decode ⟨0x00000020, 0, 0⟩ = .ok .schInit := by decide
theorem test_decode_sch_schedule : decode ⟨0x00000921, 0x000003E8, 0x000001F4⟩ = .ok (.schSchedule 9 1000 500) := by decide
theorem test_decode_sch_cancel : decode ⟨0x00000522, 0, 0⟩ = .ok (.schCancel 5) := by decide
theorem test_decode_sch_status : decode ⟨0x00000F23, 0, 0⟩ = .ok (.schStatus 15) := by decide

theorem test_decode_reserved_field : decode ⟨0x00010000, 0, 0⟩ = .error .reservedField := by decide
theorem test_decode_c0_index : decode ⟨0x00000101, 0, 0⟩ = .error .indexNotZero := by decide
theorem test_decode_method_5 : decode ⟨0x00000505, 0, 0⟩ = .error .methodOutOfRange := by decide
theorem test_decode_channel_16 : decode ⟨0x00001021, 0, 0⟩ = .error .channelOutOfRange := by decide
theorem test_decode_op_0d : decode ⟨0x0000000D, 0, 0⟩ = .error .unknownOpcode := by decide
theorem test_decode_op_ff : decode ⟨0x000000FF, 0, 0⟩ = .error .unknownOpcode := by decide

/-- The bytes of `SCH_SCHEDULE 9, 1000, 500` on a byte-wide link (R72), and eleven bytes, which are no transaction. -/
theorem test_decode_bytes :
    decodeBytes [0x21, 0x09, 0, 0, 0xE8, 0x03, 0, 0, 0xF4, 0x01, 0, 0, 0x99] = .ok (.schSchedule 9 1000 500, [0x99]) ∧
    decodeBytes [0x21, 0x09, 0, 0, 0xE8, 0x03, 0, 0, 0xF4, 0x01, 0] = .error .truncated := by decide

theorem test_table_word : decodeTableWord 32 0x0105 = some (.tdGetCrankAngle 1) ∧
    decodeTableWord 32 0x00010000 = none ∧ decodeTableWord 96 0x000001F4000003E800000921 = some (.schSchedule 9 1000 500) := by
  decide

/-! ## One step: helpers -/

/-- The outcome is a next state with this status and these results. -/
def answers (o : Host.Outcome State Fault Refusal) (status : Byte) (r0 r1 : Word) : Bool :=
  match o with
  | .next t => decide (t.iface = ⟨status, r0, r1⟩)
  | _ => false

/-- The outcome is a next state of which p holds. -/
def leaves (o : Host.Outcome State Fault Refusal) (p : State → Bool) : Bool :=
  match o with
  | .next t => p t
  | _ => false

/-- A live register as a number (R60). -/
def reg (t : State) (r : Reg) : Nat := (t.readReg r).toNat

/-- The 12-1 wheel of D-E1 to D-E9. -/
def wheelCfg : ConfigRegs :=
  { ConfigRegs.reset with teeth := 12, missing := 1, debounce := 100, maxStall := 50000, syncConfirm := 1, cycle := 360
                          flags := 1 }

/-- A configured decoder on the 12-1 wheel at a time. -/
def wheel (now : Word) (d : Decoder) : State :=
  { State.reset with now := now, cfg := wheelCfg, dec := { d with configured := true, toothAngle := 30 } }

/-- The decoder after the tooth at 1000 (D-E1). -/
def oneTooth : Decoder := { Decoder.reset with toothLastTime := 1000, teethSeen := 1, toothCount := 1 }

/-- The decoder after the teeth at 1000 and 2000. -/
def twoTeeth : Decoder :=
  { Decoder.reset with
    toothLastTime := 2000, toothLastMinusOneTime := 1000, toothGap := 1000, teethSeen := 2, toothCount := 2
    regGap := 1000, regSpan := 30, regValid := true, tpd16 := #v[0, 0, 533], dpu32768 := #v[0, 0, 983] }

/-- The decoder after the teeth at 1000, 2000, 4000, 5000 and 6000 (D-E6 before its last edge). -/
def syncedTeeth : Decoder :=
  { twoTeeth with
    toothLastTime := 6000, toothLastMinusOneTime := 5000, toothCount := 3, hasSync := true, revFlag := true, revSeen := 1
    validTeeth := 3, toothOneTime := 4000, rpmReg := 5000, tpd16 := #v[533, 0, 533], dpu32768 := #v[983, 0, 983] }

/-- The decoder of D-E14: in grace, ten teeth of it counted. -/
def graceTeeth : Decoder :=
  { syncedTeeth with
    toothLastTime := 26000, toothLastMinusOneTime := 25000, toothCount := 22, hasSync := false, validTeeth := 0
    syncLossCount := 1, graceActive := true, graceTeeth := 10, revSeen := 0 }

/-- Program P3 before its row 26: the dual wheel of four teeth, tooth 4 at 28500. -/
def dualWheel (now : Word) : State :=
  { State.reset with
    now := now
    cfg := { ConfigRegs.reset with
      pattern := 1, teeth := 4, debounce := 50, maxStall := 20000, syncConfirm := 2, cycle := 720, flags := 2 }
    dec := { Decoder.reset with
      configured := true, toothAngle := 90, toothLastTime := 28500, toothLastMinusOneTime := 26000, toothGap := 2500
      teethSeen := 2, hasSync := true, toothCount := 4, revFlag := true, validTeeth := 8, toothOneTime := 21000
      toothOneMinusOneTime := 11000, revSeen := 2, regGap := 2500, regSpan := 90, regValid := true, rpmReg := 6000
      tpd16 := #v[444, 444, 444], dpu32768 := #v[1180, 1180, 1180], secLastTime := 29000, secSeen := true } }

/-- Program P4 before its row 19: the angle table 0, 90, 180, 300, tooth 4 at 18333. -/
def tableWheel (now : Word) : State :=
  { State.reset with
    now := now
    cfg := { ConfigRegs.reset with
      pattern := 2, teeth := 4, maxStall := 100000, syncConfirm := 1, cycle := 360
      table := (((Vector.replicate _ 0).set 1 90).set 2 180).set 3 300 }
    dec := { Decoder.reset with
      configured := true, toothLastTime := 18333, toothLastMinusOneTime := 15000, toothGap := 3333, teethSeen := 2
      hasSync := true, toothCount := 4, validTeeth := 4, toothOneTime := 10000, revSeen := 1, regGap := 3333
      regSpan := 120, regValid := true, rpmReg := 6000, tpd16 := #v[444, 0, 444], dpu32768 := #v[1180, 0, 1180]
      secLastTime := 9900, secSeen := true } }

/-- Every channel enabled (the setup of D-S1 to D-S11), at a time. -/
def enabledAt (now : Word) : State :=
  { State.reset with
    now := now, cfg := { ConfigRegs.reset with fuelCh := 8, ignCh := 8 }
    sched := { Scheduler.reset with enabled := 0xFFFF } }

/-- Channel 0 PENDING from 0, start 1000, end 1500 (S5), at a time. -/
def pendingAt (now : Word) : State :=
  { enabledAt now with
    sched := { (enabledAt now).sched with
      channels := (enabledAt now).sched.channels.set 0 ⟨.pending, 1000, 1500, 500⟩
      timers := (enabledAt now).sched.timers.set 0 ⟨1000, true⟩ } }

/-- Channel 0 RUNNING to 1500, at a time. -/
def runningAt (now : Word) : State :=
  { enabledAt now with
    sched := { (enabledAt now).sched with
      channels := (enabledAt now).sched.channels.set 0 ⟨.running, 1000, 1500, 500⟩
      timers := (enabledAt now).sched.timers.set 0 ⟨1500, true⟩
      out := 1 } }

/-! ## One step of each command -/

/-- D-G14. -/
theorem test_nop : answers (exec .nop { State.reset with iface := ⟨9, 7, 7⟩ }) 0 0 0 = true := by decide

/-- D-T1. -/
theorem test_setup_ok :
    leaves (exec .tdSetup (wheel 0 Decoder.reset)) (fun t => t.iface.status == 0 && reg t .toothAngle == 30
      && reg t .tdStatus == 0x8) = true := by decide
/-- D-T8. -/
theorem test_setup_misconfig :
    leaves (exec .tdSetup { wheel 0 Decoder.reset with cfg := { wheelCfg with missing := 11 } }) (fun t =>
      t.iface == ⟨7, 0, 0⟩ && t.sticky == 0x10 && t.dec.toothAngle == 30 && !t.dec.configured) = true := by decide

/-- D-E3. -/
theorem test_primary_edge_gap :
    leaves (exec .tdPrimaryEdge (wheel 1100 oneTooth)) (fun t => t.iface == ⟨0, 0, 0⟩ && t.dec.toothCount == 2
      && t.dec.toothGap == 100 && t.dec.tpd16[2] == 53 && t.dec.dpu32768[2] == 9892 && reg t .tdStatus == 0x248
      && t.log.buf[0] == 100 && t.log.wr == 1) = true := by decide
/-- D-E5. -/
theorem test_primary_edge_sync :
    leaves (exec .tdPrimaryEdge (wheel 3500 twoTeeth)) (fun t => t.iface == ⟨0, 0, 0⟩ && t.dec.toothCount == 1
      && t.dec.validTeeth == 1 && t.dec.rpmReg == 5000 && reg t .tdStatus == 0x2CB) = true := by decide

/-- Program P3 row 24. -/
theorem test_secondary_edge_at_tooth_n :
    leaves (exec .tdSecondaryEdge (dualWheel 29200)) (fun t => t.iface == ⟨0, 0, 0⟩ && t.dec.toothCount == 4
      && t.dec.hasSync && t.dec.secLastTime == 29200) = true := by decide
/-- D-X6. -/
theorem test_secondary_edge_loss :
    leaves (exec .tdSecondaryEdge { tableWheel 26000 with dec := { (tableWheel 26000).dec with toothCount := 3 } }) (fun t =>
      t.iface == ⟨2, 0, 0⟩ && !t.dec.hasSync && t.dec.graceActive && t.dec.syncLossCount == 1 && t.sticky == 1) = true := by
  decide

/-- D-Q5 with RPM_REG 5000. -/
theorem test_get_rpm : answers (exec .tdGetRpm (wheel 6000 syncedTeeth)) 0 5000 0 = true := by decide
/-- D-Q1. -/
theorem test_get_rpm_unconfigured : answers (exec .tdGetRpm State.reset) 6 0 0 = true := by decide

/-- D-Q10. -/
theorem test_get_crank_angle_table :
    answers (exec (.tdGetCrankAngle 2) { tableWheel 25000 with
      dec := { (tableWheel 25000).dec with toothCount := 2, toothLastTime := 22500 } }) 0 180 1 = true := by decide
/-- D-Q2. -/
theorem test_get_crank_angle_refused : answers (exec (.tdGetCrankAngle 3) State.reset) 10 0 0 = true := by decide

/-- S4, at 79000 and 79001. -/
theorem test_stall_check_boundary :
    answers (exec .tdStallCheck (wheel 79000 { syncedTeeth with toothLastTime := 29000 })) 0 0 0 = true := by decide
theorem test_stall_check_stalled :
    leaves (exec .tdStallCheck (wheel 79001 { syncedTeeth with toothLastTime := 29000 })) (fun t =>
      t.iface == ⟨3, 0, 0⟩ && reg t .tdStatus == 0x8 && t.sticky == 2 && t.dec.rpmReg == 0) = true := by decide

/-- D-G11: RPM_REG in the snapshot. -/
theorem test_snapshot :
    leaves (exec .tdSnapshot (tableWheel 28333)) (fun t => t.iface == ⟨0, 0, 0⟩ && t.snap[0x0C] == 6000
      && t.snap[0x0F] == 28333) = true := by decide

/-- D-G9. -/
theorem test_reg_read_now : answers (exec (.regRead 0x0F false) { State.reset with now := 29500 }) 0 29500 0 = true := by
  decide
/-- D-G8. -/
theorem test_reg_read_snap_range : answers (exec (.regRead 0x18 true) State.reset) 9 0 0 = true := by decide

/-- D-G1. -/
theorem test_cfg_write : leaves (exec (.cfgWrite 0x21 36) (wheel 0 Decoder.reset)) (fun t =>
    t.iface == ⟨0, 0, 0⟩ && t.cfg.teeth == 36 && !t.dec.configured) = true := by decide
/-- D-G2. -/
theorem test_cfg_write_range : leaves (exec (.cfgWrite 0x20 256) (wheel 0 Decoder.reset)) (fun t =>
    t.iface == ⟨9, 0, 0⟩ && t.cfg == wheelCfg && t.dec.configured) = true := by decide

/-- D-G12. -/
theorem test_sticky_clear : leaves (exec (.stickyClear 0x01) { State.reset with sticky := 0x47 }) (fun t =>
    t.iface == ⟨0, 0, 0⟩ && t.sticky == 0x46) = true := by decide

/-- D-L4 and D-L5. -/
theorem test_log_read :
    answers (exec (.logRead 63) { State.reset with log := ⟨Vector.replicate _ 1000, 64, true⟩ }) 0 1000 0 = true := by decide
theorem test_log_read_range : answers (exec (.logRead 64) State.reset) 9 0 0 = true := by decide
/-- D-L6. -/
theorem test_log_clear :
    leaves (exec .logClear { State.reset with log := ⟨Vector.replicate _ 1000, 64, true⟩ }) (fun t =>
      t.iface == ⟨0, 0, 0⟩ && t.log.wr == 0 && !t.log.full && t.log.buf[0] == 1000) = true := by decide

/-- The -2998 of R125's example on a byte-wide link (R72). -/
theorem test_result_bytes : (⟨0, 0xFFFFF44A, 1⟩ : Iface).res0Bytes = [0x4A, 0xF4, 0xFF, 0xFF] ∧
    (⟨0, 0xFFFFF44A, 1⟩ : Iface).res1Bytes = [1, 0, 0, 0] := by decide

/-- D-M14. -/
theorem test_angle_to_time : answers (exec (.cmAngleToTime 0 (-32768)) (wheel 0 syncedTeeth)) 0 0xFFEF5800 0 = true := by
  decide
/-- D-M18 and D-M25. -/
theorem test_angle_to_time_saturates :
    answers (exec (.cmAngleToTime 2 (-8)) (wheel 0 { syncedTeeth with tpd16 := #v[0, 0, 4294967295] })) 0 0x80000001 0 = true ∧
    answers (exec (.cmAngleToTime 3 10) State.reset) 10 0 0 = true := by decide
/-- D-M21. -/
theorem test_time_to_angle : answers (exec (.cmTimeToAngle 0 34) (wheel 0 syncedTeeth)) 0 1 0 = true := by decide
/-- D-M22. -/
theorem test_time_to_angle_saturates : answers (exec (.cmTimeToAngle 0 0xFFFFFFFF) (wheel 0 syncedTeeth)) 0 32767 0 = true := by
  decide

/-- D-M12: the cranking branch. -/
def cranking (crankRpm : Half) : State :=
  { wheel 0 { syncedTeeth with
      regGap := 15000, toothOneTime := 240000, toothOneMinusOneTime := 0, rpmReg := 250, revSeen := 2 } with
    cfg := { wheelCfg with crankRpm := crankRpm } }
theorem test_speed_calcs_cranking : leaves (exec .cmSpeedCalcs (cranking 300)) (fun t => t.iface == ⟨0, 0, 0⟩
    && t.dec.rpmReg == 250 && t.dec.tpd16[0] == 8000 && t.dec.dpu32768[0] == 65 && t.dec.tpd16[1] == 10666
    && t.dec.dpu32768[1] == 49) = true := by decide
/-- D-M37: the running branch. -/
theorem test_speed_calcs_running : leaves (exec .cmSpeedCalcs (cranking 200)) (fun t => t.dec.rpmReg == 333) = true := by
  decide

/-- D-M28 and S1 with CFG_CYCLE 360. -/
theorem test_ignition_limits_negative :
    answers (exec (.cmIgnitionLimits (-400)) (wheel 0 Decoder.reset)) 0 0xFFFFFFD8 0 = true ∧
    answers (exec (.cmIgnitionLimits 360) (wheel 0 Decoder.reset)) 0 0 0 = true := by decide
/-- D-M35. -/
theorem test_ignition_limits_unconfigured : answers (exec (.cmIgnitionLimits 5) State.reset) 6 0 0 = true := by decide

/-- S5: SCH_EN after CFG_FUEL_CH 1. -/
theorem test_sch_init :
    leaves (exec .schInit { State.reset with cfg := { ConfigRegs.reset with fuelCh := 1 } }) (fun t =>
      t.iface == ⟨0, 0, 0⟩ && t.sched.enabled == 1) = true := by decide +kernel
/-- R220: a count above the limit enables no channel of its kind. -/
theorem test_sch_init_misconfig :
    leaves (exec .schInit { State.reset with cfg := { ConfigRegs.reset with fuelCh := 9, ignCh := 2 } }) (fun t =>
      t.iface == ⟨7, 0, 0⟩ && t.sched.enabled == 0x0300 && t.sticky == 0x10) = true := by decide +kernel

/-- S5. -/
theorem test_sch_schedule : leaves (exec (.schSchedule 0 1000 500) (enabledAt 0)) (fun t => t.iface == ⟨0, 0, 0⟩
    && t.chan 0 == ⟨.pending, 1000, 1500, 500⟩ && t.timer 0 == ⟨1000, true⟩) = true := by decide
/-- D-S5. -/
theorem test_sch_schedule_overrun : leaves (exec (.schSchedule 4 0 0) (enabledAt 0)) (fun t => t.iface == ⟨5, 0, 0⟩
    && t.sched.trace == [⟨0, 4, .start⟩, ⟨0, 4, .stop⟩] && t.sched.out == 0 && t.sticky == 8) = true := by decide

/-- S5's variant with a cancel. -/
theorem test_sch_cancel_pending : leaves (exec (.schCancel 0) (pendingAt 400)) (fun t => t.iface == ⟨0, 0, 0⟩
    && t.chan 0 == ⟨.off, 1000, 1500, 500⟩ && !(t.timer 0).armed && t.sched.trace == []) = true := by decide
/-- R225: a RUNNING channel ends at once. -/
theorem test_sch_cancel_running : leaves (exec (.schCancel 0) (runningAt 1200)) (fun t =>
    t.sched.out == 0 && t.sched.trace == [⟨1200, 0, .stop⟩]) = true := by decide

/-- S5, at 999 and at 1000 after its start. -/
theorem test_sch_status_pending : answers (exec (.schStatus 0) (pendingAt 999)) 0 1 1 = true := by decide
theorem test_sch_status_running : answers (exec (.schStatus 0) (runningAt 1000)) 0 2 500 = true := by decide

/-- S5: the time step to 1000. -/
theorem test_time_step_starts : leaves (step { pendingAt 999 with inputs := [.timeStep] }) (fun t => t.now == 1000
    && t.sched.trace == [⟨1000, 0, .start⟩] && t.sched.out == 1 && t.timer 0 == ⟨1500, true⟩) = true := by decide
/-- S5: the time step to 1500. -/
theorem test_time_step_ends : leaves (step { runningAt 1499 with inputs := [.timeStep] }) (fun t => t.now == 1500
    && t.sched.trace == [⟨1500, 0, .stop⟩] && t.sched.out == 0 && !(t.timer 0).armed) = true := by decide

/-- D-C8: an illegal word in a step. -/
theorem test_illegal_word : leaves (step { State.reset with inputs := [.command .host ⟨0x101, 0, 0⟩] }) (fun t =>
    t.iface == ⟨11, 0, 0⟩ && t.sticky == 0x20) = true := by decide

/-- A table row's word runs as the first instruction after reset. -/
theorem test_fetch_word : step (State.reset.withFetchWord 32 0x00000000) = .next { State.reset with iface := ⟨0, 0, 0⟩ } := by
  rfl

/-! ## Witnesses: for every statement with hypotheses, states and operands that meet them -/

/-- The word of a command the HOST issues as the next operation. -/
def commanded (cmd opa opb : Word) : State := { State.reset with inputs := [.command .host ⟨cmd, opa, opb⟩] }

theorem witness_DecodeEncodeRoundTrip :
    (Instr.cmTimeToAngle 4 0xFFFFFFFF).wellFormed = true ∧ (Instr.schSchedule 15 0xFFFFFFFF 0).wellFormed = true ∧
    (Instr.regRead 255 true).wellFormed = true ∧ (Instr.cmIgnitionLimits (-1)).wellFormed = true := by decide

/-- Each clause at the boundary of its range. -/
theorem witness_DecodeChecksInOrder :
    (commanded 0x10000 0 0).inputs = .command .host ⟨0x10000, 0, 0⟩ :: [] ∧
    decode ⟨0x10000, 0, 0⟩ = .error .reservedField ∧ decode ⟨0xFF0B, 0, 0⟩ = .ok (.logRead 255) ∧
    decode ⟨0x0C, 0, 0⟩ = .ok .logClear ∧ decode ⟨0x0D, 0, 0⟩ = .error .unknownOpcode ∧
    decode ⟨0x0F, 0, 0⟩ = .error .unknownOpcode ∧ decode ⟨0x13, 0, 0⟩ = .ok (.cmIgnitionLimits 0) ∧
    decode ⟨0x14, 0, 0⟩ = .error .unknownOpcode ∧ decode ⟨0x1F, 0, 0⟩ = .error .unknownOpcode ∧
    decode ⟨0x23, 0, 0⟩ = .ok (.schStatus 0) ∧ decode ⟨0x24, 0, 0⟩ = .error .unknownOpcode ∧
    decode ⟨0x120, 0, 0⟩ = .error .indexNotZero ∧ decode ⟨0x405, 0, 0⟩ = .ok (.tdGetCrankAngle 4) ∧
    decode ⟨0x505, 0, 0⟩ = .error .methodOutOfRange ∧ decode ⟨0xF22, 0, 0⟩ = .ok (.schCancel 15) ∧
    decode ⟨0x1022, 0, 0⟩ = .error .channelOutOfRange := by decide

theorem witness_DecodedOperands : decode ⟨0x0C08, 0xFFFFFFFF, 0xFFFFFFFF⟩ = .ok (.regRead 0x0C true) ∧
    decode ⟨0x0A, 0xFFFFFFFF, 0⟩ = .ok (.stickyClear 0x7F) ∧
    decode ⟨0x0421, 0xFFFFFFFF, 0x80000000⟩ = .ok (.schSchedule 4 0xFFFFFFFF 0x80000000) := by decide

theorem witness_StepRunsDecodedCommand :
    (commanded 0x105 0 0).inputs = .command .host ⟨0x105, 0, 0⟩ :: [] ∧
    decode ⟨0x105, 0, 0⟩ = .ok (.tdGetCrankAngle 1) ∧
    { State.reset with inputs := [.timeStep] }.inputs = .timeStep :: [] ∧ State.reset.inputs = [] := by decide

theorem witness_IllegalCommandChangesNothingElse :
    (commanded 0x505 0 0).inputs = .command .host ⟨0x505, 0, 0⟩ :: [] ∧
    decode ⟨0x505, 0, 0⟩ = .error .methodOutOfRange := by decide

/-- D-M1, D-M6 and the boundary T = 524288. -/
theorem witness_ScalePairOfInterval : 1 ≤ 30 ∧ min (16 * 1000 / 30) (2 ^ 32 - 1) = 533 ∧ (0 < 533 ∧ 533 ≤ 524288) ∧
    min (16 * 1 / 30) (2 ^ 32 - 1) = 0 ∧ 16 * 32768 / 1 = 524288 ∧ (pair 1000 30).2 = 983 := by decide

/-- Each clause of the method at its boundary. -/
theorem witness_AngleToTime : (2 : Byte).toNat < 3 ∧ (4 : Byte).toNat ≤ 4 ∧ ¬ (3 : Byte).toNat < 3 ∧ ¬ (5 : Byte).toNat ≤ 4 := by
  decide

theorem witness_TimeToAngle : (0 : Byte).toNat < 3 ∧ (3 : Byte).toNat ≤ 4 ∧ ¬ (255 : Byte).toNat ≤ 4 := by decide

/-- S2: pair (533, 983) with the largest angle, and pair (80000, 6). -/
theorem witness_RoundTripBound : let s := wheel 0 syncedTeeth
    0 < s.dec.tpd16[0].toNat ∧ s.dec.tpd16[0].toNat ≤ 524288 ∧
    s.dec.dpu32768[0].toNat = 524288 / s.dec.tpd16[0].toNat ∧ (32767 : Half).toNat ≤ 32767 ∧
    (32767 : Half).toNat * s.dec.tpd16[0].toNat / 16 < 2 ^ 31 ∧ 524288 / 80000 = 6 := by decide

/-- The four outcomes of CM_SPEED_CALCS. -/
theorem witness_SpeedCalculation : State.reset.dec.configured = false ∧ (wheel 0 twoTeeth).dec.configured = true ∧
    (wheel 0 twoTeeth).dec.hasSync = false ∧ (wheel 0 { syncedTeeth with regValid := false }).dec.regValid = false ∧
    (cranking 300).dec.revSeen = 2 ∧ (wheel 0 syncedTeeth).dec.revSeen ≠ 2 := by decide

/-- Angles at the limits of S1. -/
theorem witness_IgnitionLimits : (wheelCfg.cycle.toNat : Int) = 360 ∧ ((dualWheel 0).cfg.cycle.toNat : Int) = 720 ∧
    ¬ ((State.reset.cfg.cycle.toNat : Int) = 360 ∨ (State.reset.cfg.cycle.toNat : Int) = 720) ∧
    (360 : Half).toInt = 360 ∧ (-1 : Half).toInt = -1 := by decide

theorem witness_ReservedMethodsRefused : ((3 : Byte) = 3 ∨ (3 : Byte) = 4) ∧ ((4 : Byte) = 3 ∨ (4 : Byte) = 4) := by decide

/-- D-T7, D-T13, D-T16 and D-T20 are legal, D-T8, D-T15 and D-T19 are not. -/
theorem witness_Setup :
    { wheelCfg with missing := 10 }.Legal ∧ { wheelCfg with pattern := 1, teeth := 1 }.Legal ∧
    { wheelCfg with pattern := 2, teeth := 3, table := ((Vector.replicate _ 0).set 1 100).set 2 359 }.Legal ∧
    { wheelCfg with pattern := 2, teeth := 64, table := Vector.ofFn fun i => BitVec.ofNat 16 (5 * i.val) }.Legal ∧
    ¬ { wheelCfg with missing := 11 }.Legal ∧ ¬ { wheelCfg with pattern := 2, teeth := 1 }.Legal ∧
    ¬ { (tableWheel 0).cfg with table := (tableWheel 0).cfg.table.set 3 360 }.Legal := by
  simp only [← valid_iff_legal]
  decide

/-- D-E2, D-E3 and D-E1: a gap one below CFG_DEBOUNCE, a gap equal to it, and no previous tooth. -/
theorem witness_PrimaryDebounce :
    (1 ≤ (wheel 1099 oneTooth).dec.teethSeen.toNat ∧
      ((wheel 1099 oneTooth).now - (wheel 1099 oneTooth).dec.toothLastTime).toNat < wheelCfg.debounce.toNat) ∧
    ¬ ((wheel 1100 oneTooth).now - (wheel 1100 oneTooth).dec.toothLastTime).toNat < wheelCfg.debounce.toNat ∧
    ¬ 1 ≤ (wheel 1000 Decoder.reset).dec.teethSeen.toNat ∧ State.reset.dec.configured = false := by decide

/-- The first tooth, and a tooth with a gap. -/
theorem witness_HistoryShift : (wheel 1000 Decoder.reset).dec.configured = true ∧
    ¬ 1 ≤ (wheel 1000 Decoder.reset).dec.teethSeen.toNat ∧ (wheel 1100 oneTooth).dec.configured = true ∧
    1 ≤ (wheel 1100 oneTooth).dec.teethSeen.toNat ∧
    wheelCfg.debounce.toNat ≤ ((wheel 1100 oneTooth).now - (wheel 1100 oneTooth).dec.toothLastTime).toNat := by decide

/-- D-E5, without sync and at the boundary of 1.5; and a synced wheel at the expected gap. -/
theorem witness_MissingToothRevolutionStart :
    let s := wheel 3500 twoTeeth
    let u := wheel 8000 { syncedTeeth with toothCount := 11 }
    (s.dec.configured = true ∧ s.cfg.pattern = 0 ∧ s.dec.teethSeen = 2 ∧
      s.cfg.debounce.toNat ≤ (s.now - s.dec.toothLastTime).toNat ∧
      3 * s.dec.toothGap.toNat ≤ 2 * (s.now - s.dec.toothLastTime).toNat ∧ s.dec.hasSync = false) ∧
    (u.dec.configured = true ∧ u.cfg.pattern = 0 ∧ u.dec.teethSeen = 2 ∧
      u.cfg.debounce.toNat ≤ (u.now - u.dec.toothLastTime).toNat ∧
      3 * u.dec.toothGap.toNat ≤ 2 * (u.now - u.dec.toothLastTime).toNat ∧ u.dec.hasSync = true ∧
      (min (u.dec.toothCount.toNat + 1) 65535 : Int) = (u.cfg.teeth.toNat : Int) - u.cfg.missing.toNat + 1) := by decide

/-- D-E6, a sync gap at tooth 4, and D-E12, none at tooth 12. -/
theorem witness_MissingToothSyncLoss :
    let s := wheel 8000 syncedTeeth
    let u := wheel 7000 { syncedTeeth with toothCount := 11 }
    (s.dec.configured = true ∧ s.cfg.pattern = 0 ∧ s.dec.hasSync = true ∧
      s.cfg.debounce.toNat ≤ (s.now - s.dec.toothLastTime).toNat ∧
      (s.dec.teethSeen = 2 ∧ 3 * s.dec.toothGap.toNat ≤ 2 * (s.now - s.dec.toothLastTime).toNat) ∧
      ¬ ((min (s.dec.toothCount.toNat + 1) 65535 : Nat) : Int) = (s.cfg.teeth.toNat : Int) - s.cfg.missing.toNat + 1) ∧
    (u.dec.configured = true ∧ u.cfg.pattern = 0 ∧ u.dec.hasSync = true ∧
      u.cfg.debounce.toNat ≤ (u.now - u.dec.toothLastTime).toNat ∧
      ¬ (u.dec.teethSeen = 2 ∧ 3 * u.dec.toothGap.toNat ≤ 2 * (u.now - u.dec.toothLastTime).toNat) ∧
      ((min (u.dec.toothCount.toNat + 1) 65535 : Nat) : Int) = (u.cfg.teeth.toNat : Int) - u.cfg.missing.toNat + 1) := by decide

/-- Tooth 4 after tooth 3, and tooth 11, the last before the gap. -/
theorem witness_MissingToothCounting :
    ∀ k ∈ [3, 10], let s := wheel 7000 { syncedTeeth with toothCount := BitVec.ofNat 16 k }
      s.dec.configured = true ∧ s.cfg.pattern = 0 ∧ s.dec.hasSync = true ∧
      s.cfg.debounce.toNat ≤ (s.now - s.dec.toothLastTime).toNat ∧
      ¬ (s.dec.teethSeen = 2 ∧ 3 * s.dec.toothGap.toNat ≤ 2 * (s.now - s.dec.toothLastTime).toNat) ∧
      ((min (s.dec.toothCount.toNat + 1) 65535 : Nat) : Int) ≠ (s.cfg.teeth.toNat : Int) - s.cfg.missing.toNat + 1 := by decide

/-- D-E4: a gap one below 1.5 times the last; and the dual wheel without sync. -/
theorem witness_UnsyncedTooth :
    let s := wheel 3499 twoTeeth
    let u := { dualWheel 31000 with dec := { (dualWheel 31000).dec with hasSync := false } }
    (s.dec.configured = true ∧ s.dec.hasSync = false ∧ s.dec.graceActive = false ∧
      s.cfg.debounce.toNat ≤ (s.now - s.dec.toothLastTime).toNat ∧
      ¬ (s.cfg.pattern = 0 ∧ s.dec.teethSeen = 2 ∧ 3 * s.dec.toothGap.toNat ≤ 2 * (s.now - s.dec.toothLastTime).toNat)) ∧
    (u.dec.configured = true ∧ u.dec.hasSync = false ∧ u.dec.graceActive = false ∧
      u.cfg.debounce.toNat ≤ (u.now - u.dec.toothLastTime).toNat ∧ ¬ u.cfg.pattern = 0) := by decide

/-- D-E14 (tooth 10 of grace) and D-E15 (tooth 11: the hard reset). -/
theorem witness_GraceAndHardReset :
    ∀ k ∈ [9, 10], let s := wheel 27000 { graceTeeth with graceTeeth := BitVec.ofNat 16 k }
      s.dec.configured = true ∧ s.dec.hasSync = false ∧ s.dec.graceActive = true ∧
      s.cfg.debounce.toNat ≤ (s.now - s.dec.toothLastTime).toNat ∧
      ¬ (s.cfg.pattern = 0 ∧ s.dec.teethSeen = 2 ∧ 3 * s.dec.toothGap.toNat ≤ 2 * (s.now - s.dec.toothLastTime).toNat) ∧
      (((s.cfg.teeth.toNat : Int) - s.cfg.missing.toNat ≤ (s.dec.graceTeeth + 1).toNat) ↔ k = 10) := by decide

/-- Program P3 row 26 and P4 row 19, the revolution start of each pattern; and the tooth before it. -/
theorem witness_CamWheelTooth :
    ∀ s ∈ [dualWheel 31000, tableWheel 20000, { tableWheel 20000 with dec := { (tableWheel 20000).dec with toothCount := 3 } }],
      s.dec.configured = true ∧ s.cfg.Legal ∧ s.cfg.pattern ≠ 0 ∧ s.dec.hasSync = true ∧
      (1 ≤ s.dec.teethSeen.toNat → s.cfg.debounce.toNat ≤ (s.now - s.dec.toothLastTime).toNat) := by
  simp only [← valid_iff_legal]
  decide

/-- P4 row 19: the tooth the statement is about. -/
theorem test_table_tooth : leaves (exec .tdPrimaryEdge (tableWheel 20000)) (fun t => t.dec.toothCount == 1
    && t.dec.regSpan == 60 && t.dec.regGap == 1667 && t.dec.rpmReg == 5998 && t.dec.validTeeth == 5) = true := by decide

/-- Logging on with room for one more entry (D-L2), with the log full (D-L3), and logging off. -/
theorem witness_ToothLogAppend :
    let s := { wheel 7000 syncedTeeth with log := ⟨Vector.replicate _ 0, 63, false⟩ }
    let u := { wheel 7000 syncedTeeth with log := ⟨Vector.replicate _ 0, 64, true⟩ }
    s.dec.configured = true ∧ (s.log.wr.toNat < 64 ∨ s.log.full = true) ∧ 1 ≤ s.dec.teethSeen.toNat ∧
    s.cfg.debounce.toNat ≤ (s.now - s.dec.toothLastTime).toNat ∧ s.cfg.flags.getLsbD 0 = true ∧ s.log.full = false ∧
    u.dec.configured = true ∧ (u.log.wr.toNat < 64 ∨ u.log.full = true) ∧ (dualWheel 31000).cfg.flags.getLsbD 0 = false := by
  decide

/-- The five outcomes of TD_SECONDARY_EDGE, the debounce at its boundary. -/
theorem witness_SecondaryEdge : State.reset.dec.configured = false ∧
    ((dualWheel 29049).now - (dualWheel 29049).dec.secLastTime).toNat < (dualWheel 29049).cfg.debounce.toNat ∧
    ¬ ((dualWheel 29050).now - (dualWheel 29050).dec.secLastTime).toNat < (dualWheel 29050).cfg.debounce.toNat ∧
    (dualWheel 29050).dec.toothCount.toNat = (dualWheel 29050).cfg.teeth.toNat ∧
    { (tableWheel 26000).dec with toothCount := 3 }.toothCount.toNat ≠ (tableWheel 26000).cfg.teeth.toNat ∧
    (tableWheel 26000).cfg.pattern = 2 ∧ wheelCfg.pattern = 0 := by decide

/-- S4: elapsed 50000 and 50001 with CFG_MAX_STALL 50000. -/
theorem witness_StallCheck :
    ¬ (wheel 79000 syncedTeeth).cfg.maxStall.toNat < ((79000 : Word) - 29000).toNat ∧
    (wheel 79001 syncedTeeth).cfg.maxStall.toNat < ((79001 : Word) - 29000).toNat ∧ 1 ≤ syncedTeeth.teethSeen.toNat ∧
    State.reset.dec.configured = false := by decide

theorem witness_GetRpm : State.reset.dec.configured = false ∧ (wheel 0 twoTeeth).dec.hasSync = false ∧
    (wheel 0 twoTeeth).dec.configured = true ∧ (wheel 0 syncedTeeth).dec.hasSync = true := by decide

/-- P4 at tooth 4 (method 2), and every other clause of the method and of the check order. -/
theorem witness_GetCrankAngle : let s := tableWheel 20000
    s.dec.configured = true ∧ s.dec.hasSync = true ∧ (s.cfg.cycle.toNat = 360 ∨ s.cfg.cycle.toNat = 720) ∧
    1 ≤ s.dec.toothCount.toNat ∧ (s.cfg.pattern = 2 ∧ s.dec.toothCount.toNat ≤ 64) ∧ (2 : Byte).toNat < 3 ∧
    (4 : Byte).toNat ≤ 4 ∧ ¬ (5 : Byte).toNat ≤ 4 ∧ State.reset.dec.configured = false ∧
    (wheel 0 twoTeeth).dec.hasSync = false := by decide

/-- Counts at and above the limit; OUT asserted on RUNNING channels only. -/
theorem witness_SchedulerInit : (enabledAt 0).cfg.fuelCh.toNat = 8 ∧ ¬ 8 < (8 : Byte).toNat ∧ 8 < (9 : Byte).toNat ∧
    ∀ ch : Chan, (runningAt 1200).output ch = true → ((runningAt 1200).chan ch).status = .running := by decide

theorem witness_ScheduleTurnedAway : 15 < (16 : Byte).toNat ∧ (15 : Chan).val = (15 : Byte).toNat ∧
    State.reset.sched.enabled.getLsbD (15 : Chan).val = false ∧
    (enabledAt 0).sched.enabled.getLsbD (15 : Chan).val = true ∧ 2 ^ 31 ≤ (0x80000000 : Word).toNat ∧
    ¬ 2 ^ 31 ≤ (0x7FFFFFFF : Word).toNat := by decide

/-- Delay 1 and the largest operands. -/
theorem witness_ScheduleArmsIdleChannel : (enabledAt 0).chanEnabled 15 = true ∧ ((enabledAt 0).chan 15).status = .off ∧
    0 < (1 : Word).toNat ∧ (0x7FFFFFFF : Word).toNat < 2 ^ 31 := by decide

/-- Channel 0 waiting for 1000 at 200: an earlier start (S6), a later end with no earlier start, neither. -/
theorem witness_SchedulePendingChannel : let s := pendingAt 200
    s.chanEnabled 0 = true ∧ (s.chan 0).status = .pending ∧ (s.chan 0).startTarget ≠ s.now ∧ 0 < (799 : Word).toNat ∧
    (799 : Word).toNat < ((s.chan 0).startTarget - s.now).toNat ∧
    ¬ (800 : Word).toNat < ((s.chan 0).startTarget - s.now).toNat ∧
    ((s.chan 0).endTarget - s.now).toNat < (800 : Word).toNat + (501 : Word).toNat ∧
    ¬ ((s.chan 0).endTarget - s.now).toNat < (800 : Word).toNat + (500 : Word).toNat := by decide

theorem witness_ScheduleRunningChannel : let s := runningAt 1200
    s.chanEnabled 0 = true ∧ (s.chan 0).status = .running ∧ (0 : Word).toNat < 2 ^ 31 ∧
    ((s.chan 0).endTarget - s.now).toNat < (0 : Word).toNat + (301 : Word).toNat ∧
    ¬ ((s.chan 0).endTarget - s.now).toNat < (0 : Word).toNat + (300 : Word).toNat := by decide

/-- An OFF channel and a pending start that is replaced, with a duration and without. -/
theorem witness_ScheduleMissedCompare : (pendingAt 200).chanEnabled 0 = true ∧ (0 : Word).toNat < 2 ^ 31 ∧
    ((pendingAt 200).chan 0).status = .pending ∧ ((pendingAt 200).chan 0).startTarget ≠ (pendingAt 200).now ∧
    ((enabledAt 0).chan 4).status = .off ∧ (enabledAt 0).chanEnabled 4 = true := by decide

theorem witness_CancelChannel : ((runningAt 1200).chan 0).status = .running ∧ ((pendingAt 400).chan 0).status = .pending ∧
    (State.reset.chan 0).status = .off ∧ (0 : Periph) ≠ Chan.periph 8 := by decide

theorem witness_ChannelStatus : 15 < (16 : Byte).toNat ∧ (15 : Chan).val = (15 : Byte).toNat := by decide

/-- A peripheral left with one target, and one left with none. -/
theorem witness_CompareAtNearestTarget :
    (Instr.schSchedule 0 1000 500 = .schSchedule (BitVec.ofNat 8 (0 : Chan).val) 1000 500 ∧
      (enabledAt 0).chanEnabled 0 = true ∧ (1000 : Word).toNat < 2 ^ 31 ∧ (500 : Word).toNat < 2 ^ 31) ∧
    leaves (exec (.schSchedule 0 1000 500) (enabledAt 0)) (fun t => (t.chan 0).target? == some 1000) = true ∧
    leaves (exec (.schCancel 0) (pendingAt 400)) (fun t =>
      (List.finRange 16).all fun ch => (t.chan ch).status == .off) = true := by decide

/-- The scheduler's invariant from checks on a concrete state. -/
theorem schedInv_of_checks (s : State)
    (h1 : ∀ ch : Chan, s.output ch = true ↔ (s.chan ch).status = .running)
    (h2 : ∀ p : Periph, (s.timer p).armed = true ↔ ∃ ch : Chan, ch.periph = p ∧ (s.chan ch).status ≠ .off)
    (h3 : ∀ ch : Chan, s.chanEnabled ch = false → (s.chan ch).status = .off)
    (h4 : ∀ ch : Chan, (s.chan ch).target?.all (fun x => off s.now x != 0) = true)
    (h5 : ∀ ch : Chan, (s.chan ch).status = .pending →
      (off s.now (s.chan ch).startTarget).toNat ≤ (off s.now (s.chan ch).endTarget).toNat)
    (h6 : ∀ ch : Chan, (s.chan ch).duration = (s.chan ch).endTarget - (s.chan ch).startTarget)
    (h7 : ∀ p : Periph, (s.timer p).armed = true → 0 < s.matchDistance p)
    (h8 : ∀ (p : Periph) (ch : Chan), (s.timer p).armed = true → ch.periph = p →
      (s.chan ch).target?.all (fun x => s.matchDistance p ≤ (off s.now x).toNat) = true) : s.SchedInv := by
  refine ⟨h1, h2, h3, fun ch x hx => ?_, h5, h6, fun p hp => ⟨h7 p hp, fun ch x hc hx => ?_⟩⟩
  · have := h4 ch
    rw [hx] at this
    exact (by simpa using this : off s.now x ≠ 0)
  · have := h8 p ch hp hc
    rw [hx] at this
    exact (by simpa using this : s.matchDistance p ≤ (off s.now x).toNat)

/-- A state of the scheduler's invariant in which channel 0 is due at the next step. -/
theorem witness_StepKeepsSchedulerInvariant : (pendingAt 999).SchedInv :=
  schedInv_of_checks _ (by decide) (by decide) (by decide) (by decide) (by decide) (by decide) (by decide) (by decide)

/-- The next time step starts channel 0; peripheral 0 matches and its channel then waits for 1500; peripheral 1 is disarmed. -/
theorem witness_TimeStepFiresExactlyDueChannels :
    { pendingAt 999 with inputs := [.timeStep] }.SchedInv ∧
    { pendingAt 999 with inputs := [.timeStep] }.inputs = .timeStep :: [] ∧
    ((pendingAt 999).chan 0).status = .pending ∧ ((pendingAt 999).chan 0).startTarget = (pendingAt 999).now + 1 ∧
    ((pendingAt 999).timer 0 = ⟨1000, true⟩ ∧ (pendingAt 999).timeStep.timer 0 = ⟨1500, true⟩) ∧
    ((pendingAt 999).timeStep.chan 0).target? = some 1500 ∧ ((pendingAt 999).timer 1).armed = false :=
  ⟨witness_StepKeepsSchedulerInvariant.congr rfl rfl, rfl, by decide, by decide, by decide, by decide, by decide⟩

/-- The next time step ends channel 0, and peripheral 0 has none left that waits. -/
theorem witness_TimeStepFiresExactlyDueChannels_disarms :
    { runningAt 1499 with inputs := [.timeStep] }.SchedInv ∧ (runningAt 1499).timer 0 = ⟨1500, true⟩ ∧
    (∀ ch : Chan, ((runningAt 1499).timeStep.chan ch).status = .off) ∧
    (runningAt 1499).timeStep.timer 0 = ⟨1500, false⟩ :=
  ⟨(schedInv_of_checks (runningAt 1499) (by decide) (by decide) (by decide) (by decide) (by decide) (by decide) (by decide)
    (by decide)).congr rfl rfl, by decide, by decide, by decide⟩

/-- Channel 0 PENDING for a start beyond a lap of the counter, its compare at an intermediate match at 1000 (R234). -/
def farAt (now : Word) : State :=
  { enabledAt now with
    sched := { (enabledAt now).sched with
      channels := (enabledAt now).sched.channels.set 0 ⟨.pending, 200000, 200500, 500⟩
      timers := (enabledAt now).sched.timers.set 0 ⟨1000, true⟩ } }

/-- The next time step is an intermediate match, which arms 0xFFFF ahead of 1000; one earlier is no match. -/
theorem witness_TimeStepFiresExactlyDueChannels_far :
    { farAt 999 with inputs := [.timeStep] }.SchedInv ∧ ((farAt 999).timeStep.chan 0).target? = some 200000 ∧
    (farAt 999).timeStep.timer 0 = ⟨999, true⟩ ∧ ((farAt 998).timer 0).compare ≠ (998 + 1 : Half) :=
  ⟨(schedInv_of_checks (farAt 999) (by decide) (by decide) (by decide) (by decide) (by decide) (by decide) (by decide)
    (by decide)).congr rfl rfl, by decide, by decide, by decide⟩

/-- The register ranges at their boundaries, and the widths. -/
theorem witness_ConfigWrite : ¬ ((0x20 ≤ 0x1F ∧ 0x1F ≤ 0x2A) ∨ (0x40 ≤ 0x1F ∧ 0x1F ≤ 0x7F)) ∧
    ¬ ((0x20 ≤ 0x2B ∧ 0x2B ≤ 0x2A) ∨ (0x40 ≤ 0x2B ∧ 0x2B ≤ 0x7F)) ∧ 2 ^ 8 ≤ (256 : Word).toNat ∧
    ¬ 2 ^ 8 ≤ (255 : Word).toNat ∧ 2 ^ 16 ≤ (65536 : Word).toNat ∧ ¬ 2 ^ 16 ≤ (65535 : Word).toNat ∧
    ¬ 2 ^ 32 ≤ (0xFFFFFFFF : Word).toNat ∧ 0x20 ≤ (0x20 : Byte).toNat ∧ (0x20 : Byte) ≠ 0x21 := by decide

/-- The reserved ranges at their boundaries (R62). -/
theorem witness_RegisterRead : (0x18 ≤ 0xFF ∧ 0xFF ≤ 0xFF) ∧ (0x18 ≤ 0x18 ∧ 0x18 ≤ 0x1F) ∧
    (0x2B ≤ 0x2B ∧ 0x3F ≤ 0x3F) ∧ (0xC6 ≤ 0xC6 ∧ 0xC6 ≤ 0xFF) := by decide

theorem witness_LogRead : (63 : Byte).toNat < 64 ∧ ¬ (64 : Byte).toNat < 64 := by decide

/-- A query with results, one refused and one illegal. -/
theorem witness_ReadOnlyCommands : answers (exec .tdGetRpm (wheel 6000 syncedTeeth)) 0 5000 0 = true ∧
    leaves (exec (.cmAngleToTime 3 1) State.reset) (fun t => t.iface.status == 10 && t.sticky == 0x40) = true ∧
    leaves (exec (.schStatus 16) State.reset) (fun t => t.iface.status == 11 && t.sticky == 0x20) = true := by decide

theorem witness_StickyKeptUntilCleared : (∀ mask, Instr.tdSetup ≠ .stickyClear mask) ∧
    { State.reset with sticky := 0x7F }.sticky.getLsbD (6 : Fin 7).val = true := ⟨fun _ h => (nomatch h), by decide⟩

/-- NOP is none of the writers. -/
theorem witness_WritersOfTheState : (∀ r v, Instr.nop ≠ .cfgWrite r v) ∧ Instr.nop ≠ .tdSnapshot ∧ Instr.nop ≠ .schInit ∧
    (∀ c d u, Instr.nop ≠ .schSchedule c d u) ∧ (∀ c, Instr.nop ≠ .schCancel c) ∧ Instr.nop ≠ .tdSetup ∧
    Instr.nop ≠ .tdPrimaryEdge ∧ Instr.nop ≠ .logClear ∧ Instr.nop ≠ .tdStallCheck ∧ Instr.nop ≠ .cmSpeedCalcs :=
  ⟨fun _ _ h => (nomatch h), by decide, by decide, fun _ _ _ h => (nomatch h), fun _ h => (nomatch h), by decide, by decide,
    by decide, by decide, by decide⟩

/-- Two states that differ in the decoder only, and two that differ in the scheduler only. -/
theorem witness_SchedulerIndependentOfDecoder : let s := wheel 5 syncedTeeth
    let u := wheel 5 Decoder.reset
    s ≠ u ∧ s.now = u.now ∧ s.sched = u.sched ∧ s.cfg.fuelCh = u.cfg.fuelCh ∧ s.cfg.ignCh = u.cfg.ignCh ∧
    s.periphOrder = u.periphOrder := by decide

theorem witness_DecoderIndependentOfScheduler : let s := pendingAt 5
    let u := runningAt 5
    s ≠ u ∧ s.now = u.now ∧ s.dec = u.dec ∧ s.log = u.log ∧ s.cfg = u.cfg := by decide

/-- A state of the decoder's invariant with sync, and a step from it. -/
theorem witness_StepKeepsDecoderInvariant : (wheel 6500 syncedTeeth).DecInv ∧ ∃ t, step (wheel 6500 syncedTeeth) = .next t := by
  refine ⟨⟨by decide, by decide, by decide, by decide, by decide, fun _ => ⟨(valid_iff_legal _).1 (by decide), by decide⟩,
    by decide, by decide, by decide, by decide, by decide, by decide, ?_⟩, _, rfl⟩
  unfold ReciprocalPair
  decide

theorem witness_StepKeepsStatusInvariant : { State.reset with iface := ⟨11, 0, 0⟩ }.StatusInv ∧
    { State.reset with iface := ⟨0, 5, 1⟩ }.StatusInv ∧ ∃ t, step { State.reset with iface := ⟨0, 5, 1⟩ } = .next t :=
  ⟨⟨by decide, fun _ => ⟨rfl, rfl⟩⟩, ⟨by decide, fun h => absurd rfl h⟩, _, rfl⟩

/-- A run from reset that takes a time step. -/
theorem witness_EveryRunIsSafe : ∃ s, Reachable s ∧ s.now = 1 :=
  ⟨_, .step (.issue .timeStep (.reset .oneFirst)) rfl, rfl⟩

end Sys2Proof.Tests
end

/-! # Proofs of 00_scope.md: how a step takes an operation, and that every operation completes -/

namespace Sys2Proof.Proofs.Scope

open Sys2Proof Sys2Proof.Machine

/-! ## The step on each kind of order (R9, R74, R230, R311) -/

theorem step_of_idle (s : State) (h : s.inputs = []) : step s = .next s := by
  rw [step, s.takeOperation_nil h]

theorem step_of_timeStep (s : State) (rest : List Operation) (h : s.inputs = .timeStep :: rest) :
    step s = .next { s with inputs := rest }.timeStep := by
  rw [step, s.takeOperation_cons _ rest h]

theorem step_of_command (s : State) (rest : List Operation) (a : Agent) (t : Transaction)
    (h : s.inputs = .command a t :: rest) : step s = runTransaction t { s with inputs := rest } := by
  rw [step, s.takeOperation_cons _ rest h]

theorem runTransaction_of_decode (t : Transaction) (s : State) (i : Instr) (h : decode t = .ok i) :
    runTransaction t s = exec i s := by
  simp only [runTransaction, h]

/-- Settles O5: one equation of `step` per head of the order. -/
theorem stepRunsDecodedCommand : Obligations.StepRunsDecodedCommand := by
  intro s rest
  refine ⟨fun a t i hin hdec => ?_, step_of_timeStep s rest, step_of_idle s⟩
  rw [step_of_command s rest a t hin, runTransaction_of_decode t _ i hdec]

/-! ## What no command touches (R10, R20, R235) -/

/-- Time, the order of operations and PERIPH_ORDER: the fields that no command writes. -/
structure SameClock (s t : State) : Prop where
  now : t.now = s.now
  inputs : t.inputs = s.inputs
  periphOrder : t.periphOrder = s.periphOrder

/-- Each of the frames of Laws/Frames.lean leaves the three fields alone. -/
theorem exec_sameClock (i : Instr) (s : State) : ∃ t, exec i s = .next t ∧ SameClock s t := by
  obtain ⟨t, hexec, hframe⟩ := exec_frame i s
  refine ⟨t, hexec, ?_⟩
  rcases hframe with query | ⟨-, decoder⟩ | ⟨-, scheduler⟩ | ⟨-, snapshot⟩ | ⟨-, sticky⟩ | ⟨-, config⟩
  · obtain ⟨_, _, rfl⟩ := query
    exact ⟨rfl, rfl, rfl⟩
  · obtain ⟨_, _, _, _, rfl⟩ := decoder
    exact ⟨rfl, rfl, rfl⟩
  · obtain ⟨_, _, _, rfl⟩ := scheduler
    exact ⟨rfl, rfl, rfl⟩
  · obtain ⟨_, _, rfl⟩ := snapshot
    exact ⟨rfl, rfl, rfl⟩
  · obtain ⟨_, _, rfl⟩ := sticky
    exact ⟨rfl, rfl, rfl⟩
  · obtain ⟨_, _, _, rfl⟩ := config
    exact ⟨rfl, rfl, rfl⟩

theorem illegal_sameClock (s : State) : SameClock s s.illegal :=
  ⟨s.illegal_now, s.illegal_inputs, s.illegal_periphOrder⟩

/-! ## The time step (R20, R230) -/

/-- Firing channels and re-arming compares stay within the scheduler and STICKY. -/
theorem schedFrame_sameClock {s t : State} (h : SchedFrame s t) : SameClock s t := by
  rw [SchedFrame] at h
  rw [h]
  exact ⟨rfl, rfl, rfl⟩

theorem timeStep_sameClock (s : State) : SameClock { s with now := s.now + 1 } s.timeStep :=
  schedFrame_sameClock (timeStep_frame s)

/-! ## Completion (R74, R280, R286) -/

/-- What one step leaves of time, of the order of operations and of PERIPH_ORDER. -/
theorem step_completes (s : State) : ∃ t, step s = .next t ∧ t.inputs = s.inputs.tail ∧
    t.periphOrder = s.periphOrder ∧ t.now = if s.inputs.head? = some .timeStep then s.now + 1 else s.now := by
  rcases step_cases s with ⟨hin, hstep⟩ | ⟨a, w, i, rest, hin, -, hstep⟩ | ⟨a, w, e, rest, hin, -, hstep⟩ |
    ⟨rest, hin, hstep⟩
  · exact ⟨s, hstep, by simp [hin]⟩
  · obtain ⟨t, hexec, clock⟩ := exec_sameClock i { s with inputs := rest }
    exact ⟨t, hstep.trans hexec, by simp [hin, clock.now, clock.inputs, clock.periphOrder]⟩
  · exact ⟨_, hstep, by simp [hin]⟩
  · have clock := timeStep_sameClock { s with inputs := rest }
    exact ⟨_, hstep, by simp [hin, clock.now, clock.inputs, clock.periphOrder]⟩

/-- Settles O6: a command by the frames of `exec`, a step by the four things a step can do. -/
theorem everyOperationCompletes : Obligations.EveryOperationCompletes := by
  refine ⟨fun i s => ?_, step_completes⟩
  obtain ⟨t, hexec, clock⟩ := exec_sameClock i s
  exact ⟨t, hexec, clock.now, clock.inputs, clock.periphOrder⟩

end Sys2Proof.Proofs.Scope

/-! # Proofs of 10_state.md: who writes the state, and what every step keeps of it -/

namespace Sys2Proof.Proofs.StateRules

open Sys2Proof Sys2Proof.Machine

/-! ## From the operations to the step -/

/-- A property of states that every command, the illegal word and the time step keep, and that does not read the order of
operations, is kept by every step. -/
theorem step_keeps {P : State → Prop} (inputs : ∀ s rest, P s → P { s with inputs := rest })
    (command : ∀ i s t, P s → exec i s = .next t → P t) (illegal : ∀ s, P s → P s.illegal)
    (timeStep : ∀ s, P s → P s.timeStep) {s t : State} (hs : P s) (hstep : step s = .next t) : P t := by
  rcases step_cases s with ⟨-, h⟩ | ⟨_, _, i, rest, -, -, h⟩ | ⟨_, _, _, rest, -, -, h⟩ | ⟨rest, -, h⟩ <;>
    rw [h] at hstep
  · cases hstep; exact hs
  · exact command i _ t (inputs s rest hs) hstep
  · cases hstep; exact illegal _ (inputs s rest hs)
  · cases hstep; exact timeStep _ (inputs s rest hs)

/-! ## What the scheduler's commands do to one channel (R221 to R225) -/

/-- u differs from s, as far as the scheduler's invariant can see, in channel c's entry and output only: no timer is
re-arbitrated yet. -/
structure OnlyChannel (c : Chan) (s u : State) : Prop where
  now : u.now = s.now
  enabled : u.sched.enabled = s.sched.enabled
  timer : ∀ p, u.timer p = s.timer p
  chan : ∀ ch, ch ≠ c → u.chan ch = s.chan ch
  output : ∀ ch, ch ≠ c → u.output ch = s.output ch

theorem OnlyChannel.trans {c : Chan} {s t u : State} (h : OnlyChannel c s t) (k : OnlyChannel c t u) :
    OnlyChannel c s u where
  now := k.now.trans h.now
  enabled := k.enabled.trans h.enabled
  timer p := (k.timer p).trans (h.timer p)
  chan ch hne := (k.chan ch hne).trans (h.chan ch hne)
  output ch hne := (k.output ch hne).trans (h.output ch hne)

theorem requested_onlyChannel (s : State) (c : Chan) (d u : Word) : OnlyChannel c s (s.requested c d u) :=
  ⟨rfl, rfl, fun _ => rfl, fun ch hne => by rw [requested_chan, if_neg hne], fun _ _ => rfl⟩

theorem raise_onlyChannel (s : State) (c : Chan) (f : StickyFlag) : OnlyChannel c s (s.raise f) :=
  ⟨rfl, rfl, fun _ => rfl, fun _ _ => rfl, fun _ _ => rfl⟩

theorem startEvent_onlyChannel (s : State) (c : Chan) : OnlyChannel c s (s.startEvent c) := by
  obtain ⟨hchan, htimer, henabled, houtput, -, -⟩ := startEvent_spec s c
  exact ⟨(startEvent_frame s c).now, henabled, htimer, fun ch hne => by rw [hchan, if_neg hne],
    fun ch hne => by rw [houtput, if_neg hne]⟩

theorem cancelChannel_onlyChannel (s : State) (c : Chan) : OnlyChannel c s (s.cancelChannel c) := by
  obtain ⟨hchan, htimer, henabled, houtput, -, -⟩ := cancelChannel_spec s c
  exact ⟨(cancelChannel_frame s c).now, henabled, htimer, fun ch hne => by rw [hchan, if_neg hne],
    fun ch hne => by rw [houtput, if_neg fun k => hne k.1]⟩

/-- An accepted request whose compare is missed, before the re-arbitration: OVERRUN and the start event (R224). -/
def startedLate (s : State) (c : Chan) (d u : Word) : State := ((s.requested c d u).raise .overrun).startEvent c

theorem startedLate_onlyChannel (s : State) (c : Chan) (d u : Word) : OnlyChannel c s (startedLate s c d u) :=
  ((requested_onlyChannel s c d u).trans (raise_onlyChannel _ c .overrun)).trans (startEvent_onlyChannel _ c)

/-- Everything SCH_SCHEDULE can do: turn the request away, write the entry, or start the channel late (R221, R224). -/
theorem execSchSchedule_cases (ch : Byte) (d u : Word) (s : State) :
    (∃ t, execSchSchedule ch d u s = .next t ∧ QueryFrame s t) ∨
    ∃ c : Chan, s.chanEnabled c = true ∧ d.toNat < 2 ^ 31 ∧ u.toNat < 2 ^ 31 ∧
      ((¬ (s.requested c d u).missedCompare c = true ∧
          execSchSchedule ch d u s = .next (((s.requested c d u).rearbitrate c.periph).ret .ok)) ∨
        ((s.requested c d u).missedCompare c = true ∧
          execSchSchedule ch d u s = .next (((startedLate s c d u).rearbitrate c.periph).ret .overrun))) := by
  by_cases hch : ch.toNat < 16
  · obtain ⟨c, rfl⟩ : ∃ c : Chan, ch = BitVec.ofNat 8 c.val := ⟨⟨ch.toNat, hch⟩, by simp⟩
    by_cases he : s.chanEnabled c = true
    · by_cases hr : d.toNat < 2 ^ 31 ∧ u.toNat < 2 ^ 31
      · obtain ⟨hd, hu⟩ := hr
        refine .inr ⟨c, he, hd, hu, ?_⟩
        by_cases hm : (s.requested c d u).missedCompare c = true
        · exact .inr ⟨hm, execSchSchedule_missed s c d u he hd hu hm⟩
        · exact .inl ⟨hm, execSchSchedule_armed s c d u he hd hu hm⟩
      · refine .inl ⟨s.ret .range, ?_, QueryFrame.ret ..⟩
        rw [execSchSchedule, s.withChan_ofNat, if_neg (by simp [he]), if_pos (by simp only [Config.maxDelay]; omega)]
    · refine .inl ⟨s.ret .channelDisabled, ?_, QueryFrame.ret ..⟩
      rw [execSchSchedule, s.withChan_ofNat, if_pos (by simpa using he)]
  · exact .inl ⟨s.illegal, by rw [execSchSchedule, s.withChan_illegal ch _ (by omega)], QueryFrame.illegal s⟩

/-- Everything SCH_CANCEL can do: refuse the word, or cancel and re-arbitrate (R225). -/
theorem execSchCancel_cases (ch : Byte) (s : State) :
    (∃ t, execSchCancel ch s = .next t ∧ QueryFrame s t) ∨
    ∃ c : Chan, execSchCancel ch s = .next (((s.cancelChannel c).rearbitrate c.periph).ret .ok) := by
  by_cases hch : ch.toNat < 16
  · obtain ⟨c, rfl⟩ : ∃ c : Chan, ch = BitVec.ofNat 8 c.val := ⟨⟨ch.toNat, hch⟩, by simp⟩
    exact .inr ⟨c, execSchCancel_chan s c⟩
  · exact .inl ⟨s.illegal, by rw [execSchCancel, s.withChan_illegal ch _ (by omega)], QueryFrame.illegal s⟩

/-- The state of SCH_INIT before its status: every channel cancelled, SCH_EN written, both peripherals re-arbitrated
(R220). -/
def initialized (s : State) : State :=
  ((s.cancelAll.setEnabled (enableMask s.cfg.fuelCh.toNat s.cfg.ignCh.toNat)).rearbitrate 0).rearbitrate 1

/-- SCH_INIT's two endings (R220). -/
theorem execSchInit_cases (s : State) :
    execSchInit s = .next (((initialized s).raise .misconfig).ret .misconfig) ∨
    execSchInit s = .next ((initialized s).ret .ok) := by
  unfold execSchInit
  dsimp only
  split
  · exact .inl rfl
  · exact .inr rfl

/-- What a command leaves of NOW and of the scheduler, read off u: nothing written, or one of the ways in which SCH_INIT,
SCH_SCHEDULE and SCH_CANCEL write the scheduler before they return their status (R220 to R225). -/
inductive SchedulerOutcome (s : State) : Instr → State → Prop
  | kept (i : Instr) : SchedulerOutcome s i s
  | initialized : SchedulerOutcome s .schInit (initialized s)
  | armed (ch : Byte) (d u : Word) (c : Chan) (enabled : s.chanEnabled c = true) (hd : d.toNat < 2 ^ 31)
      (hu : u.toNat < 2 ^ 31) (ahead : ¬ (s.requested c d u).missedCompare c = true) :
      SchedulerOutcome s (.schSchedule ch d u) ((s.requested c d u).rearbitrate c.periph)
  | late (ch : Byte) (d u : Word) (c : Chan) (enabled : s.chanEnabled c = true) :
      SchedulerOutcome s (.schSchedule ch d u) ((startedLate s c d u).rearbitrate c.periph)
  | cancelled (ch : Byte) (c : Chan) :
      SchedulerOutcome s (.schCancel ch) ((s.cancelChannel c).rearbitrate c.periph)

/-- Every command answers a state with the NOW and the scheduler of one of these outcomes. -/
theorem exec_schedulerOutcome (i : Instr) (s : State) :
    ∃ t u, exec i s = .next t ∧ SchedulerOutcome s i u ∧ t.now = u.now ∧ t.sched = u.sched := by
  obtain ⟨t, hexec, hframe⟩ := exec_frame i s
  rcases hframe with ⟨_, _, rfl⟩ | ⟨-, _, _, _, _, rfl⟩ | ⟨rfl | ⟨ch, d, u, rfl⟩ | ⟨ch, rfl⟩, -⟩ | ⟨-, _, _, rfl⟩ |
    ⟨-, _, _, rfl⟩ | ⟨-, _, _, _, rfl⟩
  · exact ⟨_, s, hexec, .kept i, rfl, rfl⟩
  · exact ⟨_, s, hexec, .kept i, rfl, rfl⟩
  · rcases execSchInit_cases s with e | e
    · exact ⟨_, _, e, .initialized, by simp, by simp⟩
    · exact ⟨_, _, e, .initialized, by simp, by simp⟩
  · rcases execSchSchedule_cases ch d u s with ⟨_, e, _, _, rfl⟩ | ⟨c, he, hd, hu, ⟨hm, e⟩ | ⟨-, e⟩⟩
    · exact ⟨_, s, e, .kept _, rfl, rfl⟩
    · exact ⟨_, _, e, .armed ch d u c he hd hu hm, rfl, rfl⟩
    · exact ⟨_, _, e, .late ch d u c he, rfl, rfl⟩
  · rcases execSchCancel_cases ch s with ⟨_, e, _, _, rfl⟩ | ⟨c, e⟩
    · exact ⟨_, s, e, .kept _, rfl, rfl⟩
    · exact ⟨_, _, e, .cancelled ch c, rfl, rfl⟩
  · exact ⟨_, s, hexec, .kept _, rfl, rfl⟩
  · exact ⟨_, s, hexec, .kept i, rfl, rfl⟩
  · exact ⟨_, s, hexec, .kept i, rfl, rfl⟩

/-! ## The scheduler's invariant through the commands (R214, R236, R237) -/

/-- A command that changes one channel and re-arbitrates its peripheral keeps the invariant when the channel's new entry
and output have their part of it. -/
theorem OnlyChannel.schedInv {c : Chan} {s u : State} (k : OnlyChannel c s u) (h : s.SchedInv)
    (hc : ChanOk s.now (s.chanEnabled c) (u.output c) (u.chan c)) : (u.rearbitrate c.periph).SchedInv := by
  obtain ⟨hchan, htimer⟩ := (schedInv_iff s).1 h
  refine rearbitrate_schedInv u c.periph (fun ch => ?_) fun q hq => ?_
  · rw [k.now, State.chanEnabled, k.enabled]
    by_cases hne : ch = c
    · subst hne; exact hc
    · rw [k.chan ch hne, k.output ch hne]; exact hchan ch
  · exact (htimer q).congr k.now (k.timer q) fun ch hp => k.chan ch fun e => hq (by rw [← hp, e])

/-- A request leaves DURATION the distance of the targets (R47, R221 to R223). -/
theorem request_duration (c : Channel) (now st u : Word) (h : c.duration = c.endTarget - c.startTarget) :
    (c.request now st (st + u) u).duration =
      (c.request now st (st + u) u).endTarget - (c.request now st (st + u) u).startTarget := by
  have fresh : u = st + u - st := by rw [BitVec.add_comm, BitVec.add_sub_cancel]
  unfold Channel.request
  cases c.status with
  | off => exact fresh
  | pending =>
    dsimp only
    split
    · exact fresh
    · split
      · rfl
      · exact h
  | running =>
    dsimp only
    split
    · rfl
    · exact h

/-- A start event at NOW gives its channel its part of the invariant, whatever state it was in (R224, R231). -/
theorem started_chanOk (now : Word) (c : Channel) (h : c.duration = c.endTarget - c.startTarget) :
    ChanOk now true (decide (c.endTarget ≠ now)) (c.started now) := by
  by_cases hend : c.endTarget = now
  · simpa [Channel.started, hend] using chanOk_off now true c h
  · refine ⟨by simp [Channel.started, hend], fun k => by simp at k, fun x hx => ?_,
      fun k => by simp [Channel.started, hend] at k, h⟩
    have hx : c.endTarget = x := by simpa [Channel.started, hend, Channel.target?] using hx
    rw [← hx, Ne, off_eq_zero]
    exact hend

/-- An accepted request that misses no compare (R221 to R223). -/
theorem requested_schedInv (s : State) (c : Chan) (d u : Word) (h : s.SchedInv) (he : s.chanEnabled c = true)
    (hd : d.toNat < 2 ^ 31) (hu : u.toNat < 2 ^ 31) (hm : ¬ (s.requested c d u).missedCompare c = true) :
    ((s.requested c d u).rearbitrate c.periph).SchedInv := by
  refine (requested_onlyChannel s c d u).schedInv h ?_
  have hc := ((schedInv_iff s).1 h).1 c
  have hentry : (s.requested c d u).chan c = (s.chan c).request s.now (s.now + d) (s.now + d + u) u := by
    rw [requested_chan, if_pos rfl]
  rw [missedCompare_iff, hentry] at hm
  rw [he] at hc ⊢
  rw [hentry]
  exact request_chanOk s.now d u (s.chan c) _ hc hd hu hm

/-- An accepted request that starts its channel late (R224). -/
theorem startedLate_schedInv (s : State) (c : Chan) (d u : Word) (h : s.SchedInv) (he : s.chanEnabled c = true) :
    ((startedLate s c d u).rearbitrate c.periph).SchedInv := by
  refine (startedLate_onlyChannel s c d u).schedInv h ?_
  obtain ⟨hchan, -, -, houtput, -, -⟩ := startEvent_spec ((s.requested c d u).raise .overrun) c
  rw [startedLate, hchan, houtput, if_pos rfl, if_pos rfl, he, State.chan_raise, requested_chan, if_pos rfl]
  exact started_chanOk s.now _ (request_duration _ _ _ _ (h.duration_eq c))

/-- A cancelled channel has its part of the invariant (R225). -/
theorem cancelled_chanOk {s : State} (h : s.SchedInv) (enabled : Bool) (c : Chan) :
    ChanOk s.now enabled (if (s.chan c).status = .running then false else s.output c)
      { s.chan c with status := .off } := by
  have hout : (if (s.chan c).status = .running then false else s.output c) = false := by
    split
    · rfl
    · rename_i hoff
      rw [← h.out_running c] at hoff
      simpa using hoff
  rw [hout]
  exact chanOk_off s.now enabled _ (h.duration_eq c)

theorem cancelled_schedInv (s : State) (c : Chan) (h : s.SchedInv) :
    ((s.cancelChannel c).rearbitrate c.periph).SchedInv := by
  refine (cancelChannel_onlyChannel s c).schedInv h ?_
  obtain ⟨hchan, -, -, houtput, -, -⟩ := cancelChannel_spec s c
  rw [hchan, houtput, if_pos rfl]
  simpa using cancelled_chanOk h (s.chanEnabled c) c

/-- SCH_INIT sends every channel OFF, so it needs no timer to be right before it (R220). -/
theorem initialized_schedInv (s : State) (h : s.SchedInv) : (initialized s).SchedInv := by
  obtain ⟨hchan, -, -, houtput, -, -⟩ := cancelAll_spec s
  have hnow : s.cancelAll.now = s.now := (cancelAll_frame s).now
  have hok : ∀ (m : BitVec 16) (ch : Chan), ChanOk (s.cancelAll.setEnabled m).now
      ((s.cancelAll.setEnabled m).chanEnabled ch) ((s.cancelAll.setEnabled m).output ch)
      ((s.cancelAll.setEnabled m).chan ch) := fun m ch => by
    rw [State.setEnabled_now, State.output_setEnabled, State.chan_setEnabled, hnow, hchan, houtput]
    exact cancelled_chanOk h _ ch
  refine rearbitrate_schedInv _ 1 (fun ch => rearbitrate_chanOk _ 0 ch (hok _ ch)) fun q hq => ?_
  have hq : q = 0 := by revert hq; revert q; decide
  subst hq
  exact rearbitrate_timerOk _ 0 fun ch x _ hx => (hok _ ch).target_ahead x hx

/-- Every command keeps the scheduler's invariant. -/
theorem exec_schedInv (i : Instr) (s t : State) (h : s.SchedInv) (hexec : exec i s = .next t) : t.SchedInv := by
  obtain ⟨t', u, hexec', houtcome, hnow, hsched⟩ := exec_schedulerOutcome i s
  obtain rfl := Host.Outcome.next.inj (hexec'.symm.trans hexec)
  refine State.SchedInv.congr ?_ hnow hsched
  cases houtcome with
  | kept => exact h
  | initialized => exact initialized_schedInv s h
  | armed _ d u c enabled hd hu ahead => exact requested_schedInv s c d u h enabled hd hu ahead
  | late _ d u c enabled => exact startedLate_schedInv s c d u h enabled
  | cancelled _ c => exact cancelled_schedInv s c h

/-! ## The scheduler's invariant through the time step (R214, R230, R234, R236) -/

/-- The counter moves with NOW (R52). -/
theorem count_succ (now : Word) : (now + 1).extractLsb' 0 16 = (now.extractLsb' 0 16 + 1 : Half) := by
  apply BitVec.eq_of_toNat_eq
  have h32 : (1 : Word).toNat = 1 := rfl
  have h16 : (1 : Half).toNat = 1 := rfl
  simp only [BitVec.extractLsb'_toNat, BitVec.toNat_add, Nat.shiftRight_zero, h32, h16]
  omega

/-- A tick brings a match that is ahead and not at the new NOW one closer. -/
theorem distance_succ (compare count : Half) (h : 0 < (compare - count).toNat) (hne : compare ≠ count + 1) :
    0 < (compare - (count + 1)).toNat ∧ (compare - (count + 1)).toNat + 1 = (compare - count).toNat := by
  bv_omega

/-- Without a match a peripheral keeps its registers and its channels, and its part of the invariant at the new NOW. -/
theorem timerOk_without_match {s t : State} {p : Periph} (h : s.SchedInv) (hn : t.now = s.now + 1)
    (hm : ¬ ((s.timer p).armed = true ∧ (s.timer p).compare = (s.now + 1).extractLsb' 0 16))
    (ht : t.timer p = s.timer p) (hc : ∀ ch : Chan, ch.periph = p → t.chan ch = s.chan ch) : t.TimerOk p where
  armed_active := by
    rw [ht, h.armed_active]
    exact exists_congr fun ch => and_congr_right fun hp => by rw [hc ch hp]
  compare_nearest ha := by
    rw [ht] at ha
    obtain ⟨hpos, hnear⟩ := h.compare_nearest p ha
    have hne : (s.timer p).compare ≠ s.count + 1 := fun e => hm ⟨ha, by rw [e, count_succ]; rfl⟩
    obtain ⟨hpos', hdist⟩ := distance_succ _ _ hpos hne
    have ht' : t.matchDistance p = ((s.timer p).compare - (s.count + 1)).toNat := by
      rw [State.matchDistance, ht, State.count, hn, count_succ]; rfl
    refine ⟨ht' ▸ hpos', fun ch x hp hx => ?_⟩
    rw [hc ch hp] at hx
    have hoff := off_succ s.now x (h.target_ahead ch x hx)
    have hle := hnear ch x hp hx
    rw [State.matchDistance] at hle
    rw [ht', hn]
    omega

/-- The time step keeps the scheduler's invariant: a match re-arbitrates, and without one no channel was due. -/
theorem timeStep_schedInv (s : State) (h : s.SchedInv) : s.timeStep.SchedInv := by
  obtain ⟨hchan, htimer⟩ := (schedInv_iff s).1 h
  have hdue : ∀ p, { s with now := s.now + 1 }.MatchesDue p := fun p => matchesDue_of_timerOk s p (htimer p)
  obtain ⟨fired, henabled, hout, -, -, -, hmatch⟩ := timeStep_spec s hdue
  have hn : s.timeStep.now = s.now + 1 := (timeStep_frame s).now
  have hok : ∀ ch : Chan,
      ChanOk s.timeStep.now (s.timeStep.chanEnabled ch) (s.timeStep.output ch) (s.timeStep.chan ch) := fun ch => by
    rw [fired, hout, hn, State.chanEnabled, henabled]
    exact chanOk_fired s.now (s.now + 1) rfl _ _ _ (hchan ch)
  refine (schedInv_iff _).2 ⟨hok, fun p => ?_⟩
  rcases hmatch p with ⟨hm, ht⟩ | ⟨-, u, hun, -, huc, ht⟩
  · refine timerOk_without_match h hn hm ht fun ch hp => ?_
    rw [fired]
    exact fired_not_due _ _ ((hdue p).resolve_left hm ch hp)
  · have hsame : ∀ ch : Chan, ch.periph = p → s.timeStep.chan ch = u.chan ch := fun ch hp => by
      rw [fired, huc ch hp]
    refine (rearbitrate_timerOk u p fun ch x hp hx => ?_).congr (by rw [rearbitrate_now, hn, hun]) ht fun ch hp => by
      rw [rearbitrate_chan, hsame ch hp]
    rw [hun, ← hn]
    exact (hok ch).target_ahead x (by rw [hsame ch hp]; exact hx)

/-- Settles O55: by the commands and the time step. -/
theorem stepKeepsSchedulerInvariant : Obligations.StepKeepsSchedulerInvariant := fun _ _ =>
  step_keeps (fun _ _ h => h.congr rfl rfl) exec_schedInv (fun _ h => h.congr rfl rfl) timeStep_schedInv

/-! ## What the commands do to the decoder, its log and the configuration (R150, R151, R164, R173, R251, R261) -/

theorem acceptTooth_cfg (s : State) (gap : Word) (had : Bool) : (s.acceptTooth gap had).cfg = s.cfg := by
  obtain ⟨_, _, _, _, e⟩ := acceptTooth_frame s gap had
  rw [e]

/-- What a command leaves of the decoder, the log and the configuration, read off u: nothing written, or one of the ways in
which the commands of 41_trigger_decoder.md, CM_SPEED_CALCS, LOG_CLEAR and CFG_WRITE write them. -/
inductive DecoderOutcome (s : State) : Instr → State → Prop
  | kept (i : Instr) : DecoderOutcome s i s
  | setUp (legal : s.cfg.Legal) : DecoderOutcome s .tdSetup
      { s with
        dec := { s.dec.clear with configured := true, toothAngle := s.cfg.nominalAngle }
        log := { s.log with wr := 0, full := false } }
  | misconfigured : DecoderOutcome s .tdSetup { s with dec := { s.dec with configured := false } }
  | tooth (configured : s.dec.configured = true) : DecoderOutcome s .tdPrimaryEdge
      (s.acceptTooth s.primaryGap (decide (1 ≤ s.dec.teethSeen.toNat)))
  | secondarySeen : DecoderOutcome s .tdSecondaryEdge { s with dec := s.dec.secondarySeen s.now }
  | secondaryLost (configured : s.dec.configured = true) : DecoderOutcome s .tdSecondaryEdge
      { s with dec := (s.dec.secondarySeen s.now).syncLoss }
  | secondaryAcquired (configured : s.dec.configured = true) (pattern : s.cfg.pattern ≠ 0) :
      DecoderOutcome s .tdSecondaryEdge { s with dec := (s.dec.secondarySeen s.now).secondaryAcquire s.cfg.teeth }
  | stalled : DecoderOutcome s .tdStallCheck { s with dec := s.dec.stalled }
  | speedCalculated (configured : s.dec.configured = true) : DecoderOutcome s .cmSpeedCalcs
      { s with dec := s.dec.speedCalcs s.cfg.crankRpm }
  | logCleared : DecoderOutcome s .logClear { s with log := { s.log with wr := 0, full := false } }
  | configWritten (r : Byte) (v : Word) (c : ConfigRegs) : DecoderOutcome s (.cfgWrite r v)
      { s with cfg := c, dec := { s.dec with configured := false } }
  | countWritten (r : Byte) (v : Word) (f g : Byte) : DecoderOutcome s (.cfgWrite r v)
      { s with cfg := { s.cfg with fuelCh := f, ignCh := g } }

/-- t and u agree on what the decoder's invariant reads. -/
structure SameDecoder (u t : State) : Prop where
  dec : t.dec = u.dec
  log : t.log = u.log
  cfg : t.cfg = u.cfg

theorem execTdSetup_outcome (s : State) :
    ∃ t u, execTdSetup s = .next t ∧ DecoderOutcome s .tdSetup u ∧ SameDecoder u t := by
  unfold execTdSetup
  split
  · rename_i hvalid
    exact ⟨_, _, rfl, .setUp ((valid_iff_legal s.cfg).1 hvalid), rfl, rfl, rfl⟩
  · exact ⟨_, _, rfl, .misconfigured, rfl, rfl, rfl⟩

theorem execTdPrimaryEdge_outcome (s : State) :
    ∃ t u, execTdPrimaryEdge s = .next t ∧ DecoderOutcome s .tdPrimaryEdge u ∧ SameDecoder u t := by
  unfold execTdPrimaryEdge
  split
  · exact ⟨_, s, rfl, .kept _, rfl, rfl, rfl⟩
  · rename_i hc
    split
    · exact ⟨_, s, rfl, .kept _, rfl, rfl, rfl⟩
    · exact ⟨_, _, rfl, .tooth (by simpa using hc), rfl, rfl, rfl⟩

theorem execTdSecondaryEdge_outcome (s : State) :
    ∃ t u, execTdSecondaryEdge s = .next t ∧ DecoderOutcome s .tdSecondaryEdge u ∧ SameDecoder u t := by
  unfold execTdSecondaryEdge
  split
  · exact ⟨_, s, rfl, .kept _, rfl, rfl, rfl⟩
  · rename_i hc
    have hc : s.dec.configured = true := by simpa using hc
    split
    · exact ⟨_, s, rfl, .kept _, rfl, rfl, rfl⟩
    · dsimp only
      split
      · exact ⟨_, _, rfl, .secondarySeen, rfl, rfl, rfl⟩
      · rename_i hp
        have hp : s.cfg.pattern ≠ 0 := fun h0 => hp (by rw [h0]; decide)
        split
        · exact ⟨_, _, rfl, .secondaryLost hc, rfl, rfl, rfl⟩
        · exact ⟨_, _, rfl, .secondaryAcquired hc hp, rfl, rfl, rfl⟩

theorem execTdStallCheck_outcome (s : State) :
    ∃ t u, execTdStallCheck s = .next t ∧ DecoderOutcome s .tdStallCheck u ∧ SameDecoder u t := by
  unfold execTdStallCheck
  split
  · exact ⟨_, s, rfl, .kept _, rfl, rfl, rfl⟩
  · split
    · exact ⟨_, _, rfl, .stalled, rfl, rfl, rfl⟩
    · exact ⟨_, s, rfl, .kept _, rfl, rfl, rfl⟩

theorem execCmSpeedCalcs_outcome (s : State) :
    ∃ t u, execCmSpeedCalcs s = .next t ∧ DecoderOutcome s .cmSpeedCalcs u ∧ SameDecoder u t := by
  unfold execCmSpeedCalcs
  split
  · exact ⟨_, s, rfl, .kept _, rfl, rfl, rfl⟩
  · rename_i hc
    split
    · exact ⟨_, s, rfl, .kept _, rfl, rfl, rfl⟩
    · exact ⟨_, _, rfl, .speedCalculated (by simpa using hc), rfl, rfl, rfl⟩

/-- The registers of the scheduler's counts are no part of the decoder's configuration (R252, R253). -/
theorem write_schedulerCount (c : ConfigRegs) (r : Reg) (v : Word) (hw : r.writable = true)
    (hr : r.clearsConfigured = false) : ∃ f g, c.write r v = { c with fuelCh := f, ignCh := g } := by
  have hcount : r = .cfgFuelCh ∨ r = .cfgIgnCh := by
    revert hw hr
    cases r <;> simp [Reg.clearsConfigured, Reg.writable]
  rcases hcount with rfl | rfl
  · exact ⟨_, _, rfl⟩
  · exact ⟨_, _, rfl⟩

theorem execCfgWrite_outcome (r : Byte) (v : Word) (s : State) :
    ∃ t u, execCfgWrite r v s = .next t ∧ DecoderOutcome s (.cfgWrite r v) u ∧ SameDecoder u t := by
  unfold execCfgWrite
  split
  · exact ⟨_, s, rfl, .kept _, rfl, rfl, rfl⟩
  · rename_i reg _
    split
    · exact ⟨_, s, rfl, .kept _, rfl, rfl, rfl⟩
    · rename_i hw
      split
      · exact ⟨_, s, rfl, .kept _, rfl, rfl, rfl⟩
      · by_cases hclears : reg.clearsConfigured = true
        · exact ⟨_, _, rfl, .configWritten r v (s.cfg.write reg v), if_pos hclears, rfl, rfl⟩
        · obtain ⟨f, g, e⟩ := write_schedulerCount s.cfg reg v (by simpa using hw) (by simpa using hclears)
          exact ⟨_, _, rfl, .countWritten r v f g, if_neg hclears, rfl, e⟩

/-- Every command answers a state with the decoder, the log and the configuration of one of these outcomes. -/
theorem exec_decoderOutcome (i : Instr) (s : State) :
    ∃ t u, exec i s = .next t ∧ DecoderOutcome s i u ∧ SameDecoder u t := by
  obtain ⟨t, hexec, hframe⟩ := exec_frame i s
  rcases hframe with ⟨_, _, rfl⟩ | ⟨rfl | rfl | rfl | rfl | rfl | rfl, -⟩ | ⟨-, _, _, _, rfl⟩ | ⟨-, _, _, rfl⟩ |
    ⟨-, _, _, rfl⟩ | ⟨⟨r, v, rfl⟩, -⟩
  · exact ⟨_, s, hexec, .kept i, rfl, rfl, rfl⟩
  · exact execTdSetup_outcome s
  · exact execTdPrimaryEdge_outcome s
  · exact execTdSecondaryEdge_outcome s
  · exact execTdStallCheck_outcome s
  · exact execCmSpeedCalcs_outcome s
  · exact ⟨_, _, rfl, .logCleared, rfl, rfl, rfl⟩
  · exact ⟨_, s, hexec, .kept i, rfl, rfl, rfl⟩
  · exact ⟨_, s, hexec, .kept i, rfl, rfl, rfl⟩
  · exact ⟨_, s, hexec, .kept i, rfl, rfl, rfl⟩
  · exact execCfgWrite_outcome r v s

/-! ## The decoder's invariant: decoders at rest (R122, R150, R173) -/

/-- What power-on reset, TD_SETUP and the stall all leave: no sync, no grace, no tooth or revolution counted, no sample,
zero pairs. -/
structure AtRest (d : Decoder) : Prop where
  teethSeen : d.teethSeen = 0
  revSeen : d.revSeen = 0
  hasSync : d.hasSync = false
  validTeeth : d.validTeeth = 0
  graceActive : d.graceActive = false
  graceTeeth : d.graceTeeth = 0
  regValid : d.regValid = false
  tpd16 : d.tpd16 = Vector.replicate _ 0
  dpu32768 : d.dpu32768 = Vector.replicate _ 0

/-- LOG_WR is 0 to LOG_SIZE, and LOG_FULL says that it has reached LOG_SIZE (R45). -/
structure LogOk (l : ToothLog) : Prop where
  wr_le : l.wr.toNat ≤ Config.logSize
  full_iff : l.full = true ↔ l.wr.toNat = Config.logSize

/-- The configuration is legal and TOOTH_ANGLE is the one TD_SETUP latched of it (R23, R24). -/
structure Latched (c : ConfigRegs) (d : Decoder) : Prop where
  legal : c.Legal
  toothAngle : d.toothAngle.toNat = if c.pattern = 2 then 0 else 360 / c.teeth.toNat

/-- A decoder at rest has the invariant, configured or not. -/
theorem AtRest.decInv {s : State} (h : AtRest s.dec) (hlog : LogOk s.log)
    (hcfg : s.dec.configured = true → Latched s.cfg s.dec) : s.DecInv where
  teeth_seen := by simp [h.teethSeen]
  rev_seen := by simp [h.revSeen]
  log_wr := hlog.wr_le
  log_full := hlog.full_iff
  gap_eq k := by simp [h.teethSeen] at k
  configured_legal k := ⟨(hcfg k).legal, (hcfg k).toothAngle⟩
  synced_count _ k := by simp [h.hasSync] at k
  grace_unsynced _ := h.hasSync
  grace_idle _ := h.graceTeeth
  grace_count _ k := by simp [h.graceActive] at k
  unsynced_counts _ := ⟨h.validTeeth, h.revSeen⟩
  span_range k := by simp [h.regValid] at k
  pairs m := by rw [h.tpd16, h.dpu32768]; exact zeroed_pairs m

theorem emptyLog_ok (l : ToothLog) : LogOk { l with wr := 0, full := false } :=
  ⟨Nat.zero_le _, by simp [Config.logSize]⟩

/-! ## The decoder's invariant through the log (R45, R261, R262) -/

/-- An append moves LOG_WR one up, unless the log is full (R262). -/
theorem append_ok (l : ToothLog) (gap : Word) (h : LogOk l) : LogOk (l.append gap) := by
  by_cases hfull : l.full = true
  · rwa [ToothLog.append, if_pos hfull]
  · have hroom : l.wr.toNat < 64 := Nat.lt_of_le_of_ne h.wr_le fun e => hfull (h.full_iff.2 e)
    have hwr : (l.wr + 1).toNat = l.wr.toNat + 1 := by
      rw [BitVec.toNat_add, show (1 : BitVec 7).toNat = 1 from rfl]
      exact Nat.mod_eq_of_lt (by omega)
    rw [ToothLog.append, if_neg hfull]
    exact ⟨hwr.trans_le hroom, by simp⟩

theorem toothLog_ok (s : State) (gap : Word) (had : Bool) (h : LogOk s.log) : LogOk (s.toothLog gap had) := by
  unfold State.toothLog
  split
  · exact append_ok s.log gap h
  · exact h

/-- The invariant with another log of which R45 holds. -/
theorem decInv_of_log {s : State} (h : s.DecInv) {l : ToothLog} (hl : LogOk l) : { s with log := l }.DecInv :=
  ⟨h.teeth_seen, h.rev_seen, hl.wr_le, hl.full_iff, h.gap_eq, h.configured_legal, h.synced_count, h.grace_unsynced,
    h.grace_idle, h.grace_count, h.unsynced_counts, h.span_range, h.pairs⟩

/-! ## The decoder's invariant through TD_SETUP and CFG_WRITE (R150, R251, R252) -/

/-- The nominal angle of a legal configuration (R24, R150). -/
theorem nominalAngle_toNat (c : ConfigRegs) (h : c.Legal) :
    c.nominalAngle.toNat = if c.pattern = 2 then 0 else 360 / c.teeth.toNat := by
  obtain ⟨hpattern, -, -, missing, dual, -⟩ := h
  unfold ConfigRegs.nominalAngle
  by_cases h2 : c.pattern = 2
  · rw [if_pos h2, if_pos h2]; rfl
  · have hteeth : 1 ≤ c.teeth.toNat := by
      rcases hpattern with h0 | h1 | k
      · exact le_trans (by decide) (missing h0).1
      · exact (dual h1).1
      · exact absurd k h2
    rw [if_neg h2, if_neg h2, quot_pos _ _ hteeth, BitVec.toNat_ofNat]
    exact Nat.mod_eq_of_lt (lt_of_le_of_lt (Nat.div_le_self _ _) (by decide))

/-- TD_SETUP leaves a decoder at rest with its latches (R150). -/
theorem setUp_decInv {s : State} (legal : s.cfg.Legal) :
    { s with
      dec := { s.dec.clear with configured := true, toothAngle := s.cfg.nominalAngle }
      log := { s.log with wr := 0, full := false } }.DecInv :=
  AtRest.decInv ⟨rfl, rfl, rfl, rfl, rfl, rfl, rfl, rfl, rfl⟩ (emptyLog_ok s.log) fun _ =>
    ⟨legal, nominalAngle_toNat s.cfg legal⟩

/-- A decoder that is no longer configured has the invariant, whatever the configuration registers then hold (R252). -/
theorem unconfigured_decInv {s : State} (h : s.DecInv) (c : ConfigRegs) :
    { s with cfg := c, dec := { s.dec with configured := false } }.DecInv where
  teeth_seen := h.teeth_seen
  rev_seen := h.rev_seen
  log_wr := h.log_wr
  log_full := h.log_full
  gap_eq := h.gap_eq
  configured_legal k := absurd k Bool.false_ne_true
  synced_count k := absurd k Bool.false_ne_true
  grace_unsynced := h.grace_unsynced
  grace_idle := h.grace_idle
  grace_count k := absurd k Bool.false_ne_true
  unsynced_counts := h.unsynced_counts
  span_range := h.span_range
  pairs := h.pairs

/-! ## The decoder's invariant through the edges, the stall and the speed calculation -/

/-- The parts of the invariant that are not the tooth's own: the timing record, the latches and the log. -/
structure RecordOk (s : State) : Prop where
  teethSeen : s.dec.teethSeen.toNat ≤ 2
  gap_eq : s.dec.teethSeen = 2 → s.dec.toothGap = s.dec.toothLastTime - s.dec.toothLastMinusOneTime
  latched : s.dec.configured = true → Latched s.cfg s.dec
  log : LogOk s.log

theorem recordOk_of_decInv {s : State} (h : s.DecInv) : RecordOk s :=
  ⟨h.teeth_seen, h.gap_eq, fun hc => ⟨(h.configured_legal hc).1, (h.configured_legal hc).2⟩, ⟨h.log_wr, h.log_full⟩⟩

theorem RecordOk.decInv {s : State} (h : RecordOk s) (k : BookedOk s.cfg.teethPerRev s.dec) : s.DecInv :=
  k.decInv h.teethSeen h.log.wr_le h.log.full_iff h.gap_eq fun c => ⟨(h.latched c).legal, (h.latched c).toothAngle⟩

/-- A decoder with the same record, beside the same configuration and a log of which R45 holds. -/
theorem RecordOk.of_sameRecord {s t : State} (h : RecordOk s) (hd : SameRecord s.dec t.dec) (hc : t.cfg = s.cfg)
    (hl : LogOk t.log) : RecordOk t where
  teethSeen := hd.teethSeen ▸ h.teethSeen
  gap_eq := by
    rw [hd.teethSeen, hd.toothGap, hd.toothLastTime, hd.toothLastMinusOneTime]
    exact h.gap_eq
  latched k := by
    obtain ⟨hlegal, hangle⟩ := h.latched (hd.configured ▸ k)
    exact ⟨hc ▸ hlegal, by rw [hd.toothAngle, hc, hangle]⟩
  log := hl

theorem RecordOk.withDecoder {s : State} (h : RecordOk s) {d : Decoder} (hd : SameRecord s.dec d) :
    RecordOk { s with dec := d } := h.of_sameRecord hd rfl h.log

/-- The history shift of an accepted tooth keeps TOOTH_GAP the difference of the valid timestamps (R27, R153). -/
theorem shiftHistory_recordOk {s : State} (h : RecordOk s) :
    RecordOk { s with dec := s.dec.shiftHistory s.now s.primaryGap (decide (1 ≤ s.dec.teethSeen.toNat)) } where
  teethSeen := by
    show (satInc s.dec.teethSeen 2).toNat ≤ 2
    rw [satInc_toNat _ _ (by decide)]
    omega
  gap_eq := by
    intro hseen
    have hseen : (satInc s.dec.teethSeen 2).toNat = 2 := congrArg BitVec.toNat hseen
    rw [satInc_toNat _ _ (by decide)] at hseen
    have had : 1 ≤ s.dec.teethSeen.toNat := by omega
    simp [Decoder.shiftHistory, had, primaryGap_of_seen s had]
  latched k := ⟨(h.latched k).legal, (h.latched k).toothAngle⟩
  log := h.log

/-- An accepted tooth (R151): the tooth's own part by `acceptTooth_bookedOk`, the record as the shift left it. -/
theorem acceptTooth_decInv {s : State} {gap : Word} {had : Bool} (h : s.DecInv) (hc : s.dec.configured = true)
    (hshift : RecordOk { s with dec := s.dec.shiftHistory s.now gap had }) : (s.acceptTooth gap had).DecInv := by
  have hcfg := acceptTooth_cfg s gap had
  refine (hshift.of_sameRecord (acceptTooth_record s gap had) hcfg ?_).decInv ?_
  · rw [acceptTooth_log]
    exact toothLog_ok s gap had ⟨h.log_wr, h.log_full⟩
  · rw [hcfg]
    exact acceptTooth_bookedOk s gap had hc h

/-- The secondary edge writes its own record and REV_FLAG, which the invariant does not read (R164). -/
theorem secondarySeen_decInv {s : State} (h : s.DecInv) (time : Word) :
    { s with dec := s.dec.secondarySeen time }.DecInv :=
  ⟨h.1, h.2, h.3, h.4, h.5, h.6, h.7, h.8, h.9, h.10, h.11, h.12, h.13⟩

theorem syncLoss_decInv {s : State} (h : s.DecInv) (hc : s.dec.configured = true) :
    { s with dec := s.dec.syncLoss }.DecInv := by
  have hrecord : RecordOk { s with dec := s.dec.syncLoss } :=
    (recordOk_of_decInv h).withDecoder ⟨rfl, rfl, rfl, rfl, rfl, rfl, rfl, rfl⟩
  exact hrecord.decInv (bookedOk_syncLoss (teethPerRev_range (h.configured_legal hc).1).1 h.span_range h.pairs)

/-- Sync by the secondary edge: the count is N, the teeth per revolution of patterns 1 and 2 (R164). -/
theorem secondaryAcquire_decInv {s : State} (h : s.DecInv) (hc : s.dec.configured = true) (hp : s.cfg.pattern ≠ 0) :
    { s with dec := s.dec.secondaryAcquire s.cfg.teeth }.DecInv := by
  have hrange := teethPerRev_range (h.configured_legal hc).1
  have htpr : s.cfg.teethPerRev = s.cfg.teeth.toNat := by rw [ConfigRegs.teethPerRev, if_neg hp]
  have hrecord : RecordOk { s with dec := s.dec.secondaryAcquire s.cfg.teeth } :=
    (recordOk_of_decInv h).withDecoder ⟨rfl, rfl, rfl, rfl, rfl, rfl, rfl, rfl⟩
  refine hrecord.decInv ⟨⟨h.rev_seen, fun _ => ?_, fun _ => rfl, fun k => ?_, fun k => ?_, h.span_range, h.pairs⟩,
    fun k => ?_⟩
  · show 1 ≤ s.cfg.teeth.toNat ∧ (s.cfg.teeth.toNat : Int) ≤ s.cfg.teethPerRev
    omega
  · exact absurd k (by decide : (true : Bool) ≠ false)
  · exact absurd k (by decide : (true : Bool) ≠ false)
  · exact absurd k (by decide : (false : Bool) ≠ true)

theorem stalled_decInv {s : State} (h : s.DecInv) : { s with dec := s.dec.stalled }.DecInv :=
  AtRest.decInv ⟨rfl, rfl, rfl, rfl, rfl, rfl, rfl, rfl, rfl⟩ ⟨h.log_wr, h.log_full⟩ fun hc =>
    ⟨(h.configured_legal hc).1, (h.configured_legal hc).2⟩

theorem speedCalcs_decInv {s : State} (h : s.DecInv) (hc : s.dec.configured = true) :
    { s with dec := s.dec.speedCalcs s.cfg.crankRpm }.DecInv :=
  ((recordOk_of_decInv h).withDecoder (speedCalcs_record s.dec s.cfg.crankRpm)).decInv
    ((h.booked hc).speedCalcs s.cfg.crankRpm)

/-- The counts of the scheduler's channels are no part of the decoder's configuration (R252, R253). -/
theorem countWritten_decInv {s : State} (h : s.DecInv) (f g : Byte) :
    { s with cfg := { s.cfg with fuelCh := f, ignCh := g } }.DecInv :=
  ⟨h.1, h.2, h.3, h.4, h.5, h.6, h.7, h.8, h.9, h.10, h.11, h.12, h.13⟩

/-- Every command keeps the decoder's invariant. -/
theorem exec_decInv (i : Instr) (s t : State) (h : s.DecInv) (hexec : exec i s = .next t) : t.DecInv := by
  obtain ⟨t', u, hexec', houtcome, hsame⟩ := exec_decoderOutcome i s
  obtain rfl := Host.Outcome.next.inj (hexec'.symm.trans hexec)
  refine State.DecInv.congr ?_ hsame.dec hsame.log hsame.cfg
  have hseen := secondarySeen_decInv h s.now
  cases houtcome with
  | kept => exact h
  | setUp legal => exact setUp_decInv legal
  | misconfigured => exact unconfigured_decInv h s.cfg
  | tooth configured => exact acceptTooth_decInv h configured (shiftHistory_recordOk (recordOk_of_decInv h))
  | secondarySeen => exact hseen
  | secondaryLost configured => exact syncLoss_decInv hseen configured
  | secondaryAcquired configured pattern => exact secondaryAcquire_decInv hseen configured pattern
  | stalled => exact stalled_decInv h
  | speedCalculated configured => exact speedCalcs_decInv h configured
  | logCleared => exact decInv_of_log h (emptyLog_ok s.log)
  | configWritten _ _ c => exact unconfigured_decInv h c
  | countWritten _ _ f g => exact countWritten_decInv h f g

/-- A time step writes NOW, the scheduler and STICKY only (R230). -/
theorem timeStep_writes (s : State) :
    s.timeStep = { s with now := s.now + 1, sched := s.timeStep.sched, sticky := s.timeStep.sticky } :=
  timeStep_frame s

theorem timeStep_decInv (s : State) (h : s.DecInv) : s.timeStep.DecInv := by
  rw [timeStep_writes]
  exact h.congr rfl rfl rfl

/-- Settles O56: by the commands and the time step. -/
theorem stepKeepsDecoderInvariant : Obligations.StepKeepsDecoderInvariant := fun _ _ =>
  step_keeps (fun _ _ h => h.congr rfl rfl rfl) exec_decInv (fun _ h => h.congr rfl rfl rfl) timeStep_decInv

/-! ## Power-on reset (R56, R310) -/

/-- Settles O9: `State.reset` evaluated, the vectors entry by entry. -/
theorem resetValues : Obligations.ResetValues := by
  simp [Obligations.ResetValues, State.reset, Decoder.reset, ToothLog.reset, Scheduler.reset, ConfigRegs.reset,
    State.chan, State.timer, Channel.reset]

theorem reset_schedInv : State.reset.SchedInv := by
  have hchan : ∀ ch, State.reset.chan ch = Channel.reset := fun ch => by
    simp [State.chan, State.reset, Scheduler.reset]
  have htimer : ∀ p, State.reset.timer p = ⟨0, false⟩ := fun p => by
    simp [State.timer, State.reset, Scheduler.reset]
  refine (schedInv_iff _).2 ⟨fun ch => ?_, fun p => ⟨?_, fun k => ?_⟩⟩
  · have hout : State.reset.output ch = false := by simp [State.output, State.reset, Scheduler.reset]
    rw [hchan, hout]
    exact chanOk_off _ _ Channel.reset rfl
  · simp [hchan, htimer, Channel.reset]
  · simp [htimer] at k

theorem reset_decInv : State.reset.DecInv :=
  AtRest.decInv ⟨rfl, rfl, rfl, rfl, rfl, rfl, rfl, rfl, rfl⟩ (emptyLog_ok ToothLog.reset)
    fun k => absurd k Bool.false_ne_true

/-- Settles O58: the invariants hold of `State.reset` and read no PERIPH_ORDER. -/
theorem resetIsSafe : Obligations.ResetIsSafe := fun _ =>
  ⟨reset_schedInv.congr rfl rfl, reset_decInv.congr rfl rfl rfl, Nat.zero_le 11, fun k => absurd rfl k⟩

/-! ## STICKY (R49) -/

/-- A register with more flags set has every flag that was set. -/
theorem getLsbD_or_of_left {v : BitVec 7} (k : BitVec 7) {j : Nat} (h : v.getLsbD j = true) :
    (v ||| k).getLsbD j = true := by
  rw [BitVec.getLsbD_or, h, Bool.true_or]

/-- Settles O50: every frame but STICKY_CLEAR's only adds flags, and so does the time step. -/
theorem stickyKeptUntilCleared : Obligations.StickyKeptUntilCleared := by
  refine ⟨fun i s hi => ?_, fun s j hj => ?_⟩
  · obtain ⟨t, hexec, hframe⟩ := exec_frame i s
    refine ⟨t, hexec, fun j hj => ?_⟩
    rcases hframe with ⟨_, k, rfl⟩ | ⟨-, _, _, _, k, rfl⟩ | ⟨-, _, _, k, rfl⟩ | ⟨-, _, _, rfl⟩ | ⟨⟨mask, rfl⟩, -⟩ |
      ⟨-, _, _, _, rfl⟩
    · exact getLsbD_or_of_left k hj
    · exact getLsbD_or_of_left k hj
    · exact getLsbD_or_of_left k hj
    · exact hj
    · exact absurd rfl (hi mask)
    · exact hj
  · obtain ⟨k, hk⟩ := timeStep_sticky s
    rw [hk]
    exact getLsbD_or_of_left k hj

/-! ## CALLBACK_TRACE (R53, R213) -/

/-- t's CALLBACK_TRACE is s's followed by entries of the NOW that both states have. -/
structure TraceGrows (s t : State) : Prop where
  now : t.now = s.now
  trace : ∃ l, t.sched.trace = s.sched.trace ++ l ∧ ∀ e ∈ l, e.time = s.now

theorem TraceGrows.of_eq {s t : State} (hn : t.now = s.now) (ht : t.sched.trace = s.sched.trace) : TraceGrows s t :=
  ⟨hn, [], by rw [ht, List.append_nil], by simp⟩

theorem TraceGrows.trans {s t u : State} (h : TraceGrows s t) (k : TraceGrows t u) : TraceGrows s u := by
  obtain ⟨hn, l, hl, hle⟩ := h
  obtain ⟨kn, m, hm, hme⟩ := k
  refine ⟨kn.trans hn, l ++ m, by rw [hm, hl, List.append_assoc], fun e he => ?_⟩
  rcases List.mem_append.1 he with he | he
  · exact hle e he
  · exact (hme e he).trans hn

theorem TraceGrows.entries {s t : State} (h : TraceGrows s t) :
    ∃ l, t.sched.trace = s.sched.trace ++ l ∧ ∀ e ∈ l, e.time = t.now := by
  obtain ⟨hn, l, hl, he⟩ := h
  exact ⟨l, hl, fun e hel => (he e hel).trans hn.symm⟩

theorem startCallbacks_time {now : Word} {ch : Chan} {c : Channel} {e : Callback} (he : e ∈ startCallbacks now ch c) :
    e.time = now := by
  rcases List.mem_cons.1 he with rfl | he
  · rfl
  · split at he
    · rw [List.mem_singleton.1 he]
    · simp at he

theorem firedCallbacks_time {now : Word} {ch : Chan} {c : Channel} {e : Callback} (he : e ∈ firedCallbacks now ch c) :
    e.time = now := by
  unfold firedCallbacks at he
  split at he
  · exact startCallbacks_time he
  · split at he
    · rw [List.mem_singleton.1 he]
    · simp at he

theorem rearbitrate_traceGrows (s : State) (p : Periph) : TraceGrows s (s.rearbitrate p) :=
  .of_eq (rearbitrate_now s p) (rearbitrate_trace s p)

theorem startEvent_traceGrows (s : State) (ch : Chan) : TraceGrows s (s.startEvent ch) := by
  obtain ⟨-, -, -, -, htrace, -⟩ := startEvent_spec s ch
  exact ⟨(startEvent_frame s ch).now, _, htrace, fun _ => startCallbacks_time⟩

theorem cancelChannel_traceGrows (s : State) (ch : Chan) : TraceGrows s (s.cancelChannel ch) := by
  obtain ⟨-, -, -, -, htrace, -⟩ := cancelChannel_spec s ch
  refine ⟨(cancelChannel_frame s ch).now, _, htrace, fun e he => ?_⟩
  split at he
  · rw [List.mem_singleton.1 he]
  · simp at he

theorem initialized_traceGrows (s : State) : TraceGrows s (initialized s) := by
  obtain ⟨-, -, -, -, htrace, -⟩ := cancelAll_spec s
  have hcancel : TraceGrows s s.cancelAll := ⟨(cancelAll_frame s).now, _, htrace, fun e he => by
    obtain ⟨_, -, rfl⟩ := List.mem_map.1 he
    rfl⟩
  have henable : TraceGrows s.cancelAll (s.cancelAll.setEnabled (enableMask s.cfg.fuelCh.toNat s.cfg.ignCh.toNat)) :=
    .of_eq (State.setEnabled_now ..) (by rw [State.setEnabled_sched])
  exact (hcancel.trans henable).trans ((rearbitrate_traceGrows _ 0).trans (rearbitrate_traceGrows _ 1))

theorem startedLate_traceGrows (s : State) (c : Chan) (d u : Word) : TraceGrows s (startedLate s c d u) :=
  .trans (.of_eq rfl rfl : TraceGrows s ((s.requested c d u).raise .overrun)) (startEvent_traceGrows _ c)

/-- Peripheral p fires its channels at NOW, whether or not its compare stands past one of them (R230). -/
theorem examinePeriph_traceGrows (s : State) (p : Periph) : TraceGrows s (s.examinePeriph p) := by
  unfold State.examinePeriph
  split
  · obtain ⟨-, -, -, -, htrace⟩ := fireChannels_spec _ (channels_nodup p) s
    have hfire : TraceGrows s ((Periph.channels p).foldl State.fireChannel s) :=
      ⟨(SchedFrame.foldl fireChannel_frame _ s).now, _, htrace, fun e he => by
        obtain ⟨ch, -, hch⟩ := List.mem_flatMap.1 he
        exact firedCallbacks_time hch⟩
    exact hfire.trans (rearbitrate_traceGrows _ p)
  · exact .of_eq rfl rfl

/-- A time step examines the two peripherals at the new NOW. -/
theorem timeStep_examines (s : State) : ∃ p q : Periph,
    s.timeStep = ({ s with now := s.now + 1 }.examinePeriph p).examinePeriph q := by
  obtain ⟨p, q, -, horder, -⟩ := timeStep_order s
  exact ⟨p, q, by rw [State.timeStep, horder]; rfl⟩

theorem timeStep_traceGrows (s : State) : TraceGrows { s with now := s.now + 1 } s.timeStep := by
  obtain ⟨p, q, e⟩ := timeStep_examines s
  rw [e]
  exact (examinePeriph_traceGrows _ p).trans (examinePeriph_traceGrows _ q)

theorem exec_traceGrows (i : Instr) (s : State) : ∃ t, exec i s = .next t ∧ TraceGrows s t := by
  obtain ⟨t, u, hexec, houtcome, hnow, hsched⟩ := exec_schedulerOutcome i s
  refine ⟨t, hexec, TraceGrows.trans ?_ (.of_eq hnow (by rw [hsched]))⟩
  cases houtcome with
  | kept => exact .of_eq rfl rfl
  | initialized => exact initialized_traceGrows s
  | armed _ d u c => exact .trans (.of_eq rfl rfl : TraceGrows s (s.requested c d u)) (rearbitrate_traceGrows _ _)
  | late _ d u c => exact (startedLate_traceGrows s c d u).trans (rearbitrate_traceGrows _ _)
  | cancelled _ c => exact (cancelChannel_traceGrows s c).trans (rearbitrate_traceGrows _ _)

/-- Settles O52: by the four things a step can do. -/
theorem traceOnlyGrows : Obligations.TraceOnlyGrows := by
  intro s
  rcases step_cases s with ⟨-, h⟩ | ⟨_, _, i, rest, -, -, h⟩ | ⟨_, _, _, rest, -, -, h⟩ | ⟨rest, -, h⟩
  · exact ⟨s, [], h, by simp, by simp⟩
  · obtain ⟨t, hexec, hgrows⟩ := exec_traceGrows i { s with inputs := rest }
    obtain ⟨l, hl⟩ := hgrows.entries
    exact ⟨t, l, h.trans hexec, hl⟩
  · exact ⟨_, [], h, by simp, by simp⟩
  · obtain ⟨l, hl⟩ := (timeStep_traceGrows { s with inputs := rest }).entries
    exact ⟨_, l, h, hl⟩

/-! ## Who writes the state (R23, R46, R48, R54, R79, R122) -/

/-- A cancellation, a request or a late start, and the re-arbitration after it, write no enable. -/
theorem OnlyChannel.enabled_rearbitrate {c : Chan} {s u : State} (h : OnlyChannel c s u) (p : Periph) :
    (u.rearbitrate p).sched.enabled = s.sched.enabled :=
  (rearbitrate_enabled u p).trans h.enabled

theorem exec_snap {i : Instr} {s t : State} (hexec : exec i s = .next t) (hi : i ≠ .tdSnapshot) : t.snap = s.snap := by
  obtain ⟨t', hexec', hframe⟩ := exec_frame i s
  obtain rfl := Host.Outcome.next.inj (hexec'.symm.trans hexec)
  rcases hframe with ⟨_, _, rfl⟩ | ⟨-, _, _, _, _, rfl⟩ | ⟨-, _, _, _, rfl⟩ | ⟨rfl, -⟩ | ⟨-, _, _, rfl⟩ |
    ⟨-, _, _, _, rfl⟩
  · rfl
  · rfl
  · rfl
  · exact absurd rfl hi
  · rfl
  · rfl

namespace SchedulerOutcome

variable {i : Instr} {s u : State}

theorem enabled_eq (h : SchedulerOutcome s i u) (hinit : i ≠ .schInit) : u.sched.enabled = s.sched.enabled := by
  cases h with
  | kept => rfl
  | initialized => exact absurd rfl hinit
  | armed _ d w c => exact (requested_onlyChannel s c d w).enabled_rearbitrate _
  | late _ d w c => exact (startedLate_onlyChannel s c d w).enabled_rearbitrate _
  | cancelled _ c => exact (cancelChannel_onlyChannel s c).enabled_rearbitrate _

theorem sched_eq (h : SchedulerOutcome s i u) (hinit : i ≠ .schInit) (hsched : ∀ c d w, i ≠ .schSchedule c d w)
    (hcancel : ∀ c, i ≠ .schCancel c) : u.sched = s.sched := by
  cases h with
  | kept => rfl
  | initialized => exact absurd rfl hinit
  | armed ch d w | late ch d w => exact absurd rfl (hsched ch d w)
  | cancelled ch => exact absurd rfl (hcancel ch)

end SchedulerOutcome

namespace DecoderOutcome

variable {i : Instr} {s u : State}

theorem cfg_eq (h : DecoderOutcome s i u) (hcfg : ∀ r v, i ≠ .cfgWrite r v) : u.cfg = s.cfg := by
  cases h with
  | tooth => exact acceptTooth_cfg ..
  | configWritten r v | countWritten r v => exact absurd rfl (hcfg r v)
  | _ => rfl

theorem log_eq (h : DecoderOutcome s i u) (hsetup : i ≠ .tdSetup) (hprimary : i ≠ .tdPrimaryEdge)
    (hclear : i ≠ .logClear) : u.log = s.log := by
  cases h with
  | setUp => exact absurd rfl hsetup
  | tooth => exact absurd rfl hprimary
  | logCleared => exact absurd rfl hclear
  | _ => rfl

theorem speed_eq (h : DecoderOutcome s i u) (hsetup : i ≠ .tdSetup) (hprimary : i ≠ .tdPrimaryEdge)
    (hstall : i ≠ .tdStallCheck) (hspeed : i ≠ .cmSpeedCalcs) :
    u.dec.tpd16 = s.dec.tpd16 ∧ u.dec.dpu32768 = s.dec.dpu32768 ∧ u.dec.rpmReg = s.dec.rpmReg := by
  cases h with
  | setUp => exact absurd rfl hsetup
  | tooth => exact absurd rfl hprimary
  | stalled => exact absurd rfl hstall
  | speedCalculated => exact absurd rfl hspeed
  | _ => exact ⟨rfl, rfl, rfl⟩

theorem configured_eq (h : DecoderOutcome s i u) (hsetup : i ≠ .tdSetup) (hcfg : ∀ r v, i ≠ .cfgWrite r v) :
    u.dec.configured = s.dec.configured := by
  cases h with
  | setUp | misconfigured => exact absurd rfl hsetup
  | tooth => exact (acceptTooth_record ..).configured
  | speedCalculated => exact (speedCalcs_record ..).configured
  | configWritten r v => exact absurd rfl (hcfg r v)
  | _ => rfl

end DecoderOutcome

theorem examinePeriph_enabled (s : State) (p : Periph) : (s.examinePeriph p).sched.enabled = s.sched.enabled := by
  unfold State.examinePeriph
  split
  · rw [rearbitrate_enabled, (fireChannels_spec _ (channels_nodup p) s).2.2.1]
  · rfl

theorem timeStep_enabled (s : State) : s.timeStep.sched.enabled = s.sched.enabled := by
  obtain ⟨p, q, e⟩ := timeStep_examines s
  rw [e, examinePeriph_enabled, examinePeriph_enabled]

/-- Settles O51: by what a command leaves of the scheduler, of the decoder and of the snapshot. -/
theorem writersOfTheState : Obligations.WritersOfTheState := by
  refine ⟨fun i s => ?_, fun s => ?_⟩
  · obtain ⟨t, u, hexec, hdecoder, hsame⟩ := exec_decoderOutcome i s
    obtain ⟨t', v, hexec', hscheduler, -, hsched⟩ := exec_schedulerOutcome i s
    obtain rfl := Host.Outcome.next.inj (hexec'.symm.trans hexec)
    refine ⟨_, hexec, fun hcfg => ?_, exec_snap hexec, fun hinit => ?_, fun hinit hschedule hcancel => ?_,
      fun hsetup hprimary hclear => ?_, fun hsetup hprimary hstall hspeed => ?_, fun hsetup hcfg => ?_⟩
    · exact hsame.cfg.trans (hdecoder.cfg_eq hcfg)
    · rw [hsched, hscheduler.enabled_eq hinit]
    · exact hsched.trans (hscheduler.sched_eq hinit hschedule hcancel)
    · exact hsame.log.trans (hdecoder.log_eq hsetup hprimary hclear)
    · rw [hsame.dec]
      exact hdecoder.speed_eq hsetup hprimary hstall hspeed
    · rw [hsame.dec, hdecoder.configured_eq hsetup hcfg]
  · exact ⟨by rw [timeStep_writes], by rw [timeStep_writes], by rw [timeStep_writes], by rw [timeStep_writes],
      by rw [timeStep_writes], timeStep_enabled s⟩

/-! ## The command interface's invariant (R280) -/

theorem ret_statusInv (s : State) (st : StatusCode) : (s.ret st).StatusInv := ⟨st.code_le, fun _ => ⟨rfl, rfl⟩⟩

theorem retOk_statusInv (s : State) (r0 r1 : Word) : (s.ret .ok r0 r1).StatusInv :=
  ⟨StatusCode.ok.code_le, fun k => absurd rfl k⟩

theorem ite_statusInv {p : Prop} [Decidable p] {s t : State} (hs : s.StatusInv) (ht : t.StatusInv) :
    (if p then s else t).StatusInv := by
  split
  · exact hs
  · exact ht

theorem withMethod_statusInv (s : State) (m : Byte) {body : Fin Config.numMethods → State}
    (h : ∀ k, (body k).StatusInv) : (s.withMethod m body).StatusInv := by
  rcases s.withMethod_cases m body with ⟨_, e⟩ | ⟨-, -, e⟩ | ⟨-, e⟩ <;> rw [e]
  · exact h _
  · exact ret_statusInv _ .refused
  · exact ret_statusInv _ .illegal

theorem withChan_statusInv (s : State) (ch : Byte) {body : Chan → State} (h : ∀ c, (body c).StatusInv) :
    (s.withChan ch body).StatusInv := by
  rcases s.withChan_cases ch body with ⟨_, e⟩ | ⟨-, e⟩ <;> rw [e]
  · exact h _
  · exact ret_statusInv _ .illegal

theorem acceptTooth_statusInv (s : State) (gap : Word) (had : Bool) : (s.acceptTooth gap had).StatusInv := by
  unfold State.acceptTooth
  exact ite_statusInv (ret_statusInv ..) (ret_statusInv ..)

/-- Every command ends with a status, and only OK carries results (R280). -/
theorem exec_statusInv (i : Instr) (s t : State) (hexec : exec i s = .next t) : t.StatusInv := by
  cases i <;> obtain rfl := Host.Outcome.next.inj hexec
  case nop | tdSnapshot | stickyClear | logClear => exact ret_statusInv ..
  case tdSetup => exact ite_statusInv (ret_statusInv ..) (ret_statusInv ..)
  case tdPrimaryEdge =>
    exact ite_statusInv (ret_statusInv ..) (ite_statusInv (ret_statusInv ..) (acceptTooth_statusInv ..))
  case tdSecondaryEdge =>
    exact ite_statusInv (ret_statusInv ..) (ite_statusInv (ret_statusInv ..)
      (ite_statusInv (ret_statusInv ..) (ite_statusInv (ret_statusInv ..) (ret_statusInv ..))))
  case tdGetRpm =>
    exact ite_statusInv (ret_statusInv ..) (ite_statusInv (ret_statusInv ..) (retOk_statusInv ..))
  case tdGetCrankAngle =>
    exact withMethod_statusInv s _ fun _ =>
      ite_statusInv (ret_statusInv ..) (ite_statusInv (ret_statusInv ..) (retOk_statusInv ..))
  case tdStallCheck => exact ite_statusInv (ret_statusInv ..) (ite_statusInv (ret_statusInv ..) (ret_statusInv ..))
  case regRead =>
    refine ite_statusInv ?_ ?_
    · split
      · exact retOk_statusInv ..
      · exact ret_statusInv ..
    · split
      · exact retOk_statusInv ..
      · exact ret_statusInv ..
  case cfgWrite =>
    split
    · exact ret_statusInv ..
    · exact ite_statusInv (ret_statusInv ..) (ite_statusInv (ret_statusInv ..) (ret_statusInv ..))
  case logRead =>
    split
    · exact retOk_statusInv ..
    · exact ret_statusInv ..
  case cmAngleToTime | cmTimeToAngle => exact withMethod_statusInv s _ fun _ => retOk_statusInv ..
  case cmSpeedCalcs => exact ite_statusInv (ret_statusInv ..) (ite_statusInv (ret_statusInv ..) (ret_statusInv ..))
  case cmIgnitionLimits => exact ite_statusInv (retOk_statusInv ..) (ret_statusInv ..)
  case schInit => exact ite_statusInv (ret_statusInv ..) (ret_statusInv ..)
  case schSchedule =>
    exact withChan_statusInv s _ fun _ => ite_statusInv (ret_statusInv ..)
      (ite_statusInv (ret_statusInv ..) (ite_statusInv (ret_statusInv ..) (ret_statusInv ..)))
  case schCancel => exact withChan_statusInv s _ fun _ => ret_statusInv ..
  case schStatus =>
    refine withChan_statusInv s _ fun _ => ?_
    split
    · exact retOk_statusInv ..
    · exact retOk_statusInv ..
    · exact retOk_statusInv ..

/-- A time step returns no status: the result registers stand as they stood (R230). -/
theorem timeStep_statusInv (s : State) (h : s.StatusInv) : s.timeStep.StatusInv := by
  rw [timeStep_writes]
  exact h

theorem step_statusInv {s t : State} (h : s.StatusInv) (hstep : step s = .next t) : t.StatusInv :=
  step_keeps (P := State.StatusInv) (fun _ _ h => h) (fun i s t _ => exec_statusInv i s t)
    (fun _ _ => ret_statusInv _ .illegal) timeStep_statusInv h hstep

/-! ## Runs (R74, R177, R214, R236, R237, R280) -/

/-- The invariants do not read the order of operations. -/
theorem issue_safe {s : State} (op : Operation) (h : s.Safe) : (s.issue op).Safe := by
  obtain ⟨hsched, hdec, hstatus⟩ := h
  exact ⟨hsched.congr rfl rfl, hdec.congr rfl rfl rfl, hstatus⟩

theorem step_safe {s t : State} (h : s.Safe) (hstep : step s = .next t) : t.Safe := by
  obtain ⟨hsched, hdec, hstatus⟩ := h
  exact ⟨stepKeepsSchedulerInvariant s t hsched hstep, stepKeepsDecoderInvariant s t hdec hstep,
    step_statusInv hstatus hstep⟩

/-- Settles O59: by induction on the run. -/
theorem everyRunIsSafe : Obligations.EveryRunIsSafe := by
  intro s hrun
  induction hrun with
  | reset order => exact resetIsSafe order
  | issue op _ ih => exact issue_safe op ih
  | step _ hstep ih => exact step_safe ih hstep

end Sys2Proof.Proofs.StateRules

/-! # Proofs of 20_memory.md: words and bytes of a transaction, the commands that only read, and cancelling -/

namespace Sys2Proof.Proofs.Memory

open Sys2Proof Sys2Proof.Machine

/-! ## Words and bytes (R72, R90 to R95) -/

/-- The fields of every instruction's words, gathered from the per-instruction family of Laws/PerInstr.lean. -/
theorem fields_statement (i : Instr) : Laws.Fields.Statement i := by
  cases i with
  | nop => exact Laws.Fields.nop
  | tdSetup => exact Laws.Fields.tdSetup
  | tdPrimaryEdge => exact Laws.Fields.tdPrimaryEdge
  | tdSecondaryEdge => exact Laws.Fields.tdSecondaryEdge
  | tdGetRpm => exact Laws.Fields.tdGetRpm
  | tdGetCrankAngle m => exact Laws.Fields.tdGetCrankAngle m
  | tdStallCheck => exact Laws.Fields.tdStallCheck
  | tdSnapshot => exact Laws.Fields.tdSnapshot
  | regRead reg bank => exact Laws.Fields.regRead reg bank
  | cfgWrite reg value => exact Laws.Fields.cfgWrite reg value
  | stickyClear mask => exact Laws.Fields.stickyClear mask
  | logRead k => exact Laws.Fields.logRead k
  | logClear => exact Laws.Fields.logClear
  | cmAngleToTime m angle => exact Laws.Fields.cmAngleToTime m angle
  | cmTimeToAngle m time => exact Laws.Fields.cmTimeToAngle m time
  | cmSpeedCalcs => exact Laws.Fields.cmSpeedCalcs
  | cmIgnitionLimits angle => exact Laws.Fields.cmIgnitionLimits angle
  | schInit => exact Laws.Fields.schInit
  | schSchedule ch delay duration => exact Laws.Fields.schSchedule ch delay duration
  | schCancel ch => exact Laws.Fields.schCancel ch
  | schStatus ch => exact Laws.Fields.schStatus ch

theorem decode_encode (i : Instr) (h : i.wellFormed = true) : decode (encode i) = .ok i := by
  obtain ⟨-, -, -, roundTrip⟩ := fields_statement i
  exact roundTrip h

/-- The byte form of a transaction adds nothing to its words: what the words decode to, the bytes do. -/
theorem decodeBytes_of_decode {t : Transaction} {i : Instr} (h : decode t = .ok i) (rest : List Byte) :
    decodeBytes (t.toBytes ++ rest) = .ok (i, rest) := by
  simp only [decodeBytes_toBytes, h]

/-- Settles O1: the words by the row of each instruction, the bytes by the words. -/
theorem decodeEncodeRoundTrip : Obligations.DecodeEncodeRoundTrip := fun i rest h =>
  ⟨decode_encode i h, decodeBytes_of_decode (decode_encode i h) rest⟩

/-- Byte k of a word as a number (R72). -/
theorem bytesOfWord_getElem? (w : Word) (k : Fin 4) :
    ((bytesOfWord w).map BitVec.toNat)[k.val]? = some (w.toNat / 2 ^ (8 * k.val) % 256) := by
  rw [bytesOfWord_toNat]
  fin_cases k <;> simp

/-- Where the three words of a transaction stand among its bytes (R90). -/
theorem toBytes_getElem? (t : Transaction) (k : Fin 4) :
    (t.toBytes.map BitVec.toNat)[k.val]? = ((bytesOfWord t.cmd).map BitVec.toNat)[k.val]? ∧
    (t.toBytes.map BitVec.toNat)[4 + k.val]? = ((bytesOfWord t.opa).map BitVec.toNat)[k.val]? ∧
    (t.toBytes.map BitVec.toNat)[8 + k.val]? = ((bytesOfWord t.opb).map BitVec.toNat)[k.val]? := by
  fin_cases k <;> exact ⟨rfl, rfl, rfl⟩

/-- Settles O60: each of the five words is laid out by `bytesOfWord`. -/
theorem wordsOnByteLink : Obligations.WordsOnByteLink := by
  refine ⟨fun t => ⟨rfl, fun k => ?_⟩, fun r => ⟨rfl, rfl, fun k => ?_⟩⟩
  · obtain ⟨hcmd, hopa, hopb⟩ := toBytes_getElem? t k
    exact ⟨hcmd.trans (bytesOfWord_getElem? _ k), hopa.trans (bytesOfWord_getElem? _ k),
      hopb.trans (bytesOfWord_getElem? _ k)⟩
  · exact ⟨bytesOfWord_getElem? r.res0 k, bytesOfWord_getElem? r.res1 k⟩

/-! ## The commands that only read (R75) -/

/-- The nine query commands of R75. -/
inductive Query : Instr → Prop
  | nop : Query .nop
  | tdGetRpm : Query .tdGetRpm
  | tdGetCrankAngle (m : Byte) : Query (.tdGetCrankAngle m)
  | regRead (reg : Byte) (bank : Bool) : Query (.regRead reg bank)
  | logRead (k : Byte) : Query (.logRead k)
  | cmAngleToTime (m : Byte) (angle : Half) : Query (.cmAngleToTime m angle)
  | cmTimeToAngle (m : Byte) (time : Word) : Query (.cmTimeToAngle m time)
  | cmIgnitionLimits (angle : Half) : Query (.cmIgnitionLimits angle)
  | schStatus (ch : Byte) : Query (.schStatus ch)

/-- t is s with a result that is neither ILLEGAL nor REFUSED. -/
def Answered (s t : State) : Prop :=
  ∃ st r0 r1, st ≠ StatusCode.illegal ∧ st ≠ StatusCode.refused ∧ t = s.ret st r0 r1

/-- The ending a command has in every state alike: an illegal or a reserved index is one whatever the state (R94, R124). -/
inductive QueryOutcome (i : Instr) : Prop
  | illegal (h : ∀ s, exec i s = .next s.illegal)
  | refused (h : ∀ s, exec i s = .next s.refuse)
  | answered (h : ∀ s, ∃ t, exec i s = .next t ∧ Answered s t)

theorem answered_ret (s : State) (st : StatusCode) (r0 r1 : Word) (h : st ≠ .illegal ∧ st ≠ .refused) :
    Answered s (s.ret st r0 r1) := ⟨st, r0, r1, h.1, h.2, rfl⟩

theorem answered_ok (s : State) (r0 r1 : Word) : Answered s (s.ret .ok r0 r1) := answered_ret s _ _ _ (by decide)

theorem answered_ite {p : Prop} [Decidable p] {s t u : State} (ht : Answered s t) (hu : Answered s u) :
    Answered s (if p then t else u) := by
  split
  · exact ht
  · exact hu

/-- What a method's command can do when its body answers (R94, R124). -/
theorem queryOutcome_of_withMethod {i : Instr} (m : Byte) (body : State → Fin Config.numMethods → State)
    (hexec : ∀ s, exec i s = .next (s.withMethod m (body s))) (hbody : ∀ s k, Answered s (body s k)) :
    QueryOutcome i := by
  by_cases hillegal : 4 < m.toNat
  · exact .illegal fun s => by rw [hexec, s.withMethod_illegal m _ hillegal]
  · by_cases hreserved : 3 ≤ m.toNat
    · exact .refused fun s => by rw [hexec, s.withMethod_reserved m _ hreserved (by omega)]
    · exact .answered fun s => ⟨_, by rw [hexec, s.withMethod_implemented m _ (by omega)], hbody s _⟩

/-- What a channel's command can do when its body answers (R94). -/
theorem queryOutcome_of_withChan {i : Instr} (ch : Byte) (body : State → Chan → State)
    (hexec : ∀ s, exec i s = .next (s.withChan ch (body s))) (hbody : ∀ s c, Answered s (body s c)) :
    QueryOutcome i := by
  by_cases hlegal : ch.toNat < 16
  · exact .answered fun s => ⟨_, by rw [hexec, s.withChan_legal ch _ hlegal], hbody s _⟩
  · exact .illegal fun s => by rw [hexec, s.withChan_illegal ch _ (by omega)]

theorem execRegRead_answered (reg : Byte) (bank : Bool) (s : State) :
    ∃ t, execRegRead reg bank s = .next t ∧ Answered s t := by
  refine ⟨_, rfl, ?_⟩
  split
  · split
    · exact answered_ok ..
    · exact answered_ret _ _ _ _ (by decide)
  · split
    · exact answered_ok ..
    · exact answered_ret _ _ _ _ (by decide)

theorem execLogRead_answered (k : Byte) (s : State) : ∃ t, execLogRead k s = .next t ∧ Answered s t := by
  refine ⟨_, rfl, ?_⟩
  split
  · exact answered_ok ..
  · exact answered_ret _ _ _ _ (by decide)

/-- The two refusals that TD_GET_RPM and TD_GET_CRANK_ANGLE share before their answer (R175, R176). -/
theorem answered_if_synced (s : State) (r0 r1 : Word) :
    Answered s (if s.dec.configured = false then s.ret .notConfigured
      else if s.dec.hasSync = false then s.ret .noSync else s.ret .ok r0 r1) :=
  answered_ite (answered_ret _ _ _ _ (by decide))
    (answered_ite (answered_ret _ _ _ _ (by decide)) (answered_ok ..))

theorem query_outcome {i : Instr} (hi : Query i) : QueryOutcome i := by
  cases hi with
  | nop => exact .answered fun s => ⟨_, rfl, answered_ok ..⟩
  | tdGetRpm => exact .answered fun s => ⟨_, rfl, answered_if_synced ..⟩
  | tdGetCrankAngle m => exact queryOutcome_of_withMethod m _ (fun _ => rfl) fun s _ => answered_if_synced s _ _
  | regRead reg bank => exact .answered (execRegRead_answered reg bank)
  | logRead k => exact .answered (execLogRead_answered k)
  | cmAngleToTime m angle => exact queryOutcome_of_withMethod m _ (fun _ => rfl) fun s _ => answered_ok s _ _
  | cmTimeToAngle m time => exact queryOutcome_of_withMethod m _ (fun _ => rfl) fun s _ => answered_ok s _ _
  | cmIgnitionLimits angle =>
    exact .answered fun s => ⟨_, rfl, answered_ite (answered_ok ..) (answered_ret _ _ _ _ (by decide))⟩
  | schStatus ch =>
    refine queryOutcome_of_withChan ch _ (fun _ => rfl) fun s c => ?_
    split <;> exact answered_ok ..

/-- A query does not read the result registers. -/
theorem exec_ret_of_query {i : Instr} (hi : Query i) (s : State) (st : StatusCode) (r0 r1 : Word) :
    exec i (s.ret st r0 r1) = exec i s := by
  cases hi <;> rfl

/-- A flag already set stays as it is when it is raised again. -/
theorem raise_ret_repeat (s : State) (f : StickyFlag) (st : StatusCode) :
    (((s.raise f).ret st).raise f).ret st = (s.raise f).ret st := by
  have hsticky : stickySet (stickySet s.sticky f) f = stickySet s.sticky f := by
    simp only [stickySet, BitVec.or_assoc, BitVec.or_self]
  simp only [State.ret, State.raise, hsticky]

/-- Settles O49: an answer leaves STICKY, and the query reads nothing the answer wrote; an illegal or refused index is so
again, and its flag is already set. -/
theorem readOnlyCommands : Obligations.ReadOnlyCommands := by
  intro i s hi
  have query : Query i := by
    cases i with
    | nop => exact .nop
    | tdGetRpm => exact .tdGetRpm
    | tdGetCrankAngle m => exact .tdGetCrankAngle m
    | regRead reg bank => exact .regRead reg bank
    | logRead k => exact .logRead k
    | cmAngleToTime m angle => exact .cmAngleToTime m angle
    | cmTimeToAngle m time => exact .cmTimeToAngle m time
    | cmIgnitionLimits angle => exact .cmIgnitionLimits angle
    | schStatus ch => exact .schStatus ch
    | _ => exact hi.elim
  rcases query_outcome query with illegal | refused | answered
  · exact ⟨s.illegal, illegal s, (illegal _).trans (congrArg _ (raise_ret_repeat s .illegal .illegal)), rfl, rfl⟩
  · exact ⟨s.refuse, refused s, (refused _).trans (congrArg _ (raise_ret_repeat s .refused .refused)), rfl, rfl⟩
  · obtain ⟨_, hexec, st, r0, r1, hillegal, hrefused, rfl⟩ := answered s
    refine ⟨_, hexec, (exec_ret_of_query query s st r0 r1).trans hexec, rfl, ?_⟩
    have hcode : st.code ≠ 10 ∧ st.code ≠ 11 := by
      revert hillegal hrefused
      cases st <;> decide
    rw [State.ret_iface, State.ret_sticky, if_neg hcode.1, if_neg hcode.2, sticky_or_zero]

/-! ## Cancelling twice (R225) -/

theorem setTimer_setTimer (s : State) (p : Periph) (t t' : Timer) :
    (s.setTimer p t).setTimer p t' = s.setTimer p t' := by
  simp [State.setTimer]

/-- Arming reads the targets and NOW only, so arming again finds the same compare. -/
theorem rearbitrate_rearbitrate (s : State) (p : Periph) : (s.rearbitrate p).rearbitrate p = s.rearbitrate p := by
  have offsets_setTimer (t : Timer) : (s.setTimer p t).offsets p = s.offsets p := rfl
  cases hmin : (s.offsets p).min? with
  | none => simp [State.rearbitrate, hmin, offsets_setTimer, setTimer_setTimer]
  | some m => simp [State.rearbitrate, hmin, offsets_setTimer, setTimer_setTimer]

/-- Re-arbitration neither reads nor writes the result registers. -/
theorem rearbitrate_ret (s : State) (p : Periph) (st : StatusCode) (r0 r1 : Word) :
    (s.ret st r0 r1).rearbitrate p = (s.rearbitrate p).ret st r0 r1 := by
  have hoffsets : (s.ret st r0 r1).offsets p = s.offsets p := rfl
  cases hmin : (s.offsets p).min? with
  | none => simp only [State.rearbitrate, hoffsets, hmin]; rfl
  | some m => simp only [State.rearbitrate, hoffsets, hmin]; rfl

theorem cancelChannel_of_off (s : State) (c : Chan) (h : (s.chan c).status = .off) : s.cancelChannel c = s := by
  have hchan : { s.chan c with status := .off } = s.chan c := by rw [← h]
  simp only [State.cancelChannel, h, reduceCtorEq, if_false, hchan, State.setChan_chan]

/-- The state SCH_CANCEL leaves before its status (R225). -/
def cancelled (s : State) (c : Chan) : State := (s.cancelChannel c).rearbitrate c.periph

theorem exec_schCancel (s : State) (c : Chan) :
    exec (.schCancel (BitVec.ofNat 8 c.val)) s = .next ((cancelled s c).ret .ok) := execSchCancel_chan s c

theorem cancelled_frame (s : State) (c : Chan) : cancelled s c = { s with sched := (cancelled s c).sched } := by
  have hframe : SchedFrame s (cancelled s c) := (cancelChannel_frame s c).trans (rearbitrate_frame _ _)
  obtain ⟨-, -, -, -, -, hcancel⟩ := cancelChannel_spec s c
  have hsticky : (cancelled s c).sticky = s.sticky := (rearbitrate_sticky _ _).trans hcancel
  rwa [SchedFrame, hsticky] at hframe

theorem cancelled_chan (s : State) (c ch : Chan) :
    (cancelled s c).chan ch = if ch = c then { s.chan c with status := .off } else s.chan ch :=
  (rearbitrate_chan _ _ ch).trans ((cancelChannel_spec s c).1 ch)

/-- Cancelling again finds the channel OFF and its peripheral armed as it would be. -/
theorem cancelled_ret_repeat (s : State) (c : Chan) (st : StatusCode) (r0 r1 : Word) :
    cancelled ((cancelled s c).ret st r0 r1) c = (cancelled s c).ret st r0 r1 := by
  have hoff : (((cancelled s c).ret st r0 r1).chan c).status = .off := by
    rw [State.chan_ret, cancelled_chan, if_pos rfl]
  calc cancelled ((cancelled s c).ret st r0 r1) c
      = ((cancelled s c).ret st r0 r1).rearbitrate c.periph := by rw [cancelled, cancelChannel_of_off _ c hoff]
    _ = ((cancelled s c).rearbitrate c.periph).ret st r0 r1 := rearbitrate_ret ..
    _ = (cancelled s c).ret st r0 r1 := by rw [cancelled, rearbitrate_rearbitrate]

/-- Settles O38: the cancellation and the re-arbitration by what each is known to do, the second time by what the first
left. -/
theorem cancelChannel : Obligations.CancelChannel := by
  intro c s
  obtain ⟨-, htimer, henabled, houtput, htrace, -⟩ := cancelChannel_spec s c
  refine ⟨(cancelled s c).ret .ok, exec_schCancel s c, ?again, ?frame, ?enabled, ?channel, ?output, ?trace,
    fun c' hne => ⟨?others, ?outputs⟩, fun p hne => ?timers⟩
  case again => rw [exec_schCancel, cancelled_ret_repeat]; rfl
  case frame => exact congrArg (State.ret · .ok) (cancelled_frame s c)
  case enabled => exact (rearbitrate_enabled _ _).trans henabled
  case channel => rw [State.chan_ret, cancelled_chan, if_pos rfl]
  case output =>
    rw [State.output_ret, cancelled, rearbitrate_output, houtput]
    by_cases hrunning : (s.chan c).status = .running <;> simp [hrunning]
  case trace => exact (rearbitrate_trace _ _).trans htrace
  case others => rw [State.chan_ret, cancelled_chan, if_neg hne]
  case outputs => rw [State.output_ret, cancelled, rearbitrate_output, houtput, if_neg fun h => hne h.1]
  case timers => rw [State.timer_ret, cancelled, rearbitrate_timer_ne _ _ _ hne, htimer]

end Sys2Proof.Proofs.Memory

/-! # Proofs of 30_encoding.md: the decoder's checks, the operands of a decoded word, and SCH_SCHEDULE turned away -/

namespace Sys2Proof.Proofs.Encoding

open Sys2Proof Sys2Proof.Machine Sys2Proof.Proofs.Scope Sys2Proof.Proofs.Memory

/-! ## The rows of the opcode map, read backwards (R93) -/

/-- The OP values of a format, the rows of R93's table gathered by its format column. -/
def opcodesOf : Format → List Nat
  | .c0 => [0x00, 0x01, 0x02, 0x03, 0x04, 0x06, 0x07, 0x0A, 0x0C, 0x12, 0x13, 0x20]
  | .cm => [0x05, 0x10, 0x11]
  | .cc => [0x21, 0x22, 0x23]
  | .cr => [0x08, 0x09]
  | .cl => [0x0B]

/-- Each opcode of the map stands in the list of its row's format and in no other: row by row. -/
theorem mem_opcodesOf_iff {op idx : Byte} {opa opb : Word} {f : Format} {i : Instr}
    (h : opcodeRow op idx opa opb = some (f, i)) (g : Format) : op.toNat ∈ opcodesOf g ↔ f = g := by
  unfold opcodeRow at h
  split at h <;> cases h
  all_goals
    rename_i hop
    rw [hop]
    cases g <;> decide

/-! ## The operand bits each row reads (R95) -/

/-- The bits of OPA that are an operand of the command. -/
def opaMask : Instr → Word
  | .regRead _ _ => 0x1#32
  | .stickyClear _ => 0x7F#32
  | .cmAngleToTime _ _ | .cmIgnitionLimits _ => 0xFFFF#32
  | .cfgWrite _ _ | .cmTimeToAngle _ _ | .schSchedule _ _ _ => 0xFFFFFFFF#32
  | _ => 0#32

/-- The bits of OPB that are an operand of the command. -/
def opbMask : Instr → Word
  | .schSchedule _ _ _ => 0xFFFFFFFF#32
  | _ => 0#32

theorem and_lowMask (w : Word) (k : Nat) (h : k ≤ 32) :
    w &&& BitVec.ofNat 32 (2 ^ k - 1) = (w.extractLsb' 0 k).setWidth 32 := by
  have hk : 2 ^ k ≤ 2 ^ 32 := Nat.pow_le_pow_right (by decide) h
  have hpos : 0 < 2 ^ k := Nat.two_pow_pos k
  apply BitVec.eq_of_toNat_eq
  rw [BitVec.toNat_and, BitVec.toNat_ofNat, Nat.mod_eq_of_lt (by omega), Nat.and_two_pow_sub_one_eq_mod,
    BitVec.toNat_setWidth, BitVec.extractLsb'_toNat, Nat.shiftRight_zero, Nat.mod_eq_of_lt (b := 2 ^ 32)]
  exact (Nat.mod_lt _ hpos).trans_le hk

theorem angleOperand_zeroExtend_eq_and (w : Word) : (angleOperand w).zeroExtend 32 = w &&& 0xFFFF#32 :=
  (and_lowMask w 16 (by decide)).symm

theorem maskOperand_zeroExtend_eq_and (w : Word) : (maskOperand w).zeroExtend 32 = w &&& 0x7F#32 :=
  (and_lowMask w 7 (by decide)).symm

theorem bankOperand_ite_eq_and (w : Word) : (if bankOperand w then 0x1#32 else 0x0#32) = w &&& 0x1#32 := by
  rw [BitVec.and_one_eq_setWidth_ofBool_getLsbD, bankOperand]
  cases w.getLsbD 0 <;> rfl

theorem and_allBits (w : Word) : w &&& 0xFFFFFFFF#32 = w := BitVec.and_allOnes

/-- The encoder writes back the operand bits that the row read: row by row. -/
theorem opcodeRow_operands {op idx : Byte} {opa opb : Word} {f : Format} {i : Instr}
    (h : opcodeRow op idx opa opb = some (f, i)) : i.opa = opa &&& opaMask i ∧ i.opb = opb &&& opbMask i := by
  unfold opcodeRow at h
  split at h <;> cases h
  all_goals
    simp only [Instr.opa, Instr.opb, opaMask, opbMask, BitVec.ofNat_eq_ofNat, BitVec.and_zero, and_allBits,
      angleOperand_zeroExtend_eq_and, maskOperand_zeroExtend_eq_and, bankOperand_ite_eq_and, and_self]

/-! ## The decoder's outcomes (R94) -/

theorem decode_reserved (t : Transaction) (h : rsvField t.cmd ≠ 0) : decode t = .error .reservedField := by
  rw [decode, if_pos h]

theorem decode_unknown (t : Transaction) (h0 : rsvField t.cmd = 0)
    (h1 : opcodeRow (opField t.cmd) (idxField t.cmd) t.opa t.opb = none) : decode t = .error .unknownOpcode := by
  simp only [decode, h0, h1, ne_eq, not_true_eq_false, if_false]

/-- A word decodes exactly when it passes the three stages: no reserved bit, a row for its OP, an IDX its format takes. -/
theorem decode_eq_ok_iff (t : Transaction) (i : Instr) : decode t = .ok i ↔ rsvField t.cmd = 0 ∧
    ∃ f, opcodeRow (opField t.cmd) (idxField t.cmd) t.opa t.opb = some (f, i) ∧
      f.legalIdx (idxField t.cmd) = true := by
  by_cases h0 : rsvField t.cmd = 0
  · cases hrow : opcodeRow (opField t.cmd) (idxField t.cmd) t.opa t.opb with
    | none => simp [decode_unknown t h0 hrow]
    | some row =>
      obtain ⟨f, j⟩ := row
      rw [decode_row t f j h0 hrow]
      cases hl : f.legalIdx (idxField t.cmd) with
      | false => simp [hl]
      | true => simp [h0, hl]
  · simp only [decode_reserved t h0, reduceCtorEq, h0, false_and]

theorem runTransaction_of_error (t : Transaction) (s : State) (e : DecodeError) (h : decode t = .error e) :
    runTransaction t s = .next s.illegal := by
  simp only [runTransaction, h]

/-- The fields of a word that decodes are its instruction's. -/
theorem fields_of_decode {t : Transaction} {i : Instr} (h : decode t = .ok i) :
    i.opcode = opField t.cmd ∧ i.idx = idxField t.cmd ∧ i.wellFormed = true := by
  obtain ⟨-, f, hrow, hlegal⟩ := (decode_eq_ok_iff t i).1 h
  obtain ⟨hopcode, hidx, hwf⟩ := opcodeRow_eq_some _ _ _ _ f i hrow hlegal
  exact ⟨BitVec.eq_of_toNat_eq hopcode, hidx, hwf⟩

/-- The last of R94's checks: a word whose OP the map holds decodes by the index its format takes. -/
theorem decode_by_index (t : Transaction) {f : Format} {i : Instr} (h0 : rsvField t.cmd = 0)
    (hrow : opcodeRow (opField t.cmd) (idxField t.cmd) t.opa t.opb = some (f, i)) :
    let op := (opField t.cmd).toNat
    let idx := (idxField t.cmd).toNat
    if op ∈ opcodesOf .c0 ∧ idx ≠ 0 then decode t = .error .indexNotZero
    else if op ∈ opcodesOf .cm ∧ 4 < idx then decode t = .error .methodOutOfRange
    else if op ∈ opcodesOf .cc ∧ 15 < idx then decode t = .error .channelOutOfRange
    else ∃ i, decode t = .ok i ∧ i.opcode.toNat = op ∧ i.idx.toNat = idx := by
  have hdec := decode_row t f i h0 hrow
  have legal (hl : f.legalIdx (idxField t.cmd) = true) : ∃ i, decode t = .ok i ∧
      i.opcode.toNat = (opField t.cmd).toNat ∧ i.idx.toNat = (idxField t.cmd).toNat := by
    have hok : decode t = .ok i := by rw [hdec, if_pos hl]
    obtain ⟨hopcode, hidx, -⟩ := fields_of_decode hok
    exact ⟨i, hok, by rw [hopcode], by rw [hidx]⟩
  have illegal (hl : f.legalIdx (idxField t.cmd) = false) : decode t = .error f.idxError := by
    rw [hdec, hl, if_neg Bool.false_ne_true]
  simp only [mem_opcodesOf_iff hrow]
  cases f with
  | c0 =>
    simp only [true_and, reduceCtorEq, false_and, if_false]
    split
    next h => exact illegal (beq_false_of_ne fun e => h (by rw [e]; rfl))
    next h => exact legal (beq_iff_eq.2 (BitVec.eq_of_toNat_eq (not_not.1 h)))
  | cm =>
    simp only [true_and, reduceCtorEq, false_and, if_false]
    split
    next h => exact illegal (decide_eq_false (by omega))
    next h => exact legal (decide_eq_true (by omega))
  | cc =>
    simp only [true_and, reduceCtorEq, false_and, if_false]
    split
    next h => exact illegal (decide_eq_false (by omega))
    next h => exact legal (decide_eq_true (by omega))
  | cr => simpa only [reduceCtorEq, false_and, if_false] using legal rfl
  | cl => simpa only [reduceCtorEq, false_and, if_false] using legal rfl

/-- Settles O2: the reserved field, then the map's row, then the row's check of the index, each on the numbers of the
fields; the step by the two endings of `runTransaction`. -/
theorem decodeChecksInOrder : Obligations.DecodeChecksInOrder := by
  intro t op idx
  have hop : (opField t.cmd).toNat = op := opField_toNat t.cmd
  have hidx : (idxField t.cmd).toNat = idx := idxField_toNat t.cmd
  refine ⟨?checks, fun s a rest hin => ⟨fun e he => ?illegal, fun i hi => ?legal⟩⟩
  case checks =>
    by_cases hrsv : 65536 ≤ t.cmd.toNat
    · rw [if_pos hrsv]
      exact decode_reserved t fun h => by have := (rsvField_eq_zero t.cmd).1 h; omega
    rw [if_neg hrsv]
    have h0 : rsvField t.cmd = 0 := (rsvField_eq_zero t.cmd).2 (by omega)
    cases hrow : opcodeRow (opField t.cmd) (idxField t.cmd) t.opa t.opb with
    | none =>
      have hunknown := (opcodeRow_eq_none ..).1 hrow
      rw [hop] at hunknown
      rw [if_pos hunknown]
      exact decode_unknown t h0 hrow
    | some row =>
      obtain ⟨f, i⟩ := row
      have hknown := mt (opcodeRow_eq_none _ _ _ _).2 (hrow ▸ Option.some_ne_none _)
      rw [hop] at hknown
      rw [if_neg hknown, ← hop, ← hidx]
      exact decode_by_index t h0 hrow
  case illegal => rw [step_of_command s rest a t hin, runTransaction_of_error t _ e he]; rfl
  case legal => rw [step_of_command s rest a t hin, runTransaction_of_decode t _ i hi]

/-- Settles O3: an index its format takes makes the row's instruction well formed, and the row reads the masked bits. -/
theorem decodedOperands : Obligations.DecodedOperands := by
  intro t i hdec
  obtain ⟨h0, f, hrow, -⟩ := (decode_eq_ok_iff t i).1 hdec
  obtain ⟨hopcode, hidx, hwf⟩ := fields_of_decode hdec
  obtain ⟨hopa, hopb⟩ := opcodeRow_operands hrow
  have hcmd : cmdWord i.opcode i.idx = t.cmd := by rw [hopcode, hidx, cmdWord_fields t.cmd h0]
  exact ⟨hwf, hcmd, hopa, hopb⟩

theorem decode_of_encode {t : Transaction} {i : Instr} (h : encode i = t) (hi : i.wellFormed = true) :
    decode t = .ok i := h ▸ decode_encode i hi

/-- Settles O4: the five words are the encoder's; of the four others one has a reserved bit and three an index that the
row's format does not take. -/
theorem workedEncodings : Obligations.WorkedEncodings :=
  ⟨decode_of_encode (by decide) rfl, decode_of_encode (by decide) rfl, decode_of_encode (by decide) rfl,
    decode_of_encode (by decide) rfl, decode_of_encode (by decide) rfl, decode_reserved _ (by decide),
    decode_row _ .c0 .tdSetup rfl rfl, decode_row _ .cm (.tdGetCrankAngle 5) rfl rfl,
    decode_row _ .cc (.schSchedule 16 0 0) rfl rfl⟩

/-! ## SCH_SCHEDULE turned away (R221, R284) -/

theorem execSchSchedule_illegal (s : State) (ch : Byte) (d u : Word) (h : 15 < ch.toNat) :
    execSchSchedule ch d u s = .next s.illegal := by
  rw [execSchSchedule, s.withChan_illegal ch _ h]

theorem execSchSchedule_disabled (s : State) (c : Chan) (d u : Word) (h : s.chanEnabled c = false) :
    execSchSchedule (BitVec.ofNat 8 c.val) d u s = .next (s.ret .channelDisabled) := by
  rw [execSchSchedule, s.withChan_ofNat, if_pos h]

theorem execSchSchedule_outOfRange (s : State) (c : Chan) (d u : Word) (he : s.chanEnabled c = true)
    (h : 2 ^ 31 ≤ d.toNat ∨ 2 ^ 31 ≤ u.toNat) :
    execSchSchedule (BitVec.ofNat 8 c.val) d u s = .next (s.ret .range) := by
  have hrange : d.toNat > Config.maxDelay ∨ u.toNat > Config.maxDelay := h
  rw [execSchSchedule, s.withChan_ofNat, if_neg (by simp [he]), if_pos hrange]

/-- Settles O33: the three refusals of SCH_SCHEDULE in the order of its checks. -/
theorem scheduleTurnedAway : Obligations.ScheduleTurnedAway := by
  intro ch d u s
  refine ⟨execSchSchedule_illegal s ch d u, fun c hc => ?_⟩
  obtain rfl : BitVec.ofNat 8 c.val = ch := by rw [hc, BitVec.ofNat_toNat, BitVec.setWidth_eq]
  exact ⟨execSchSchedule_disabled s c d u, execSchSchedule_outOfRange s c d u⟩

end Sys2Proof.Proofs.Encoding

/-! # Proofs of 40_crank_math.md: scale pairs, the conversions and their round trip, the speed calculation, and the
teeth and angles of 41_trigger_decoder.md that use them -/

namespace Sys2Proof.Proofs.CrankMath

open Sys2Proof Sys2Proof.Machine
open Sys2Proof.Proofs.StateRules (SameDecoder)

/-! ## Scale pairs (R120) -/

/-- The two bounds of a rounded-down reciprocal. -/
theorem reciprocal_bounds {n T : Nat} (hpos : 0 < T) (hle : T ≤ n) : T * (n / T) ≤ n ∧ n - T < T * (n / T) := by
  have hdiv := Nat.div_add_mod n T
  have hmod := Nat.mod_lt n hpos
  omega

/-- Settles O11: the two factors as numbers, and the bounds of the division that gives DPU32768. -/
theorem scalePairOfInterval : Obligations.ScalePairOfInterval := by
  intro I S hS T D
  refine ⟨pair_fst_toNat I S hS, pair_snd_toNat I S hS, fun hpos hle => ?_⟩
  have hD : D = 524288 / T := if_neg (by omega)
  rw [hD]
  exact reciprocal_bounds hpos hle

/-! ## The commands of format CM (R92, R94, R124) -/

/-- The three answers of a command of format CM, by its IDX: what its body answers for an implemented method, REFUSED
for a reserved one, ILLEGAL for any other code. -/
theorem exec_by_method {i : Instr} {m : Byte} {s : State} {body : Fin Config.numMethods → State}
    (hexec : exec i s = .next (s.withMethod m body)) {P : m.toNat < 3 → Prop}
    (implemented : ∀ h : m.toNat < 3, exec i s = .next (body ⟨m.toNat, h⟩) → P h) :
    if h : m.toNat < 3 then P h
    else if m.toNat ≤ 4 then exec i s = .next { s with sticky := s.sticky ||| 0x40, iface := ⟨10, 0, 0⟩ }
    else exec i s = .next { s with sticky := s.sticky ||| 0x20, iface := ⟨11, 0, 0⟩ } := by
  split
  next h => exact implemented h (by rw [hexec, s.withMethod_implemented m body h])
  next h =>
    split
    next h' => rw [hexec, s.withMethod_reserved m body (by omega) h']; rfl
    next h' => rw [hexec, s.withMethod_illegal m body (by omega)]; rfl

/-- Settles O17: the three commands run `State.withMethod`, which refuses methods 3 and 4. -/
theorem reservedMethodsRefused : Obligations.ReservedMethodsRefused := by
  intro m s a x hm i hi
  have refused (body : Fin Config.numMethods → State) (hexec : exec i s = .next (s.withMethod m body)) :
      exec i s = .next s.refuse := by
    have hrange : 3 ≤ m.toNat ∧ m.toNat ≤ 4 := by rcases hm with rfl | rfl <;> decide
    rw [hexec, s.withMethod_reserved m body hrange.1 hrange.2]
  simp only [List.mem_cons, List.not_mem_nil, or_false] at hi
  rcases hi with rfl | rfl | rfl
  · exact refused _ rfl
  · exact refused _ rfl
  · exact refused _ rfl

/-! ## The conversions (R125, R126) -/

/-- The value of CM_ANGLE_TO_TIME as R125 states it, over the integers. -/
theorem a2t_eq (a : Int) (tpd : Word) :
    a2t a tpd = if a < 0 then -min ((a.natAbs : Int) * tpd.toNat / 16) (2 ^ 31 - 1)
      else min ((a.natAbs : Int) * tpd.toNat / 16) (2 ^ 31 - 1) := by
  unfold a2t
  push_cast
  rfl

theorem sext32_a2t_toInt (a : Int) (tpd : Word) : (sext32 (a2t a tpd)).toInt = a2t a tpd :=
  sext32_toInt _ (a2t_bounds a tpd).1.le (a2t_bounds a tpd).2

theorem sext32_t2a_toNat (t dpu : Word) : (sext32 (t2a t dpu)).toNat = t2a t dpu :=
  sext32_toNat _ ((t2a_le t dpu).trans_lt (by decide))

/-- Settles O12: the row of the opcode map, and `A2T` as the integer it is. -/
theorem angleToTime : Obligations.AngleToTime := by
  intro m opa opb s a
  refine ⟨fun hm => ?_, exec_by_method rfl fun h hexec => ⟨_, ?_, hexec⟩⟩
  · rw [show a = angleOperand opa from (angleOperand_eq_truncate opa).symm]
    exact decode_word 0x10 m opa opb .cm _ rfl (decide_eq_true hm)
  · rw [sext32_a2t_toInt, a2t_eq]
    rfl

/-- Settles O13: the row of the opcode map, and `T2A` as the number it is. -/
theorem timeToAngle : Obligations.TimeToAngle := by
  intro m time opb s
  refine ⟨fun hm => ?_, exec_by_method rfl fun h hexec => ⟨_, sext32_t2a_toNat .., hexec⟩⟩
  exact decode_word 0x11 m time opb .cm _ rfl (decide_eq_true hm)

/-! ## The round trip (R129) -/

/-- A non-negative angle whose time does not saturate. -/
theorem sext32_a2t_toNat {x : Half} {tpd : Word} (hx : x.toNat ≤ 32767) (ht : x.toNat * tpd.toNat / 16 < 2 ^ 31) :
    (sext32 (a2t (s16 x) tpd)).toNat = x.toNat * tpd.toNat / 16 := by
  have hs : s16 x = (x.toNat : Int) := by rw [s16, BitVec.toInt_eq_toNat_of_lt (by omega)]
  have ha : a2t (s16 x) tpd = ((x.toNat * tpd.toNat / 16 : Nat) : Int) := by
    rw [a2t_eq, hs, if_neg (by omega), Int.natAbs_natCast]
    push_cast
    omega
  rw [ha, sext32_toNat _ (by omega)]

/-- The round trip over the numbers: x T / 16 microseconds are y degrees again, never more than x, and short of x by
less than the three roundings. -/
theorem round_trip_bounds {x T D : Nat} (hpos : 0 < T) (hle : T ≤ 524288) (hD : D = 524288 / T) :
    x * T / 16 * D / 32768 ≤ x ∧
      ((x : Int) - 1) * 2 ^ 19 - x * T - 16 * D < (x * T / 16 * D / 32768 : Nat) * 2 ^ 19 := by
  obtain ⟨hupper, hlower⟩ := hD ▸ reciprocal_bounds hpos hle
  have ht : x * T / 16 * 16 ≤ x * T ∧ x * T < x * T / 16 * 16 + 16 := by omega
  generalize x * T / 16 = t at ht ⊢
  have hxTD : x * T * D ≤ x * 524288 := by
    rw [Nat.mul_assoc]
    exact Nat.mul_le_mul_left x hupper
  have hxTD' : x * 524288 ≤ x * T * D + x * T := by
    rw [Nat.mul_assoc, ← Nat.mul_add]
    exact Nat.mul_le_mul_left x (by omega)
  have htD : t * D * 16 ≤ x * T * D := by
    rw [Nat.mul_right_comm]
    exact Nat.mul_le_mul_right D ht.1
  have htD' : x * T * D + D ≤ t * D * 16 + 16 * D := by
    have := Nat.mul_le_mul_right D (Nat.succ_le_of_lt ht.2)
    linarith
  zify at *
  constructor <;> omega

theorem withMethod_ofNat (s : State) (m : Fin Config.numMethods) (body : Fin Config.numMethods → State) :
    s.withMethod (BitVec.ofNat 8 m.val) body = body m := by
  have hlt : m.val < 3 := m.isLt
  have hm : (BitVec.ofNat 8 m.val).toNat = m.val := by
    rw [BitVec.toNat_ofNat]
    exact Nat.mod_eq_of_lt (by omega)
  rw [s.withMethod_implemented _ body (by omega)]
  congr 1
  exact Fin.ext hm

/-- Settles O14: both conversions as numbers, neither saturating, then the bounds of the three roundings. -/
theorem roundTripBound : Obligations.RoundTripBound := by
  intro m x s T D hpos hle hD hx ht
  obtain ⟨hupper, hlower⟩ := round_trip_bounds (x := x.toNat) hpos hle hD
  have hangle : (sext32 (t2a (sext32 (a2t (s16 x) s.dec.tpd16[m])) s.dec.dpu32768[m])).toNat =
      x.toNat * T / 16 * D / 32768 := by
    rw [sext32_t2a_toNat, t2a, sext32_a2t_toNat hx ht]
    exact Nat.min_eq_left (hupper.trans hx)
  refine ⟨_, _, congrArg Host.Outcome.next (withMethod_ofNat s m _),
    congrArg Host.Outcome.next (withMethod_ofNat _ m _), ?_⟩
  simp only [State.ret_iface, State.ret_dec, hangle]
  exact ⟨hupper, hlower⟩

/-! ## The speed calculation (R123, R127) -/

/-- A word of format C0 (R92, R93). -/
theorem decode_c0 {w : Word} (op : Byte) (opa opb : Word) {i : Instr} (hw : w = cmdWord op 0)
    (hrow : opcodeRow op 0 opa opb = some (.c0, i)) : decode ⟨w, opa, opb⟩ = .ok i := by
  rw [hw, decode_cmdWord op 0 opa opb .c0 i hrow]
  rfl

theorem decode_cmSpeedCalcs (opa opb : Word) : decode ⟨0x12, opa, opb⟩ = .ok .cmSpeedCalcs :=
  decode_c0 0x12 opa opb (by decide) rfl

/-- R123's two formulas with the division by 0 written out. -/
theorem speedRpm_eq (d : Decoder) (crankRpm : Half) : d.speedRpm crankRpm =
    if d.rpmReg.toNat < crankRpm.toNat ∧ d.revSeen = 2 then
      if d.revTime.toNat = 0 then 65535 else min (60000000 / d.revTime.toNat) 65535
    else if d.regGap.toNat = 0 then 65535
    else min (1000000 * d.regSpan.toNat / (6 * d.regGap.toNat)) 65535 := by
  have hzero : 6 * d.regGap.toNat = 0 ↔ d.regGap.toNat = 0 := by omega
  simp only [Decoder.speedRpm, divSat, hzero]

theorem execCmSpeedCalcs_synced (s : State) (hc : s.dec.configured ≠ false) (hs : s.dec.hasSync ≠ false) :
    execCmSpeedCalcs s = .next ({ s with dec := s.dec.speedCalcs s.cfg.crankRpm }.ret .ok) := by
  rw [execCmSpeedCalcs, if_neg hc, if_neg hs]

/-- Settles O15: the two checks, then the three cases of the speed calculation. -/
theorem speedCalculation : Obligations.SpeedCalculation := by
  refine ⟨decode_cmSpeedCalcs, ?_⟩
  intro s d rev gap rpm p0 p1
  have hrpm : d.speedRpm s.cfg.crankRpm = rpm := speedRpm_eq d s.cfg.crankRpm
  show execCmSpeedCalcs s = _
  by_cases hc : d.configured = false
  · rw [if_pos hc, execCmSpeedCalcs, if_pos hc]; rfl
  by_cases hs : d.hasSync = false
  · rw [if_neg hc, if_pos hs, execCmSpeedCalcs, if_neg hc, if_pos hs]; rfl
  rw [if_neg hc, if_neg hs, execCmSpeedCalcs_synced s hc hs]
  by_cases hv : d.regValid = false
  · rw [if_pos hv, speedCalcs_invalid _ _ hv]; rfl
  by_cases hr : d.revSeen = 2
  · rw [if_neg hv, if_pos hr, speedCalcs_revolution _ _ (by simpa using hv) hr, hrpm]; rfl
  · rw [if_neg hv, if_neg hr, speedCalcs_interval _ _ (by simpa using hv) hr, hrpm]; rfl

/-! ## CM_IGNITION_LIMITS (R128) -/

theorem decode_cmIgnitionLimits (opa opb : Word) :
    decode ⟨0x13, opa, opb⟩ = .ok (.cmIgnitionLimits (opa.truncate 16)) := by
  rw [← angleOperand_eq_truncate]
  exact decode_c0 0x13 opa opb (by decide) rfl

/-- One cycle added to or subtracted from a 16-bit angle stays within 32 bits. -/
theorem sext32_ignitionLimits_toInt (a : Half) {cycle : Nat} (h : cycle = 360 ∨ cycle = 720) :
    (sext32 (ignitionLimits (s16 a) cycle)).toInt =
      if (cycle : Int) ≤ a.toInt then a.toInt - cycle else if a.toInt < 0 then a.toInt + cycle else a.toInt := by
  have hlow := a.le_toInt
  have hhigh := a.toInt_lt
  have hrange : -2 ^ 31 ≤ ignitionLimits (s16 a) cycle ∧ ignitionLimits (s16 a) cycle < 2 ^ 31 := by
    unfold ignitionLimits s16
    split_ifs <;> omega
  rw [sext32_toInt _ hrange.1 hrange.2]
  rfl

/-- Settles O16: the cycle is legal or not; a legal one bounds the result. -/
theorem ignitionLimits : Obligations.IgnitionLimits := by
  intro opa opb s a cycle
  refine ⟨decode_cmIgnitionLimits opa opb, ?_⟩
  have hcycle : (cycle = 360 ∨ cycle = 720) ↔ (s.cfg.cycle = 360 ∨ s.cfg.cycle = 720) := by
    simp only [cycle, ← BitVec.toNat_inj]
    norm_cast
  by_cases h : cycle = 360 ∨ cycle = 720
  · rw [if_pos h]
    refine ⟨_, sext32_ignitionLimits_toInt a (cycle := s.cfg.cycle.toNat) (by omega), ?_⟩
    show execCmIgnitionLimits a s = _
    rw [execCmIgnitionLimits, if_pos (hcycle.1 h)]; rfl
  · rw [if_neg h]
    show execCmIgnitionLimits a s = _
    rw [execCmIgnitionLimits, if_neg (mt hcycle.2 h)]; rfl

/-! ## TD_GET_CRANK_ANGLE (R176, R177) -/

/-- The base angle of a tooth that has an entry, as a number. -/
theorem baseAngle_eq (s : State) (hk : 1 ≤ s.dec.toothCount.toNat)
    (htable : s.cfg.pattern = 2 → s.dec.toothCount.toNat ≤ 64) :
    s.baseAngle = ((if s.cfg.pattern = 2 then (s.cfg.table[s.dec.toothCount.toNat - 1]?.getD 0).toNat
      else (s.dec.toothCount.toNat - 1) * s.dec.toothAngle.toNat : Nat) : Int) := by
  have hpred : (s.dec.toothCount.toNat : Int) - 1 = ((s.dec.toothCount.toNat - 1 : Nat) : Int) := by omega
  unfold State.baseAngle
  dsimp only
  rw [hpred]
  split
  next hp =>
    have hentry : s.dec.toothCount.toNat - 1 < Config.tableMax := Nat.sub_one_lt_of_le hk (htable hp)
    rw [tableAt_getD s.cfg _ hentry]
  next => push_cast; rfl

/-- The crank angle over the natural numbers, where the base angle is one. -/
theorem crankAngle_eq (s : State) (m : Fin Config.numMethods) {base : Nat} (hbase : s.baseAngle = base)
    (hcycle : s.cfg.cycle.toNat ≠ 0) :
    s.crankAngle m = ((base + (if s.cfg.cycle.toNat = 720 ∧ s.dec.revFlag = true then 360 else 0) +
      min (t2a (s.now - s.dec.toothLastTime) s.dec.dpu32768[m]) s.cfg.cycle.toNat) % s.cfg.cycle.toNat : Nat) := by
  have h720 : s.cfg.cycle = 720 ↔ s.cfg.cycle.toNat = 720 := by rw [← BitVec.toNat_inj]; rfl
  simp only [State.crankAngle, rem, hbase, if_neg hcycle, h720]
  split
  · push_cast; rfl
  · push_cast; rw [add_zero]

/-- Settles O31: the checks in their order, then the angle over the natural numbers. -/
theorem getCrankAngle : Obligations.GetCrankAngle := by
  intro m s
  refine ⟨fun opa opb hm => decode_word 0x05 m opa opb .cm _ rfl (decide_eq_true hm),
    exec_by_method rfl fun h hexec => ?_⟩
  by_cases hc : s.dec.configured = false
  · rw [if_pos hc, hexec, if_pos hc]; rfl
  by_cases hs : s.dec.hasSync = false
  · rw [if_neg hc, if_pos hs, hexec, if_neg hc, if_pos hs]; rfl
  rw [if_neg hc, if_neg hs]
  rw [if_neg hc, if_neg hs] at hexec
  intro k cycle base half elapsed corr hcycle hk htable
  refine ⟨_, ?_, hexec⟩
  rw [crankAngle_eq s _ (baseAngle_eq s hk htable) (by omega), sext32_toNat]
  · rfl
  · exact (Nat.mod_lt _ (by omega)).trans s.cfg.cycle.isLt |>.trans (by decide)

/-! ## A tooth that has sync after its pattern step (R151, R153, R166, R168, R169) -/

/-- The history shift of a primary edge at NOW, its gap written out (R153). -/
theorem shiftHistory_primary (s : State) :
    s.dec.shiftHistory s.now s.primaryGap (decide (1 ≤ s.dec.teethSeen.toNat)) =
      { s.dec with
        toothLastMinusOneTime :=
          if 1 ≤ s.dec.teethSeen.toNat then s.dec.toothLastTime else s.dec.toothLastMinusOneTime
        toothGap := if 1 ≤ s.dec.teethSeen.toNat then s.now - s.dec.toothLastTime else s.dec.toothGap
        toothLastTime := s.now
        teethSeen := BitVec.ofNat 2 (min (s.dec.teethSeen.toNat + 1) 2)
        toothCount := BitVec.ofNat 16 (min (s.dec.toothCount.toNat + 1) 65535) } := by
  by_cases had : 1 ≤ s.dec.teethSeen.toNat
  · simp [Decoder.shiftHistory, satInc, had, primaryGap_of_seen s had]
  · simp [Decoder.shiftHistory, satInc, had]

/-- The regular sample of a primary edge that ends a gap, field by field (R166). -/
theorem sampleIf_primary (s : State) (d : Decoder) (span : Half) :
    d.sampleIf s.primaryGap (if decide (1 ≤ s.dec.teethSeen.toNat) = true then some span else none) =
      { d with
        regGap := if 1 ≤ s.dec.teethSeen.toNat then s.now - s.dec.toothLastTime else d.regGap
        regSpan := if 1 ≤ s.dec.teethSeen.toNat then span else d.regSpan
        regValid := if 1 ≤ s.dec.teethSeen.toNat then true else d.regValid
        tpd16 := if 1 ≤ s.dec.teethSeen.toNat
          then d.tpd16.set 2 (pair (s.now - s.dec.toothLastTime).toNat span.toNat).1 else d.tpd16
        dpu32768 := if 1 ≤ s.dec.teethSeen.toNat
          then d.dpu32768.set 2 (pair (s.now - s.dec.toothLastTime).toNat span.toNat).2 else d.dpu32768 } := by
  by_cases had : 1 ≤ s.dec.teethSeen.toNat
  · simp [Decoder.sampleIf, Decoder.regularSample, Decoder.setPair, had, primaryGap_of_seen s had]
  · simp [Decoder.sampleIf, had]

/-- A sample leaves sync and the count of valid teeth. -/
theorem sampleIf_sync (d : Decoder) (gap : Word) (span : Option Half) :
    (d.sampleIf gap span).hasSync = d.hasSync ∧ (d.sampleIf gap span).validTeeth = d.validTeeth := by
  cases span <;> exact ⟨rfl, rfl⟩

/-- What the bookkeeping of a synced tooth leaves (R169). -/
def counted (d : Decoder) : Decoder :=
  { d with validTeeth := BitVec.ofNat 16 (min (d.validTeeth.toNat + 1) 65535), graceActive := false, graceTeeth := 0 }

theorem counted_validTeeth (d : Decoder) : (counted d).validTeeth.toNat = min (d.validTeeth.toNat + 1) 65535 :=
  satInc_toNat d.validTeeth 65535 (by decide)

/-- A counted tooth with sync qualifies by its number of valid teeth and, with SPEED_PER_REV, as a revolution start
(R168). -/
theorem counted_qualifies_iff {d : Decoder} (c : ConfigRegs) (revStart : Bool) (hs : d.hasSync = true) :
    (counted d).qualifies c revStart = true ↔
      c.syncConfirm.toNat ≤ min (d.validTeeth.toNat + 1) 65535 ∧ (c.flags.getLsbD 1 = false ∨ revStart = true) := by
  have hs' : (counted d).hasSync = true := hs
  simp only [Decoder.qualifies, hs', counted_validTeeth, ConfigRegs.speedPerRev, Bool.true_and, Bool.and_eq_true,
    decide_eq_true_eq, Bool.or_eq_true, Bool.not_eq_true']

/-- The decoder that the pattern step of a primary edge at NOW starts from (R151 step 2). -/
def shifted (s : State) : Decoder := s.dec.shiftHistory s.now s.primaryGap (decide (1 ≤ s.dec.teethSeen.toNat))

/-- What the pattern step of a primary edge at NOW leaves (R151 step 3). -/
def toothResult (s : State) : ToothResult :=
  (shifted s).patternStep s.cfg s.now s.primaryGap s.dec.toothGap (decide (1 ≤ s.dec.teethSeen.toNat))
    (decide (s.dec.teethSeen = 2))

theorem shifted_toothCount (s : State) : (shifted s).toothCount.toNat = min (s.dec.toothCount.toNat + 1) 65535 :=
  satInc_toNat s.dec.toothCount 65535 (by decide)

/-- An accepted primary edge whose pattern step leaves sync: sampled and counted, and the speed calculation run when the
tooth qualifies, which the caller may say as Q. -/
theorem execTdPrimaryEdge_synced {s : State} {d booked : Decoder} {revStart : Bool} {span : Option Half} {Q : Prop}
    [Decidable Q] (hc : s.dec.configured = true)
    (hb : 1 ≤ s.dec.teethSeen.toNat → s.cfg.debounce.toNat ≤ (s.now - s.dec.toothLastTime).toNat)
    (hstep : toothResult s = ⟨d, revStart, false, span⟩) (hs : d.hasSync = true)
    (hQ : Q ↔ s.cfg.syncConfirm.toNat ≤ min (d.validTeeth.toNat + 1) 65535 ∧
      (s.cfg.flags.getLsbD 1 = false ∨ revStart = true))
    (hbooked : counted (d.sampleIf s.primaryGap span) = booked) :
    ∃ log, exec .tdPrimaryEdge s = .next { s with
      dec := if Q then booked.speedCalcs s.cfg.crankRpm else booked
      log := log
      iface := ⟨0, 0, 0⟩ } := by
  obtain ⟨hsync, hvalid⟩ := sampleIf_sync d s.primaryGap span
  have hq : booked.qualifies s.cfg revStart = true ↔ Q := by
    rw [← hbooked, counted_qualifies_iff _ _ (hsync.trans hs), hvalid, hQ]
  refine ⟨s.toothLog s.primaryGap (decide (1 ≤ s.dec.teethSeen.toNat)), (execTdPrimaryEdge_accepted s hc hb).trans ?_⟩
  rw [acceptTooth_kept s _ _ d revStart span hstep, syncBookkeeping_synced _ _ _ (hsync.trans hs)]
  simp only [← hq, ← hbooked]
  rfl

/-! ## The missing-tooth wheel (R160 to R162) -/

theorem toothResult_missingTooth {s : State} (hp : s.cfg.pattern = 0) :
    toothResult s = (shifted s).missingToothStep s.cfg s.now s.primaryGap s.dec.toothGap
      (decide (1 ≤ s.dec.teethSeen.toNat)) (decide (s.dec.teethSeen = 2)) := if_pos hp

/-- The sync gap of a primary edge at NOW: with two teeth seen there is a gap (R160). -/
theorem primary_isSyncGap_iff (s : State) :
    isSyncGap (decide (s.dec.teethSeen = 2)) s.primaryGap s.dec.toothGap = true ↔
      s.dec.teethSeen = 2 ∧ 3 * s.dec.toothGap.toNat ≤ 2 * (s.now - s.dec.toothLastTime).toNat := by
  rw [isSyncGap_iff, decide_eq_true_eq]
  refine and_congr_right fun hseen => ?_
  rw [primaryGap_of_seen s (by rw [hseen]; decide)]

/-- Settles O21: the pattern step is a revolution start, which qualifies whatever SPEED_PER_REV says. -/
theorem missingToothRevolutionStart : Obligations.MissingToothRevolutionStart := by
  intro s gap valid d hc hp hseen hb hgap hcount
  have hstep := (toothResult_missingTooth hp).trans (missingToothStep_start (shifted s) s.cfg s.now s.primaryGap
    s.dec.toothGap _ _ ((primary_isSyncGap_iff s).2 ⟨hseen, hgap⟩) fun hs => by
      rw [shifted_toothCount]
      push_cast
      exact hcount hs)
  refine execTdPrimaryEdge_synced hc (fun _ => hb) hstep rfl (and_iff_left (.inr rfl)).symm ?_
  rw [shifted, shiftHistory_primary]
  simp [counted, Decoder.sampleIf, Decoder.toothOne, satInc, hseen, d, valid, gap]

/-- Settles O23: the pattern step leaves the count and a regular gap, and is no revolution start. -/
theorem missingToothCounting : Obligations.MissingToothCounting := by
  intro s had gap count valid p d hc hp hs hb hgap hcount
  have hstep := (toothResult_missingTooth hp).trans (missingToothStep_regular (shifted s) s.cfg s.now s.primaryGap
    s.dec.toothGap _ _ (mt (primary_isSyncGap_iff s).1 hgap) fun _ => by
      rw [shifted_toothCount]
      exact hcount)
  refine execTdPrimaryEdge_synced hc hb hstep hs (and_congr_right' (or_iff_left Bool.false_ne_true).symm) ?_
  rw [sampleIf_primary, shifted, shiftHistory_primary]
  rfl

/-! ## The dual wheel and the angle table (R163, R167, R172) -/

/-- The table of a legal configuration that is neither pattern 0 nor pattern 1 (R150). -/
theorem tableOk_of_legal {c : ConfigRegs} (h : c.Legal) (h0 : c.pattern ≠ 0) (h1 : c.pattern ≠ 1) :
    c.tableOk = true := by
  have hvalid := (valid_iff_legal c).2 h
  rw [ConfigRegs.valid, Bool.and_eq_true, if_neg h0, if_neg h1] at hvalid
  exact hvalid.2

/-- The span of a gap of a legal table, both cases of R167. -/
theorem tableSpan_eq {c : ConfigRegs} (h : c.tableOk = true) {k : Nat} (h1 : 1 ≤ k) (hk : k ≤ c.teeth.toNat) :
    c.tableSpan k =
      if k = 1 then
        BitVec.ofNat 16 ((c.table[0]?.getD 0).toNat + 360 - (c.table[c.teeth.toNat - 1]?.getD 0).toNat)
      else BitVec.ofNat 16 ((c.table[k - 1]?.getD 0).toNat - (c.table[k - 2]?.getD 0).toNat) := by
  split
  next hfirst => rw [hfirst, tableSpan_first c h]
  next => exact tableSpan_inner c h k (by omega) hk

/-- A synced tooth of patterns 1 and 2 is the tooth after tooth N, counted as tooth 1 and a revolution start, or one
more tooth of the revolution; wrap says which. -/
theorem toothResult_cam {s : State} (hp : s.cfg.pattern ≠ 0) (hs : s.dec.hasSync = true) {k : Nat} {wrap : Prop}
    [Decidable wrap] (hwrap : wrap ↔ s.cfg.teeth.toNat < min (s.dec.toothCount.toNat + 1) 65535)
    (hk : k = if wrap then 1 else min (s.dec.toothCount.toNat + 1) 65535) :
    toothResult s =
      ⟨{ shifted s with
          toothCount := BitVec.ofNat 16 k
          toothOneMinusOneTime := if wrap then s.dec.toothOneTime else s.dec.toothOneMinusOneTime
          toothOneTime := if wrap then s.now else s.dec.toothOneTime
          revSeen := if wrap then BitVec.ofNat 2 (min (s.dec.revSeen.toNat + 1) 2) else s.dec.revSeen
          revFlag := if wrap then !s.dec.revFlag else s.dec.revFlag },
        decide wrap, false,
        if decide (1 ≤ s.dec.teethSeen.toNat) = true then
          some (if s.cfg.pattern = 1 then s.dec.toothAngle else s.cfg.tableSpan k) else none⟩ := by
  have hstep : toothResult s = (shifted s).camStep s.cfg s.now (decide (1 ≤ s.dec.teethSeen.toNat)) := if_neg hp
  rw [hstep, camStep_synced (shifted s) _ _ _ hs, shifted_toothCount]
  by_cases hw : wrap
  · rw [if_pos hw] at hk
    rw [decide_eq_true (hwrap.1 hw), hk]
    simp only [hw, if_true, decide_true]
    rfl
  · rw [if_neg hw] at hk
    have hcount : (shifted s).toothCount.toNat = k := by rw [shifted_toothCount, hk]
    rw [decide_eq_false (mt hwrap.2 hw)]
    simp only [hw, if_false, decide_false, hcount, Bool.false_eq_true]
    rw [hk]
    rfl

/-- The count after a synced tooth is that of a tooth of the wheel (R163). -/
theorem camCount_range {n count : Nat} (hn : 1 ≤ n) :
    1 ≤ (if n < min (count + 1) 65535 then 1 else min (count + 1) 65535) ∧
      (if n < min (count + 1) 65535 then 1 else min (count + 1) 65535) ≤ n := by
  split <;> omega

/-- Settles O26: the count is that of a tooth of the wheel, so the table has its span; a revolution start is the tooth
that wraps. -/
theorem camWheelTooth : Obligations.CamWheelTooth := by
  intro s had gap wrap k angleOf span valid p d hc hlegal hp hs hb
  have hspan : (if s.cfg.pattern = 1 then s.dec.toothAngle else s.cfg.tableSpan k) = span := by
    refine ite_congr rfl (fun _ => rfl) fun h1 => ?_
    have htable := tableOk_of_legal hlegal hp h1
    have hteeth : 2 ≤ s.cfg.teeth.toNat := ((tableOk_iff s.cfg).1 htable).1
    have hk : 1 ≤ k ∧ k ≤ s.cfg.teeth.toNat := camCount_range (Nat.le_of_succ_le hteeth)
    exact tableSpan_eq htable hk.1 hk.2
  refine execTdPrimaryEdge_synced hc hb (toothResult_cam hp hs (wrap := wrap) Iff.rfl rfl) hs
    (by rw [decide_eq_true_eq]; rfl) ?_
  rw [hspan, sampleIf_primary, shifted, shiftHistory_primary]
  rfl

/-! ## The decoder beside another scheduler (R123, R127, R150, R151, R164, R173, R251, R253, R261, R262) -/

/-- The state whose NOW, decoder, log and configuration are s's and whose every other field is r's. -/
def beside (s r : State) : State := { r with now := s.now, dec := s.dec, log := s.log, cfg := s.cfg }

theorem eq_beside {s r : State} (hnow : s.now = r.now) (hdec : s.dec = r.dec) (hlog : s.log = r.log)
    (hcfg : s.cfg = r.cfg) : r = beside s r := by
  rw [beside, hnow, hdec, hlog, hcfg]

/-- The same check, and the same decoder, log and configuration at either end of it. -/
theorem sameDecoder_ite {p : Prop} [Decidable p] {t t' u u' : State} (ht : SameDecoder t t') (hu : SameDecoder u u') :
    SameDecoder (if p then t else u) (if p then t' else u') := by
  split
  · exact ht
  · exact hu

/-- A command that answers states with the same decoder, log and configuration, whatever lies beside these. -/
def Independent (i : Instr) : Prop :=
  ∀ s r : State, ∃ t t', exec i s = .next t ∧ exec i (beside s r) = .next t' ∧ SameDecoder t t'

theorem tdSetup_independent : Independent .tdSetup := fun _ _ =>
  ⟨_, _, rfl, rfl, sameDecoder_ite ⟨rfl, rfl, rfl⟩ ⟨rfl, rfl, rfl⟩⟩

theorem acceptTooth_beside (s r : State) (gap : Word) (had : Bool) :
    SameDecoder (s.acceptTooth gap had) ((beside s r).acceptTooth gap had) :=
  sameDecoder_ite ⟨rfl, rfl, rfl⟩ ⟨rfl, rfl, rfl⟩

theorem tdPrimaryEdge_independent : Independent .tdPrimaryEdge := fun s r =>
  ⟨_, _, rfl, rfl, sameDecoder_ite ⟨rfl, rfl, rfl⟩ (sameDecoder_ite ⟨rfl, rfl, rfl⟩ (acceptTooth_beside s r _ _))⟩

theorem tdSecondaryEdge_independent : Independent .tdSecondaryEdge := fun _ _ =>
  ⟨_, _, rfl, rfl, sameDecoder_ite ⟨rfl, rfl, rfl⟩ (sameDecoder_ite ⟨rfl, rfl, rfl⟩
    (sameDecoder_ite ⟨rfl, rfl, rfl⟩ (sameDecoder_ite ⟨rfl, rfl, rfl⟩ ⟨rfl, rfl, rfl⟩)))⟩

theorem tdStallCheck_independent : Independent .tdStallCheck := fun _ _ =>
  ⟨_, _, rfl, rfl, sameDecoder_ite ⟨rfl, rfl, rfl⟩ (sameDecoder_ite ⟨rfl, rfl, rfl⟩ ⟨rfl, rfl, rfl⟩)⟩

theorem cmSpeedCalcs_independent : Independent .cmSpeedCalcs := fun _ _ =>
  ⟨_, _, rfl, rfl, sameDecoder_ite ⟨rfl, rfl, rfl⟩ (sameDecoder_ite ⟨rfl, rfl, rfl⟩ ⟨rfl, rfl, rfl⟩)⟩

theorem logClear_independent : Independent .logClear := fun _ _ => ⟨_, _, rfl, rfl, rfl, rfl, rfl⟩

theorem cfgWrite_independent (reg : Byte) (v : Word) : Independent (.cfgWrite reg v) := by
  intro s r
  refine ⟨_, _, rfl, rfl, ?_⟩
  cases Reg.ofNumber? reg with
  | none => exact ⟨rfl, rfl, rfl⟩
  | some _ => exact sameDecoder_ite ⟨rfl, rfl, rfl⟩ (sameDecoder_ite ⟨rfl, rfl, rfl⟩ ⟨rfl, rfl, rfl⟩)

/-- The commands that write the decoder, the log or the configuration; every other leaves all three. -/
theorem exec_sameDecoder {i : Instr} (s : State)
    (hi : i ∉ [.tdSetup, .tdPrimaryEdge, .tdSecondaryEdge, .tdStallCheck, .cmSpeedCalcs, .logClear])
    (hcfg : ∀ r v, i ≠ .cfgWrite r v) : ∃ t, exec i s = .next t ∧ SameDecoder s t := by
  obtain ⟨t, hexec, hframe⟩ := exec_frame i s
  refine ⟨t, hexec, ?_⟩
  rcases hframe with ⟨_, _, rfl⟩ | ⟨hdecoder, -⟩ | ⟨-, _, _, _, rfl⟩ | ⟨-, _, _, rfl⟩ | ⟨-, _, _, rfl⟩ |
    ⟨⟨r, v, hwrite⟩, -⟩
  · exact ⟨rfl, rfl, rfl⟩
  · exact absurd (by simpa using hdecoder) hi
  · exact ⟨rfl, rfl, rfl⟩
  · exact ⟨rfl, rfl, rfl⟩
  · exact ⟨rfl, rfl, rfl⟩
  · exact absurd hwrite (hcfg r v)

theorem independent_of_sameDecoder {i : Instr} (h : ∀ s, ∃ t, exec i s = .next t ∧ SameDecoder s t) :
    Independent i := by
  intro s r
  obtain ⟨t, hexec, ht⟩ := h s
  obtain ⟨t', hexec', ht'⟩ := h (beside s r)
  exact ⟨t, t', hexec, hexec', ht'.dec.trans ht.dec.symm, ht'.log.trans ht.log.symm, ht'.cfg.trans ht.cfg.symm⟩

theorem exec_independent (i : Instr) : Independent i := by
  cases i with
  | tdSetup => exact tdSetup_independent
  | tdPrimaryEdge => exact tdPrimaryEdge_independent
  | tdSecondaryEdge => exact tdSecondaryEdge_independent
  | tdStallCheck => exact tdStallCheck_independent
  | cmSpeedCalcs => exact cmSpeedCalcs_independent
  | logClear => exact logClear_independent
  | cfgWrite reg v => exact cfgWrite_independent reg v
  | _ => exact independent_of_sameDecoder fun s => exec_sameDecoder s (by simp) (by simp)

/-- Settles O54: the second state is the first one's decoder beside its own scheduler. -/
theorem decoderIndependentOfScheduler : Obligations.DecoderIndependentOfScheduler := by
  intro s s' hnow hdec hlog hcfg i
  obtain ⟨t, t', hexec, hexec', hsame⟩ := exec_independent i s s'
  rw [← eq_beside hnow hdec hlog hcfg] at hexec'
  exact ⟨t, t', hexec, hexec', hsame.dec.symm, hsame.log.symm, hsame.cfg.symm⟩

end Sys2Proof.Proofs.CrankMath

/-! # Proofs of 41_trigger_decoder.md: the set-up, the accepted tooth and its log, the secondary edge, the stall, the
latched speed, and the scheduler beside the decoder -/

namespace Sys2Proof.Proofs.TriggerDecoder

open Sys2Proof Sys2Proof.Machine
open Sys2Proof.Proofs.CrankMath

/-! ## TD_SETUP (R150) -/

theorem decode_tdSetup (opa opb : Word) : decode ⟨0x01, opa, opb⟩ = .ok .tdSetup :=
  decode_c0 0x01 opa opb (by decide) rfl

/-- A legal configuration has a tooth to divide by, so its nominal angle is a quotient (R24). -/
theorem nominalAngle_eq {c : ConfigRegs} (h : c.Legal) :
    c.nominalAngle = if c.pattern = 2 then 0 else BitVec.ofNat 16 (360 / c.teeth.toNat) := by
  have hfits : 360 / c.teeth.toNat < 2 ^ 16 := (Nat.div_le_self _ _).trans_lt (by decide)
  apply BitVec.eq_of_toNat_eq
  rw [StateRules.nominalAngle_toNat c h]
  split
  · rfl
  · rw [BitVec.toNat_ofNat, Nat.mod_eq_of_lt hfits]

/-- Settles O18: the model's checks accept exactly the legal configurations. -/
theorem setup : Obligations.Setup := by
  refine ⟨decode_tdSetup, fun s => ⟨fun hlegal => ?_, fun hillegal => ?_⟩⟩
  · show execTdSetup s = _
    rw [execTdSetup, if_pos ((valid_iff_legal s.cfg).2 hlegal), nominalAngle_eq hlegal]
    rfl
  · show execTdSetup s = _
    rw [execTdSetup, if_neg (mt (valid_iff_legal s.cfg).1 hillegal)]
    rfl

/-! ## The primary debounce filter (R152) -/

/-- An accepted tooth ends with OK or SYNC_LOSS (R151 step 5). -/
theorem acceptTooth_status (s : State) (gap : Word) (had : Bool) :
    (s.acceptTooth gap had).iface.status = 0 ∨ (s.acceptTooth gap had).iface.status = 2 := by
  unfold State.acceptTooth
  dsimp only
  split
  · exact .inr rfl
  · exact .inl rfl

/-- Settles O19: the two refusals in their order, then the two endings of an accepted tooth. -/
theorem primaryDebounce : Obligations.PrimaryDebounce := by
  intro s
  by_cases hc : s.dec.configured = false
  · rw [if_pos hc]
    show execTdPrimaryEdge s = _
    rw [execTdPrimaryEdge, if_pos hc]
    rfl
  rw [if_neg hc]
  split
  next hbounce =>
    show execTdPrimaryEdge s = _
    rw [execTdPrimaryEdge, if_neg hc, if_pos ((primaryBounces_iff s).2 hbounce)]
    rfl
  next haccept =>
    exact ⟨_, execTdPrimaryEdge_accepted s (by simpa using hc) fun had => Nat.le_of_not_lt fun h => haccept ⟨had, h⟩,
      acceptTooth_status ..⟩

/-! ## The timing record (R151 step 2, R153, R286) -/

/-- Settles O20: the tooth keeps the record of the history shift, inside the frame of the decoder's commands. -/
theorem historyShift : Obligations.HistoryShift := by
  intro s hc hb
  obtain ⟨_, _, _, _, hframe⟩ := acceptTooth_frame s s.primaryGap (decide (1 ≤ s.dec.teethSeen.toNat))
  have hrecord := acceptTooth_record s s.primaryGap (decide (1 ≤ s.dec.teethSeen.toNat))
  rw [shiftHistory_primary] at hrecord
  refine ⟨_, execTdPrimaryEdge_accepted s hc hb, by rw [hframe], hrecord.toothLastTime, hrecord.toothLastMinusOneTime,
    hrecord.toothGap, ?_, hrecord.configured.trans hc, hrecord.toothAngle, hrecord.secLastTime, hrecord.secSeen⟩
  rw [hrecord.teethSeen]
  exact satInc_toNat s.dec.teethSeen 2 (by decide)

/-! ## Sync lost on the missing-tooth wheel (R161, R170) -/

/-- Settles O22: the pattern step is a sync loss of the shifted decoder. -/
theorem missingToothSyncLoss : Obligations.MissingToothSyncLoss := by
  intro s had gap count detected expected hc hp hs hb hlost
  have hgap : isSyncGap (decide (s.dec.teethSeen = 2)) s.primaryGap s.dec.toothGap = true ↔
      ((shifted s).toothCount.toNat : Int) ≠ s.cfg.physTeeth + 1 := by
    rw [primary_isSyncGap_iff, shifted_toothCount]
    exact hlost
  have hstep := (toothResult_missingTooth hp).trans (missingToothStep_lost (shifted s) s.cfg s.now s.primaryGap
    s.dec.toothGap (decide (1 ≤ s.dec.teethSeen.toNat)) _ hs hgap)
  refine ⟨s.toothLog s.primaryGap (decide (1 ≤ s.dec.teethSeen.toNat)), (execTdPrimaryEdge_accepted s hc hb).trans ?_⟩
  rw [acceptTooth_lost s _ _ (shifted s) false hstep, shifted, shiftHistory_primary]
  rfl

/-! ## A tooth without sync (R161, R163, R166, R168, R169, R171) -/

/-- The regular sample of a primary edge at NOW, taken exactly when `sampled` holds, field by field (R166). -/
theorem sampleIf_sampled (s : State) (d : Decoder) (span : Half) {sampled : Prop} [Decidable sampled]
    (h : sampled → 1 ≤ s.dec.teethSeen.toNat) :
    d.sampleIf s.primaryGap (if sampled then some span else none) =
      { d with
        regGap := if sampled then s.now - s.dec.toothLastTime else d.regGap
        regSpan := if sampled then span else d.regSpan
        regValid := if sampled then true else d.regValid
        tpd16 := if sampled then d.tpd16.set 2 (pair (s.now - s.dec.toothLastTime).toNat span.toNat).1 else d.tpd16
        dpu32768 := if sampled
          then d.dpu32768.set 2 (pair (s.now - s.dec.toothLastTime).toNat span.toNat).2 else d.dpu32768 } := by
  by_cases hsampled : sampled
  · simp only [if_pos hsampled, primaryGap_of_seen s (h hsampled)]
    rfl
  · simp only [if_neg hsampled]
    rfl

/-- A tooth without sync that ends no sync gap stays without it, its gap regular on patterns 0 and 1 (R161, R163). -/
theorem toothResult_unsynced {s : State} (hs : s.dec.hasSync = false)
    (hgap : ¬ (s.cfg.pattern = 0 ∧ s.dec.teethSeen = 2 ∧
      3 * s.dec.toothGap.toNat ≤ 2 * (s.now - s.dec.toothLastTime).toNat)) :
    toothResult s = ⟨shifted s, false, false,
      if 1 ≤ s.dec.teethSeen.toNat ∧ (s.cfg.pattern = 0 ∨ s.cfg.pattern = 1) then some s.dec.toothAngle else none⟩ := by
  have hshifted : (shifted s).hasSync = false := hs
  by_cases hp : s.cfg.pattern = 0
  · rw [toothResult_missingTooth hp, missingToothStep_regular (shifted s) _ _ _ _ _ _
      (fun h => hgap ⟨hp, (primary_isSyncGap_iff s).1 h⟩) (fun h => absurd h (by simp [hshifted]))]
    simp only [hp, true_or, and_true, decide_eq_true_eq]
    rfl
  · have hcam : toothResult s = (shifted s).camStep s.cfg s.now (decide (1 ≤ s.dec.teethSeen.toNat)) := if_neg hp
    rw [hcam, camStep_unsynced _ _ _ _ hshifted]
    simp only [hp, false_or, Bool.and_eq_true, decide_eq_true_eq, beq_iff_eq]
    rfl

/-- The bookkeeping of a tooth without sync gives none (R169). -/
theorem syncBookkeeping_hasSync {d : Decoder} (tpr : Int) (hs : d.hasSync = false) :
    (d.syncBookkeeping tpr false).hasSync = false := by
  by_cases hg : d.graceActive = true
  · rw [syncBookkeeping_grace d tpr hs hg]
    split
    · exact hs
    · exact hs
  · rw [syncBookkeeping_idle d tpr false hs (by simpa using hg)]
    exact hs

/-- The decoder of a primary edge at NOW without sync, before the bookkeeping: the record shifted, the tooth counted, the
gap sampled on patterns 0 and 1 over TOOTH_ANGLE degrees. -/
def unsyncedSample (s : State) : Decoder :=
  (shifted s).sampleIf s.primaryGap
    (if 1 ≤ s.dec.teethSeen.toNat ∧ (s.cfg.pattern = 0 ∨ s.cfg.pattern = 1) then some s.dec.toothAngle else none)

/-- The decoder of `unsyncedSample`, field by field. -/
theorem unsyncedSample_eq (s : State) : unsyncedSample s =
    let had := 1 ≤ s.dec.teethSeen.toNat
    let gap := s.now - s.dec.toothLastTime
    let sampled := had ∧ (s.cfg.pattern = 0 ∨ s.cfg.pattern = 1)
    let p := pair gap.toNat s.dec.toothAngle.toNat
    { s.dec with
      toothLastMinusOneTime := if had then s.dec.toothLastTime else s.dec.toothLastMinusOneTime
      toothGap := if had then gap else s.dec.toothGap
      toothLastTime := s.now
      teethSeen := BitVec.ofNat 2 (min (s.dec.teethSeen.toNat + 1) 2)
      toothCount := BitVec.ofNat 16 (min (s.dec.toothCount.toNat + 1) 65535)
      regGap := if sampled then gap else s.dec.regGap
      regSpan := if sampled then s.dec.toothAngle else s.dec.regSpan
      regValid := if sampled then true else s.dec.regValid
      tpd16 := if sampled then s.dec.tpd16.set 2 p.1 else s.dec.tpd16
      dpu32768 := if sampled then s.dec.dpu32768.set 2 p.2 else s.dec.dpu32768 } := by
  rw [unsyncedSample, sampleIf_sampled s _ _ And.left, shifted, shiftHistory_primary]

theorem unsyncedSample_hasSync (s : State) : (unsyncedSample s).hasSync = s.dec.hasSync := by rw [unsyncedSample_eq]

theorem unsyncedSample_graceActive (s : State) : (unsyncedSample s).graceActive = s.dec.graceActive := by
  rw [unsyncedSample_eq]

/-- An accepted primary edge that stays without sync: sampled and booked, with no speed calculation and status OK
(R168, R169). -/
theorem execTdPrimaryEdge_unsynced {s : State} (hc : s.dec.configured = true) (hs : s.dec.hasSync = false)
    (hb : 1 ≤ s.dec.teethSeen.toNat → s.cfg.debounce.toNat ≤ (s.now - s.dec.toothLastTime).toNat)
    (hgap : ¬ (s.cfg.pattern = 0 ∧ s.dec.teethSeen = 2 ∧
      3 * s.dec.toothGap.toNat ≤ 2 * (s.now - s.dec.toothLastTime).toNat)) :
    ∃ log, exec .tdPrimaryEdge s = .next { s with
      dec := (unsyncedSample s).syncBookkeeping s.cfg.teethPerRev false
      log := log
      iface := ⟨0, 0, 0⟩ } := by
  have hnone : ((unsyncedSample s).syncBookkeeping s.cfg.teethPerRev false).qualifies s.cfg false = false := by
    rw [Decoder.qualifies, syncBookkeeping_hasSync _ ((unsyncedSample_hasSync s).trans hs), Bool.false_and,
      Bool.false_and]
  refine ⟨s.toothLog s.primaryGap (decide (1 ≤ s.dec.teethSeen.toNat)), (execTdPrimaryEdge_accepted s hc hb).trans ?_⟩
  rw [acceptTooth_kept s _ _ _ _ _ (toothResult_unsynced hs hgap), ← unsyncedSample, hnone]
  rfl

/-- Settles O24: without grace the bookkeeping does nothing. -/
theorem unsyncedTooth : Obligations.UnsyncedTooth := by
  intro s had gap sampled p hc hs hg hb hgap
  have hsync := (unsyncedSample_hasSync s).trans hs
  have hgrace := (unsyncedSample_graceActive s).trans hg
  obtain ⟨log, hexec⟩ := execTdPrimaryEdge_unsynced hc hs hb hgap
  rw [syncBookkeeping_idle _ _ _ hsync hgrace, unsyncedSample_eq] at hexec
  exact ⟨log, hexec⟩

/-- Settles O25: in grace the bookkeeping counts the tooth, and resets the decoder after a revolution of them. -/
theorem graceAndHardReset : Obligations.GraceAndHardReset := by
  intro s had gap sampled p grace perRev d hc hs hg hb hgap
  have hsync := (unsyncedSample_hasSync s).trans hs
  have hgrace := (unsyncedSample_graceActive s).trans hg
  obtain ⟨log, hexec⟩ := execTdPrimaryEdge_unsynced hc hs hb hgap
  rw [syncBookkeeping_grace _ _ hsync hgrace, unsyncedSample_eq] at hexec
  exact ⟨log, hexec⟩

/-! ## The tooth log (R262) -/

/-- An append to a log with room: the gap at LOG_WR, every other entry kept, LOG_WR one up. -/
theorem append_of_room (l : ToothLog) (gap : Word) (hfull : l.full = false) (hroom : l.wr.toNat < 64) :
    (l.append gap).buf[l.wr.toNat]? = some gap ∧
    (∀ j : Fin 64, j.val ≠ l.wr.toNat → (l.append gap).buf[j] = l.buf[j]) ∧
    (l.append gap).wr.toNat = l.wr.toNat + 1 ∧ ((l.append gap).full = true ↔ l.wr.toNat = 63) := by
  have hwr : (l.wr + 1).toNat = l.wr.toNat + 1 := by
    rw [BitVec.toNat_add, show (1 : BitVec 7).toNat = 1 from rfl]
    exact Nat.mod_eq_of_lt (by omega)
  have happend : l.append gap =
      { buf := l.buf.setIfInBounds l.wr.toNat gap, wr := l.wr + 1
        full := decide ((l.wr + 1).toNat = Config.logSize) } := if_neg (by simp [hfull])
  rw [happend]
  refine ⟨Vector.getElem?_setIfInBounds_self_of_lt hroom, fun j hj => ?_, hwr, ?_⟩
  · exact Vector.getElem_setIfInBounds_ne j.isLt hj.symm
  · rw [decide_eq_true_eq, hwr]
    exact Nat.succ_inj

theorem append_of_full (l : ToothLog) (gap : Word) (hfull : l.full = true) : l.append gap = l := if_pos hfull

/-- The log of a primary edge at NOW that has a gap, with LOG_EN set (R151 step 4). -/
theorem toothLog_of_gap {s : State} (henabled : s.cfg.flags.getLsbD 0 = true) (had : 1 ≤ s.dec.teethSeen.toNat) :
    s.toothLog s.primaryGap (decide (1 ≤ s.dec.teethSeen.toNat)) = s.log.append (s.now - s.dec.toothLastTime) := by
  have hlogged : (s.cfg.logEnabled && decide (1 ≤ s.dec.teethSeen.toNat)) = true := by
    simp [ConfigRegs.logEnabled, henabled, had]
  rw [State.toothLog, if_pos hlogged, primaryGap_of_seen s had]

/-- The log of a primary edge at NOW that has no gap, or with LOG_EN clear or the log full. -/
theorem toothLog_kept {s : State}
    (h : ¬ (s.cfg.flags.getLsbD 0 = true ∧ 1 ≤ s.dec.teethSeen.toNat ∧ s.log.full = false)) :
    s.toothLog s.primaryGap (decide (1 ≤ s.dec.teethSeen.toNat)) = s.log := by
  unfold State.toothLog
  split
  next hlogged =>
    rw [Bool.and_eq_true, decide_eq_true_eq] at hlogged
    exact append_of_full _ _ (Bool.eq_true_of_not_eq_false fun hfull => h ⟨hlogged.1, hlogged.2, hfull⟩)
  next => rfl

/-- Settles O27: the log of an accepted tooth is that of step 4. -/
theorem toothLogAppend : Obligations.ToothLogAppend := by
  intro s hc hroom hb
  refine ⟨_, execTdPrimaryEdge_accepted s hc hb, ?_⟩
  rw [acceptTooth_log]
  refine ⟨fun ⟨henabled, had, hfull⟩ => ?_, toothLog_kept⟩
  rw [toothLog_of_gap henabled had]
  exact append_of_room _ _ hfull (hroom.resolve_right (by simp [hfull]))

/-! ## TD_SECONDARY_EDGE (R164) -/

theorem decode_tdSecondaryEdge (opa opb : Word) : decode ⟨0x03, opa, opb⟩ = .ok .tdSecondaryEdge :=
  decode_c0 0x03 opa opb (by decide) rfl

theorem secondaryBounces_iff (s : State) : s.secondaryBounces = true ↔
    s.dec.secSeen = true ∧ (s.now - s.dec.secLastTime).toNat < s.cfg.debounce.toNat := by
  rw [State.secondaryBounces, Bool.and_eq_true, decide_eq_true_eq]

/-- Settles O28: the checks in their order, one after another. -/
theorem secondaryEdge : Obligations.SecondaryEdge := by
  refine ⟨decode_tdSecondaryEdge, fun s => ?_⟩
  have hcam : (s.cfg.pattern ≠ 1 ∧ s.cfg.pattern ≠ 2) ↔ ¬ (s.cfg.pattern = 1 ∨ s.cfg.pattern = 2) := not_or.symm
  have haway : (s.dec.hasSync = true ∧ s.dec.toothCount ≠ s.cfg.teeth) ↔
      (s.dec.hasSync = true ∧ s.dec.toothCount.toNat ≠ s.cfg.teeth.toNat) :=
    and_congr_right' (not_congr BitVec.toNat_inj.symm)
  refine congrArg Host.Outcome.next (ite_congr rfl (fun _ => rfl) fun _ =>
    ite_congr (propext (secondaryBounces_iff s)) (fun _ => rfl) fun _ => ?_)
  by_cases hp : s.cfg.pattern = 1 ∨ s.cfg.pattern = 2
  · rw [if_pos hp]
    exact (if_neg fun h => hcam.1 h hp).trans (ite_congr (propext haway) (fun _ => rfl) fun _ => rfl)
  · rw [if_neg hp]
    exact if_pos (hcam.2 hp)

/-! ## TD_STALL_CHECK (R173) and TD_GET_RPM (R175) -/

theorem decode_tdStallCheck (opa opb : Word) : decode ⟨0x06, opa, opb⟩ = .ok .tdStallCheck :=
  decode_c0 0x06 opa opb (by decide) rfl

theorem stallDue_iff (s : State) : s.stallDue = true ↔
    1 ≤ s.dec.teethSeen.toNat ∧ s.cfg.maxStall.toNat < (s.now - s.dec.toothLastTime).toNat := by
  rw [State.stallDue, Bool.and_eq_true, decide_eq_true_eq, decide_eq_true_eq]

/-- Settles O29: the two checks, then what the stall clears. -/
theorem stallCheck : Obligations.StallCheck := by
  refine ⟨decode_tdStallCheck, fun s => ?_⟩
  exact congrArg Host.Outcome.next (ite_congr rfl (fun _ => rfl) fun _ =>
    ite_congr (propext (stallDue_iff s)) (fun _ => rfl) fun _ => rfl)

theorem decode_tdGetRpm (opa opb : Word) : decode ⟨0x04, opa, opb⟩ = .ok .tdGetRpm :=
  decode_c0 0x04 opa opb (by decide) rfl

/-- Settles O30: the two refusals in their order, then RPM_REG widened. -/
theorem getRpm : Obligations.GetRpm := by
  refine ⟨decode_tdGetRpm, fun s => ⟨s.dec.rpmReg.zeroExtend 32, BitVec.toNat_setWidth_of_le (by decide), ?_⟩⟩
  show execTdGetRpm s = _
  by_cases hc : s.dec.configured = false
  · rw [execTdGetRpm, if_pos hc, if_pos hc]
    rfl
  by_cases hs : s.dec.hasSync = false
  · rw [execTdGetRpm, if_neg hc, if_pos hs, if_neg hc, if_pos hs]
    rfl
  · rw [execTdGetRpm, if_neg hc, if_neg hs, if_neg hc, if_neg hs]
    rfl

/-! ## The scheduler beside another decoder (R173, R253, 42_event_scheduler.md) -/

/-- s and t agree on all that the scheduler's operations read of the state. -/
structure SameScheduler (s t : State) : Prop where
  now : t.now = s.now
  sched : t.sched = s.sched

/-- The state whose NOW and scheduler are s's and whose every other field is r's. -/
def scheduling (s r : State) : State := { r with now := s.now, sched := s.sched }

theorem SameScheduler.eq_scheduling {s t : State} (h : SameScheduler s t) : t = scheduling s t := by
  rw [scheduling, ← h.now, ← h.sched]

theorem sameScheduler_ite {p : Prop} [Decidable p] {t t' u u' : State} (ht : SameScheduler t t')
    (hu : SameScheduler u u') : SameScheduler (if p then t else u) (if p then t' else u') := by
  split
  · exact ht
  · exact hu

/-- An operation that reads NOW and the scheduler only, as far as the NOW and the scheduler it leaves go. -/
def SchedulerOnly (f : State → State) : Prop := ∀ s r, SameScheduler (f s) (f (scheduling s r))

namespace SchedulerOnly

theorem same {f : State → State} (hf : SchedulerOnly f) {s t : State} (h : SameScheduler s t) :
    SameScheduler (f s) (f t) := by
  rw [h.eq_scheduling]
  exact hf s t

theorem foldl {α : Type} {f : State → α → State} (hf : ∀ a, SchedulerOnly (f · a)) (l : List α) {s t : State}
    (h : SameScheduler s t) : SameScheduler (l.foldl f s) (l.foldl f t) := by
  induction l generalizing s t with
  | nil => exact h
  | cons a l ih => exact ih ((hf a).same h)

theorem endEvent (ch : Chan) : SchedulerOnly (State.endEvent · ch) := fun _ _ => ⟨rfl, rfl⟩

theorem startEvent (ch : Chan) : SchedulerOnly (State.startEvent · ch) := fun _ _ =>
  sameScheduler_ite ⟨rfl, rfl⟩ ⟨rfl, rfl⟩

theorem cancelChannel (ch : Chan) : SchedulerOnly (State.cancelChannel · ch) := by
  intro s r
  have hsetOff : SchedulerOnly fun u => u.setChan ch { u.chan ch with status := .off } := fun _ _ => ⟨rfl, rfl⟩
  exact hsetOff.same (sameScheduler_ite (endEvent ch s r) ⟨rfl, rfl⟩)

theorem rearbitrate (p : Periph) : SchedulerOnly (State.rearbitrate · p) := by
  intro s r
  have hoffsets : (scheduling s r).offsets p = s.offsets p := rfl
  cases hmin : (s.offsets p).min? with
  | none =>
    simp only [State.rearbitrate, hoffsets, hmin]
    exact ⟨rfl, rfl⟩
  | some m =>
    simp only [State.rearbitrate, hoffsets, hmin]
    exact ⟨rfl, rfl⟩

theorem fireChannel (ch : Chan) : SchedulerOnly (State.fireChannel · ch) := fun s r =>
  sameScheduler_ite (startEvent ch s r) (sameScheduler_ite (endEvent ch s r) ⟨rfl, rfl⟩)

theorem examinePeriph (p : Periph) : SchedulerOnly (State.examinePeriph · p) := fun _ _ =>
  sameScheduler_ite ((rearbitrate p).same (foldl fireChannel _ ⟨rfl, rfl⟩)) ⟨rfl, rfl⟩

theorem ret {f : State → State} (hf : SchedulerOnly f) (st : StatusCode) : SchedulerOnly fun s => (f s).ret st :=
  fun s r => ⟨(hf s r).now, (hf s r).sched⟩

/-- An accepted SCH_SCHEDULE once its entry is written (R221, R224). -/
theorem startIfDue (c : Chan) : SchedulerOnly fun s =>
    if s.missedCompare c then (((s.raise .overrun).startEvent c).rearbitrate c.periph).ret .overrun
    else (s.rearbitrate c.periph).ret .ok := by
  intro s r
  have hraise : SameScheduler (s.raise .overrun) ((scheduling s r).raise .overrun) := ⟨rfl, rfl⟩
  exact sameScheduler_ite (((rearbitrate c.periph).ret .overrun).same ((startEvent c).same hraise))
    ((rearbitrate c.periph).ret .ok s r)

end SchedulerOnly

/-- A command of format CC, on either state (R94). -/
theorem withChan_sameScheduler {s t : State} (h : SameScheduler s t) (ch : Byte) {body body' : Chan → State}
    (hbody : ∀ c, SameScheduler (body c) (body' c)) : SameScheduler (s.withChan ch body) (t.withChan ch body') := by
  unfold State.withChan
  cases Chan.ofIdx? ch with
  | none => exact ⟨h.now, h.sched⟩
  | some c => exact hbody c

theorem schSchedule_sameScheduler {s t : State} (h : SameScheduler s t) (ch : Byte) (delay duration : Word) :
    ∃ u u', exec (.schSchedule ch delay duration) s = .next u ∧ exec (.schSchedule ch delay duration) t = .next u' ∧
      SameScheduler u u' := by
  rw [h.eq_scheduling]
  refine ⟨_, _, rfl, rfl, withChan_sameScheduler (s := s) (t := scheduling s t) ⟨rfl, rfl⟩ ch fun c => ?_⟩
  have hrequested : SameScheduler (s.requested c delay duration) ((scheduling s t).requested c delay duration) :=
    ⟨rfl, rfl⟩
  exact sameScheduler_ite ⟨rfl, rfl⟩ (sameScheduler_ite ⟨rfl, rfl⟩ ((SchedulerOnly.startIfDue c).same hrequested))

theorem schCancel_sameScheduler {s t : State} (h : SameScheduler s t) (ch : Byte) :
    ∃ u u', exec (.schCancel ch) s = .next u ∧ exec (.schCancel ch) t = .next u' ∧ SameScheduler u u' :=
  ⟨_, _, rfl, rfl, withChan_sameScheduler h ch fun c =>
    ((SchedulerOnly.rearbitrate c.periph).ret .ok).same ((SchedulerOnly.cancelChannel c).same h)⟩

/-- SCH_INIT also reads the two counts (R220). -/
theorem initialized_sameScheduler {s t : State} (h : SameScheduler s t) (hfuel : s.cfg.fuelCh = t.cfg.fuelCh)
    (hign : s.cfg.ignCh = t.cfg.ignCh) : SameScheduler (StateRules.initialized s) (StateRules.initialized t) := by
  have henable (mask : BitVec 16) : SchedulerOnly (State.setEnabled · mask) := fun _ _ => ⟨rfl, rfl⟩
  have hcancel : SameScheduler s.cancelAll t.cancelAll := SchedulerOnly.foldl SchedulerOnly.cancelChannel _ h
  rw [StateRules.initialized, StateRules.initialized, hfuel, hign]
  exact (SchedulerOnly.rearbitrate 1).same ((SchedulerOnly.rearbitrate 0).same ((henable _).same hcancel))

theorem exec_schInit_sched (s : State) :
    ∃ t, exec .schInit s = .next t ∧ t.sched = (StateRules.initialized s).sched := by
  rcases StateRules.execSchInit_cases s with h | h
  · exact ⟨_, h, by rw [State.ret_sched, State.raise_sched]⟩
  · exact ⟨_, h, by rw [State.ret_sched]⟩

theorem exec_keeps_sched {i : Instr} (s : State) (hinit : i ≠ .schInit) (hschedule : ∀ c d w, i ≠ .schSchedule c d w)
    (hcancel : ∀ c, i ≠ .schCancel c) : ∃ t, exec i s = .next t ∧ t.sched = s.sched := by
  obtain ⟨t, u, hexec, houtcome, -, hsched⟩ := StateRules.exec_schedulerOutcome i s
  exact ⟨t, hexec, hsched.trans (houtcome.sched_eq hinit hschedule hcancel)⟩

theorem sameScheduler_of_kept {s t : State} (h : SameScheduler s t) {i : Instr}
    (hkept : ∀ s, ∃ u, exec i s = .next u ∧ u.sched = s.sched) :
    ∃ u u', exec i s = .next u ∧ exec i t = .next u' ∧ u.sched = u'.sched := by
  obtain ⟨u, hexec, hu⟩ := hkept s
  obtain ⟨u', hexec', hu'⟩ := hkept t
  exact ⟨u, u', hexec, hexec', by rw [hu, hu', h.sched]⟩

theorem exec_sameScheduler {s t : State} (h : SameScheduler s t) (hfuel : s.cfg.fuelCh = t.cfg.fuelCh)
    (hign : s.cfg.ignCh = t.cfg.ignCh) (i : Instr) :
    ∃ u u', exec i s = .next u ∧ exec i t = .next u' ∧ u.sched = u'.sched := by
  cases i with
  | schInit =>
    obtain ⟨u, hexec, hu⟩ := exec_schInit_sched s
    obtain ⟨u', hexec', hu'⟩ := exec_schInit_sched t
    exact ⟨u, u', hexec, hexec', by rw [hu, hu', (initialized_sameScheduler h hfuel hign).sched]⟩
  | schSchedule ch delay duration =>
    obtain ⟨u, u', hexec, hexec', hsame⟩ := schSchedule_sameScheduler h ch delay duration
    exact ⟨u, u', hexec, hexec', hsame.sched.symm⟩
  | schCancel ch =>
    obtain ⟨u, u', hexec, hexec', hsame⟩ := schCancel_sameScheduler h ch
    exact ⟨u, u', hexec, hexec', hsame.sched.symm⟩
  | _ => exact sameScheduler_of_kept h fun s => exec_keeps_sched s (by simp) (by simp) (by simp)

theorem timeStep_sameScheduler {s t : State} (h : SameScheduler s t) (horder : s.periphOrder = t.periphOrder) :
    SameScheduler s.timeStep t.timeStep := by
  rw [State.timeStep, State.timeStep, horder]
  exact SchedulerOnly.foldl SchedulerOnly.examinePeriph _ ⟨by rw [h.now], h.sched⟩

/-- Settles O53: each operation of the scheduler reads NOW and the scheduler only; SCH_INIT the two counts, and the time
step PERIPH_ORDER, besides. -/
theorem schedulerIndependentOfDecoder : Obligations.SchedulerIndependentOfDecoder := by
  intro s s' hnow hsched hfuel hign horder
  have hsame : SameScheduler s s' := ⟨hnow.symm, hsched.symm⟩
  exact ⟨exec_sameScheduler hsame hfuel hign, (timeStep_sameScheduler hsame horder).sched.symm⟩

end Sys2Proof.Proofs.TriggerDecoder


/-! # Proofs of 42_event_scheduler.md: SCH_INIT, the accepted requests, SCH_STATUS, the compares, and the time step -/

namespace Sys2Proof.Proofs.EventScheduler

open Sys2Proof Sys2Proof.Machine
open Sys2Proof.Proofs.Scope (step_of_timeStep)
open Sys2Proof.Proofs.StateRules (OnlyChannel requested_onlyChannel cancelChannel_onlyChannel startedLate
  startedLate_onlyChannel initialized)
open Sys2Proof.Proofs.CrankMath (decode_c0)

/-! ## SCH_INIT (R220) -/

theorem decode_schInit (opa opb : Word) : decode ⟨0x20, opa, opb⟩ = .ok .schInit :=
  decode_c0 0x20 opa opb (by decide) rfl

theorem initialized_chan (s : State) (ch : Chan) : (initialized s).chan ch = { s.chan ch with status := .off } := by
  obtain ⟨hchan, -⟩ := cancelAll_spec s
  rw [initialized, rearbitrate_chan, rearbitrate_chan, State.chan_setEnabled, hchan]

theorem initialized_output (s : State) (ch : Chan) :
    (initialized s).output ch = (s.output ch && (s.chan ch).status != .running) := by
  obtain ⟨-, -, -, hout, -⟩ := cancelAll_spec s
  rw [initialized, rearbitrate_output, rearbitrate_output, State.output_setEnabled, hout]
  by_cases hrunning : (s.chan ch).status = .running <;> simp [hrunning]

theorem initialized_enabled (s : State) :
    (initialized s).sched.enabled = enableMask s.cfg.fuelCh.toNat s.cfg.ignCh.toNat := by
  rw [initialized, rearbitrate_enabled, rearbitrate_enabled]
  rfl

/-- Re-arbitrated with every channel OFF, either peripheral is disarmed. -/
theorem initialized_timer (s : State) (p : Periph) : (initialized s).timer p = ⟨(s.timer p).compare, false⟩ := by
  obtain ⟨hchan, htimer, -⟩ := cancelAll_spec s
  have hoff (m : BitVec 16) (ch : Chan) : ((s.cancelAll.setEnabled m).chan ch).status = .off := by
    rw [State.chan_setEnabled, hchan]
  rw [initialized]
  rcases (by revert p; decide : p = 0 ∨ p = 1) with rfl | rfl
  · rw [rearbitrate_timer_ne _ 1 0 (by decide), rearbitrate_off _ 0 fun ch _ => hoff _ ch, State.timer_setEnabled,
      htimer]
  · rw [rearbitrate_off _ 1 fun ch _ => by rw [rearbitrate_chan, hoff], rearbitrate_timer_ne _ 0 1 (by decide),
      State.timer_setEnabled, htimer]

theorem initialized_trace (s : State) : (initialized s).sched.trace = s.sched.trace ++
    ((List.finRange 16).filter fun ch => (s.chan ch).status = .running).map (fun ch => ⟨s.now, ch, .stop⟩) := by
  obtain ⟨-, -, -, -, htrace, -⟩ := cancelAll_spec s
  rw [initialized, rearbitrate_trace, rearbitrate_trace, State.setEnabled_sched, htrace]

theorem initialized_frame (s : State) : initialized s = { s with sched := (initialized s).sched } := by
  obtain ⟨-, -, -, -, -, hcancel⟩ := cancelAll_spec s
  have hframe : SchedFrame s (initialized s) := ((cancelAll_frame s).trans (setEnabled_frame _ _)).trans
    ((rearbitrate_frame _ 0).trans (rearbitrate_frame _ 1))
  have hsticky : (initialized s).sticky = s.sticky := by
    rw [initialized, rearbitrate_sticky, rearbitrate_sticky, State.setEnabled_sticky, hcancel]
  generalize initialized s = u at hframe hsticky
  rwa [SchedFrame, hsticky] at hframe

/-- OUT is 0 when no channel's bit is set (R51). -/
theorem out_eq_zero (s : State) (h : ∀ ch, s.output ch = false) : s.sched.out = 0 :=
  BitVec.eq_of_getLsbD_eq fun i hi => (h ⟨i, hi⟩).trans BitVec.getLsbD_zero.symm

/-- SCH_INIT's two endings as one record (R220). -/
theorem exec_schInit (s : State) : ∃ t, exec .schInit s = .next t ∧ t = { s with
    sched := (initialized s).sched
    sticky := if 8 < s.cfg.fuelCh.toNat ∨ 8 < s.cfg.ignCh.toNat then s.sticky ||| 0x10 else s.sticky
    iface := ⟨if 8 < s.cfg.fuelCh.toNat ∨ 8 < s.cfg.ignCh.toNat then 7 else 0, 0, 0⟩ } := by
  have hexec : exec .schInit s = .next (if 8 < s.cfg.fuelCh.toNat ∨ 8 < s.cfg.ignCh.toNat then
      ((initialized s).raise .misconfig).ret .misconfig else (initialized s).ret .ok) := rfl
  refine ⟨_, hexec, ?_⟩
  have hframe := initialized_frame s
  generalize initialized s = u at hframe
  split
  · exact congrArg (fun r => (r.raise .misconfig).ret .misconfig) hframe
  · exact congrArg (State.ret · .ok) hframe

/-- Settles O32: the state SCH_INIT leaves is `initialized`, read field by field. -/
theorem schedulerInit : Obligations.SchedulerInit := by
  refine ⟨decode_schInit, fun s => ?_⟩
  obtain ⟨t, hexec, ht⟩ := exec_schInit s
  have hsched : t.sched = (initialized s).sched := by rw [ht]
  have hout (ch : Chan) : t.output ch = (s.output ch && (s.chan ch).status != .running) :=
    (State.output_congr hsched ch).trans (initialized_output s ch)
  refine ⟨t, hexec, by rw [hsched]; exact ht, fun ch => ⟨?channel, hout ch, ?enabled⟩, fun p => ?timer, ?trace,
    fun honly => ?out⟩
  case channel => exact (State.chan_congr hsched ch).trans (initialized_chan s ch)
  case enabled =>
    rw [State.chanEnabled, hsched, initialized_enabled]
    exact enableMask_bit _ _ ch
  case timer => exact (State.timer_congr hsched p).trans (initialized_timer s p)
  case trace => rw [hsched, initialized_trace]
  case out =>
    refine out_eq_zero t fun ch => ?_
    rw [hout]
    by_cases hasserted : s.output ch = true
    · simp [honly ch hasserted]
    · simp [hasserted]

/-! ## Accepted requests whose start lies ahead (R221 to R223) -/

/-- Re-arbitration writes timers only (R233). -/
theorem rearbitrate_timers_only (s : State) (p : Periph) :
    s.rearbitrate p = { s with sched := { s.sched with timers := (s.rearbitrate p).sched.timers } } := by
  unfold State.rearbitrate
  split <;> rfl

/-- An accepted request that leaves its channel no missed start: the entry `e` is written, and the channel's own
peripheral re-arbitrated (R221). -/
theorem schedule_ahead {s : State} {c : Chan} {d u : Word} {e : Channel} (henabled : s.chanEnabled c = true)
    (hd : d.toNat < 2 ^ 31) (hu : u.toNat < 2 ^ 31)
    (he : (s.chan c).request s.now (s.now + d) (s.now + d + u) u = e)
    (hahead : ¬ (e.status = .pending ∧ e.startTarget = s.now)) :
    ∃ t, exec (.schSchedule (BitVec.ofNat 8 c.val) d u) s = .next t ∧
      t = { s with
        sched := { s.sched with channels := t.sched.channels, timers := t.sched.timers }, iface := ⟨0, 0, 0⟩ } ∧
      t.chan c = e ∧ (∀ c' : Chan, c' ≠ c → t.chan c' = s.chan c') ∧
      ∀ p : Periph, p ≠ c.periph → t.timer p = s.timer p := by
  have hchan (ch : Chan) : ((s.requested c d u).rearbitrate c.periph).chan ch = if ch = c then e else s.chan ch := by
    rw [rearbitrate_chan, requested_chan, he]
  have hmissed : ¬ (s.requested c d u).missedCompare c = true := by
    rwa [missedCompare_iff, requested_chan, if_pos rfl, he]
  refine ⟨_, execSchSchedule_armed s c d u henabled hd hu hmissed, ?frame, ?entry, fun c' hne => ?others,
    fun p hne => ?timers⟩
  case frame =>
    rw [rearbitrate_timers_only]
    rfl
  case entry => rw [State.chan_ret, hchan, if_pos rfl]
  case others => rw [State.chan_ret, hchan, if_neg hne]
  case timers =>
    rw [State.timer_ret, rearbitrate_timer_ne _ _ _ hne]
    rfl

/-- A start with a delay is not at NOW. -/
theorem add_delay_ne {d : Word} (now : Word) (hd : 0 < d.toNat) : now + d ≠ now := by
  intro h
  have hd0 : d = 0 := by rw [← off_add now d, h, off_eq_zero]
  rw [hd0] at hd
  exact absurd hd (by decide)

/-- Settles O34: an OFF channel takes the request's window, and its start is not missed. -/
theorem scheduleArmsIdleChannel : Obligations.ScheduleArmsIdleChannel := by
  intro c d u s henabled hoff hpos hd hu
  exact schedule_ahead henabled hd hu (request_off _ _ _ _ hoff) fun hmissed => add_delay_ne s.now hpos hmissed.2

/-- Settles O35: a PENDING channel's start is the delayed one or the one it had, and neither is at NOW. -/
theorem schedulePendingChannel : Obligations.SchedulePendingChannel := by
  intro c d u s old henabled hpending hstart hpos hd hu
  refine schedule_ahead henabled hd hu (request_pending _ _ _ _ hpending hd hu) fun ⟨_, hnow⟩ => ?_
  split at hnow
  · exact add_delay_ne s.now hpos hnow
  · split at hnow
    · exact hstart hnow
    · exact hstart hnow

/-- Settles O36: a RUNNING channel stays RUNNING, so it has no start to miss. -/
theorem scheduleRunningChannel : Obligations.ScheduleRunningChannel := by
  intro c d u s old henabled hrunning hd hu
  refine schedule_ahead henabled hd hu (request_running _ _ _ _ hrunning hd hu) fun ⟨hpending, _⟩ => ?_
  split at hpending
  · exact absurd (hrunning.symm.trans hpending) (by decide)
  · exact absurd (hrunning.symm.trans hpending) (by decide)

/-! ## A missed compare (R224, R231) -/

/-- A request without delay for a channel whose start is still to come takes the window that begins now. -/
theorem request_at_now {c : Channel} {now u : Word} (hu : u.toNat < 2 ^ 31)
    (h : c.status = .off ∨ (c.status = .pending ∧ c.startTarget ≠ now)) :
    c.request now (now + 0) (now + 0 + u) u = ⟨.pending, now, now + u, u⟩ := by
  have hnow : now + 0 = now := BitVec.add_zero now
  rcases h with hoff | ⟨hpending, hstart⟩
  · rw [request_off _ _ _ _ hoff, hnow]
  · have hearlier : (0 : Word).toNat < (off now c.startTarget).toNat :=
      Nat.pos_of_ne_zero fun hzero => hstart ((off_eq_zero _ _).1 (BitVec.eq_of_toNat_eq hzero))
    rw [request_pending _ _ _ _ hpending (by decide) hu, if_pos hearlier, hnow]

theorem add_duration_eq_iff (now u : Word) : now + u = now ↔ u = 0 := by
  rw [← off_eq_zero, off_add]

/-- The two spellings of an inequality as an output bit. -/
theorem decide_ne_eq_bne (x y : Word) : decide (x ≠ y) = (x != y) := by
  rw [Bool.eq_iff_iff, decide_eq_true_eq, bne_iff_ne]

/-- Raising a flag twice is raising it once (R49). -/
theorem stickySet_stickySet (v : BitVec 7) (f : StickyFlag) : stickySet (stickySet v f) f = stickySet v f := by
  rw [stickySet, stickySet, BitVec.or_assoc, BitVec.or_self]

/-- Everything a late start does, from the entry `e` that the request wrote (R224, R231). -/
theorem startedLate_spec {s : State} {c : Chan} {d u : Word} {e : Channel}
    (he : (s.chan c).request s.now (s.now + d) (s.now + d + u) u = e) :
    (startedLate s c d u).chan c = e.started s.now ∧
    (startedLate s c d u).output c = decide (e.endTarget ≠ s.now) ∧
    (startedLate s c d u).sched.trace = s.sched.trace ++ startCallbacks s.now c e ∧
    startedLate s c d u =
      { s with sched := (startedLate s c d u).sched, sticky := stickySet s.sticky .overrun } := by
  obtain ⟨hchan, -, -, hout, htrace, hsticky⟩ := startEvent_spec ((s.requested c d u).raise .overrun) c
  have hentry : ((s.requested c d u).raise .overrun).chan c = e := by
    rw [State.chan_raise, requested_chan, if_pos rfl, he]
  rw [hentry] at hchan hout htrace hsticky
  have hraised : (startedLate s c d u).sticky = stickySet s.sticky .overrun := by
    refine hsticky.trans ?_
    split
    · exact stickySet_stickySet _ _
    · rfl
  refine ⟨(hchan c).trans (if_pos rfl), (hout c).trans (if_pos rfl), htrace, ?_⟩
  rw [← hraised]
  exact startEvent_frame ((s.requested c d u).raise .overrun) c

/-- Settles O37: the request misses its compare, and the start event runs on the entry it wrote. -/
theorem scheduleMissedCompare : Obligations.ScheduleMissedCompare := by
  intro c u s henabled hu hwaits
  have he := request_at_now hu hwaits
  have hmissed : (s.requested c 0 u).missedCompare c = true := by
    rw [missedCompare_iff, requested_chan, if_pos rfl, he]
    exact ⟨rfl, rfl⟩
  obtain ⟨hchan, hout, htrace, hframe⟩ := startedLate_spec he
  have honly := startedLate_onlyChannel s c 0 u
  have hend : s.now + u = s.now ↔ u = 0 := add_duration_eq_iff s.now u
  refine ⟨((startedLate s c 0 u).rearbitrate c.periph).ret .overrun,
    execSchSchedule_missed s c 0 u henabled (by decide) hu hmissed, ?frame, ?enabled, ?channel, ?output, ?trace,
    fun c' hne => ⟨?others, ?outputs⟩, fun p hne => ?timers⟩
  case frame =>
    rw [rearbitrate_timers_only, hframe]
    rfl
  case enabled => exact (rearbitrate_enabled _ _).trans honly.enabled
  case channel =>
    rw [State.chan_ret, rearbitrate_chan, hchan, Channel.started]
    simp only [hend]
  case output =>
    rw [State.output_ret, rearbitrate_output, hout, ← decide_ne_eq_bne]
    exact decide_eq_decide.2 (not_congr hend)
  case trace =>
    refine (rearbitrate_trace _ _).trans (htrace.trans ?_)
    simp only [startCallbacks, hend]
    split <;> rfl
  case others => rw [State.chan_ret, rearbitrate_chan, honly.chan c' hne]
  case outputs => rw [State.output_ret, rearbitrate_output, honly.output c' hne]
  case timers => rw [State.timer_ret, rearbitrate_timer_ne _ _ _ hne, honly.timer]

/-! ## SCH_STATUS (R226) -/

/-- Settles O39: the IDX as a channel or above 15, then one answer for each state of the channel. -/
theorem channelStatus : Obligations.ChannelStatus := by
  intro ch s
  refine ⟨fun opa opb hch => decode_word 0x23 ch opa opb .cc _ rfl (decide_eq_true hch), fun hch => ?_,
    fun c hc => ?_⟩
  · exact congrArg Host.Outcome.next (s.withChan_illegal ch _ hch)
  · obtain rfl : BitVec.ofNat 8 c.val = ch := by rw [hc, BitVec.ofNat_toNat, BitVec.setWidth_eq]
    refine congrArg Host.Outcome.next ((s.withChan_ofNat c _).trans ?_)
    cases (s.chan c).status with
    | off => rfl
    | pending => rfl
    | running => rfl

/-! ## The compare after a command (R233, R234) -/

/-- After a change of one channel and the re-arbitration of its peripheral, the peripheral's compare is at the nearest
target. -/
theorem compare_at_nearest_of_onlyChannel {c : Chan} {s u t : State} (h : OnlyChannel c s u)
    (ht : t.sched = (u.rearbitrate c.periph).sched) :
    ((∀ ch : Chan, ch.periph = c.periph → (t.chan ch).status = .off) →
      t.timer c.periph = ⟨(s.timer c.periph).compare, false⟩) ∧
    ∀ (ch : Chan) (x : Word), ch.periph = c.periph → (t.chan ch).target? = some x →
      (∀ (ch' : Chan) (x' : Word), ch'.periph = c.periph → (t.chan ch').target? = some x' →
        (x - s.now).toNat ≤ (x' - s.now).toNat) →
      t.timer c.periph = ⟨BitVec.ofNat 16 (s.now.toNat + min (x - s.now).toNat 0xFFFF), true⟩ := by
  have hchan (ch : Chan) : t.chan ch = u.chan ch := (State.chan_congr ht ch).trans (rearbitrate_chan u c.periph ch)
  simp only [hchan, State.timer_congr ht, ← h.now, ← h.timer]
  exact ⟨rearbitrate_off u c.periph, rearbitrate_near u c.periph⟩

/-- Settles O40: each of the two commands changes one channel and re-arbitrates its peripheral. -/
theorem compareAtNearestTarget : Obligations.CompareAtNearestTarget := by
  rintro c d u s i (rfl | ⟨rfl, henabled, hd, hu⟩)
  · exact ⟨_, execSchCancel_chan s c, compare_at_nearest_of_onlyChannel (cancelChannel_onlyChannel s c) rfl⟩
  · by_cases hmissed : (s.requested c d u).missedCompare c = true
    · exact ⟨_, execSchSchedule_missed s c d u henabled hd hu hmissed,
        compare_at_nearest_of_onlyChannel (startedLate_onlyChannel s c d u) rfl⟩
    · exact ⟨_, execSchSchedule_armed s c d u henabled hd hu hmissed,
        compare_at_nearest_of_onlyChannel (requested_onlyChannel s c d u) rfl⟩

/-! ## The time step (R230 to R236) -/

theorem fired_eq (c : Channel) (n : Word) : c.fired n = { c with
    status :=
      if c.status = .pending ∧ c.startTarget = n then (if c.endTarget = n then .off else .running)
      else if c.status = .running ∧ c.endTarget = n then .off else c.status } := by
  unfold Channel.fired
  split
  · rfl
  · split <;> rfl

theorem firedOut_eq (n : Word) (c : Channel) (b : Bool) : firedOut n c b =
    if c.status = .pending ∧ c.startTarget = n then c.endTarget != n
    else if c.status = .running ∧ c.endTarget = n then false else b := by
  rw [firedOut, decide_ne_eq_bne]

/-- The order of the callbacks with peripheral 0 first (R235). -/
theorem channels_zeroFirst : (periphList .zeroFirst).flatMap Periph.channels =
    [0, 1, 2, 3, 4, 5, 6, 7, 8, 9, 10, 11, 12, 13, 14, 15] := by decide

/-- The order of the callbacks with peripheral 1 first (R235). -/
theorem channels_oneFirst : (periphList .oneFirst).flatMap Periph.channels =
    [8, 9, 10, 11, 12, 13, 14, 15, 0, 1, 2, 3, 4, 5, 6, 7] := by decide

/-- A compare matches when it is NOW's low half (R52, R230). -/
theorem compare_matches_iff (compare : Half) (n : Word) :
    compare.toNat = n.toNat % 2 ^ 16 ↔ compare = n.extractLsb' 0 16 := by
  rw [← BitVec.toNat_inj, BitVec.extractLsb'_toNat, Nat.shiftRight_zero]

/-- Settles O41: under the invariant no compare stands past a due channel, so the time step does what `timeStep_spec`
says, and a matching timer what `timeStep_timer_match` says. -/
theorem timeStepFiresExactlyDueChannels : Obligations.TimeStepFiresExactlyDueChannels := by
  intro s rest hinv hin n starts ends order
  have hinv' : State.SchedInv { s with inputs := rest } := hinv.congr rfl rfl
  have hdue (p : Periph) : { s with now := n, inputs := rest }.MatchesDue p :=
    matchesDue_of_timerOk { s with inputs := rest } p (((schedInv_iff _).1 hinv').2 p)
  obtain ⟨hchan, henabled, hout, htrace, hoverrun, hquiet, htimer⟩ := timeStep_spec { s with inputs := rest } hdue
  refine ⟨_, step_of_timeStep s rest hin, timeStep_frame _, henabled, fun ch => ?channel, fun ch => ?output, ?trace,
    hoverrun, hquiet, fun p => ?timer⟩
  case channel => exact (hchan ch).trans (fired_eq _ _)
  case output => exact (hout ch).trans (firedOut_eq _ _ _)
  case trace =>
    have horder : order = (periphList s.periphOrder).flatMap Periph.channels := by
      dsimp only [order]
      cases s.periphOrder with
      | zeroFirst => exact channels_zeroFirst.symm
      | oneFirst => exact channels_oneFirst.symm
    rw [horder, List.flatMap_assoc]
    exact htrace
  case timer =>
    have hmatch : ((s.timer p).armed = true ∧ (s.timer p).compare.toNat = n.toNat % 2 ^ 16) ↔
        (s.timer p).armed = true ∧ (s.timer p).compare = n.extractLsb' 0 16 :=
      and_congr_right' (compare_matches_iff _ _)
    split
    next hm => exact timeStep_timer_match _ p hdue (hmatch.1 hm)
    next hm => exact ((htimer p).resolve_right fun h => hm (hmatch.2 h.1)).2

end Sys2Proof.Proofs.EventScheduler


/-! # Proofs of 43_config_and_diagnostics.md: CFG_WRITE, REG_READ and the register map, TD_SNAPSHOT, STICKY_CLEAR, the
log's commands and NOP -/

namespace Sys2Proof.Proofs.Diagnostics

open Sys2Proof Sys2Proof.Machine
open Sys2Proof.Proofs.CrankMath (decode_c0)

/-! ## The fields of a word (R60, R61) -/

/-- The word x is the w-bit value v, zero-extended. -/
structure HoldsField (w : Nat) (x : Word) (v : Nat) : Prop where
  toNat : x.toNat = v
  lt : v < 2 ^ w

namespace HoldsField

theorem zeroExtend {w : Nat} (x : BitVec w) (hw : w ≤ 32 := by decide) : HoldsField w (x.zeroExtend 32) x.toNat :=
  ⟨BitVec.toNat_setWidth_of_le hw, x.isLt⟩

theorem word (x : Word) : HoldsField 32 x x.toNat := ⟨rfl, x.isLt⟩

theorem bit (b : Bool) : HoldsField 1 (bitWord b) b.toNat := by
  cases b <;> exact ⟨rfl, by decide⟩

/-- A field packed just above another. -/
theorem or_shiftLeft {k j u v : Nat} {x y : Word} (hx : HoldsField k x u) (hy : HoldsField j y v) (hfits : k + j ≤ 32) :
    HoldsField (k + j) (x ||| y <<< k) (u + 2 ^ k * v) := by
  have hsum : 2 ^ k * v + u < 2 ^ (k + j) := by
    rw [Nat.pow_add]
    calc 2 ^ k * v + u < 2 ^ k * (v + 1) := Nat.add_lt_add_left hx.lt _
      _ ≤ 2 ^ k * 2 ^ j := Nat.mul_le_mul_left _ hy.lt
  have hshift : (y <<< k).toNat = v <<< k := by
    have hword : 2 ^ (k + j) ≤ 2 ^ 32 := Nat.pow_le_pow_right (by decide) hfits
    rw [BitVec.toNat_shiftLeft, hy.toNat, Nat.shiftLeft_eq, Nat.mul_comm]
    exact Nat.mod_eq_of_lt (by omega)
  refine ⟨?_, by omega⟩
  rw [BitVec.toNat_or, hx.toNat, hshift, Nat.or_comm, ← Nat.shiftLeft_add_eq_or_of_lt hx.lt, Nat.shiftLeft_eq,
    Nat.mul_comm, Nat.add_comm]

/-- TD_STATUS, field by field from bit 0 up (R61). -/
theorem tdStatus (d : Decoder) (logFull : Bool) : HoldsField 11 (tdStatus d logFull)
    (d.hasSync.toNat + 2 * d.revFlag.toNat + 4 * d.graceActive.toNat + 8 * d.configured.toNat + 16 * logFull.toNat
      + 32 * d.teethSeen.toNat + 128 * d.revSeen.toNat + 512 * d.regValid.toNat + 1024 * d.secSeen.toNat) :=
  have syncAndRev := (bit d.hasSync).or_shiftLeft (bit d.revFlag) (by decide)
  have flags := (syncAndRev.or_shiftLeft (bit d.graceActive) (by decide)).or_shiftLeft (bit d.configured) (by decide)
  have teeth := (flags.or_shiftLeft (bit logFull) (by decide)).or_shiftLeft (zeroExtend d.teethSeen) (by decide)
  have revs := teeth.or_shiftLeft (zeroExtend d.revSeen) (by decide)
  (revs.or_shiftLeft (bit d.regValid) (by decide)).or_shiftLeft (bit d.secSeen) (by decide)

end HoldsField

/-! ## REG_READ (R60 to R62, R254) -/

/-- REG_READ of number n answers the status st and the value v, and does nothing else. -/
def ReadsAs (s : State) (bank : Bool) (n : Nat) (st : Byte) (v : Nat) : Prop :=
  v < 2 ^ 32 ∧ exec (.regRead (BitVec.ofNat 8 n) bank) s = .next { s with iface := ⟨st, BitVec.ofNat 32 v, 0⟩ }

theorem readsAs_word {s : State} {bank : Bool} {n : Nat} {x : Word}
    (h : execRegRead (BitVec.ofNat 8 n) bank s = .next (s.ret .ok x)) : ReadsAs s bank n 0 x.toNat := by
  refine ⟨x.isLt, ?_⟩
  rw [BitVec.ofNat_toNat, BitVec.setWidth_eq]
  exact h

theorem readsAs_range {s : State} {bank : Bool} {n : Nat}
    (h : execRegRead (BitVec.ofNat 8 n) bank s = .next (s.ret .range)) : ReadsAs s bank n 9 0 := ⟨by decide, h⟩

theorem readsAs_field (s : State) (r : Reg) {w v : Nat} (h : HoldsField w (s.readReg r) v) :
    ReadsAs s false r.number 0 v :=
  h.toNat ▸ readsAs_word (execRegRead_live s _ r (ofNumber?_number r))

/-- A byte's number as the byte. -/
theorem ofNat_byte_toNat {n : Nat} (h : n ≤ 0xFF) : (BitVec.ofNat 8 n).toNat = n := by
  rw [BitVec.toNat_ofNat]
  exact Nat.mod_eq_of_lt (by omega)

theorem readsAs_snap (s : State) (i : Fin 24) : ReadsAs s true i.val 0 s.snap[i].toNat := by
  have hi := i.isLt
  have hn : (BitVec.ofNat 8 i.val).toNat = i.val := ofNat_byte_toNat (by omega)
  refine readsAs_word ?_
  rw [execRegRead_snap, dif_pos (by omega)]
  simp only [hn, Fin.getElem_fin]

theorem readsAs_snap_reserved (s : State) (n : Nat) (hlow : 0x18 ≤ n) (hhigh : n ≤ 0xFF) : ReadsAs s true n 9 0 := by
  refine readsAs_range ?_
  rw [execRegRead_snap, dif_neg]
  rw [ofNat_byte_toNat hhigh]
  omega

theorem readsAs_reserved (s : State) (n : Nat)
    (h : (0x18 ≤ n ∧ n ≤ 0x1F) ∨ (0x2B ≤ n ∧ n ≤ 0x3F) ∨ (0xC6 ≤ n ∧ n ≤ 0xFF)) : ReadsAs s false n 9 0 := by
  refine readsAs_range (execRegRead_reserved s _ ((ofNumber?_eq_none _).2 ?_))
  rw [ofNat_byte_toNat (by omega)]
  omega

/-- A channel's state as its two-bit code (R47, R211). -/
theorem readsAs_chStatus (s : State) (ch : Chan) : ReadsAs s false (0x80 + 4 * ch.val) 0
    (match (s.chan ch).status with
    | .off => 0
    | .pending => 1
    | .running => 2) := by
  have hcode := readsAs_field s (.chStatus ch) (.zeroExtend _)
  cases hstatus : (s.chan ch).status <;> rwa [hstatus] at hcode

/-- Settles O43: the number of each register names it, and its value is a field of the word the read returns. -/
theorem registerRead : Obligations.RegisterRead := by
  intro s d g returns
  have field {w v : Nat} (r : Reg) (h : HoldsField w (s.readReg r) v) : returns false r.number 0 v := readsAs_field s r h
  refine ⟨fun reg opa opb => decode_word 0x08 reg opa opb .cr _ rfl rfl, readsAs_snap s, readsAs_snap_reserved s,
    readsAs_reserved s, field .tdStatus (.tdStatus d s.log.full),
    field .toothCount (.zeroExtend _), field .validTeeth (.zeroExtend _), field .syncLossCount (.zeroExtend _),
    field .graceTeeth (.zeroExtend _), field .toothLastTime (.word _), field .toothLastMinusOneTime (.word _),
    field .toothGap (.word _), field .toothOneTime (.word _), field .toothOneMinusOneTime (.word _),
    field .regGap (.word _), field .regSpan (.zeroExtend _), field .rpmReg (.zeroExtend _),
    field .secLastTime (.word _), field .toothAngle (.zeroExtend _), field .now (.word _),
    fun m => ⟨field (.tpd16 m) (.word _), field (.dpu32768 m) (.word _)⟩,
    field .logWr (.zeroExtend _), field .sticky (.zeroExtend _),
    field .cfgPattern (.zeroExtend _), field .cfgTeeth (.zeroExtend _), field .cfgMissing (.zeroExtend _),
    field .cfgDebounce (.word _), field .cfgMaxStall (.word _), field .cfgSyncConfirm (.zeroExtend _),
    field .cfgCrankRpm (.zeroExtend _), field .cfgCycle (.zeroExtend _), field .cfgFlags (.zeroExtend _),
    field .cfgFuelCh (.zeroExtend _), field .cfgIgnCh (.zeroExtend _), fun i => field (.cfgTable i) (.zeroExtend _),
    fun ch => ⟨readsAs_chStatus s ch, field (.startTarget ch) (.word _), field (.endTarget ch) (.word _),
      field (.duration ch) (.word _)⟩,
    fun p => ⟨field (.compare p) (.zeroExtend _), field (.armed p) (.bit _)⟩,
    field .out (.zeroExtend _), field .schEn (.zeroExtend _)⟩

/-! ## CFG_WRITE (R251, R252) -/

/-- The RW register numbers (R60). -/
theorem exists_writable {n : Byte}
    (h : (0x20 ≤ n.toNat ∧ n.toNat ≤ 0x2A) ∨ (0x40 ≤ n.toNat ∧ n.toNat ≤ 0x7F)) :
    ∃ r, Reg.ofNumber? n = some r ∧ r.writable = true ∧ r.number = n.toNat := by
  have hmapped : Reg.ofNumber? n ≠ none := fun hnone => by
    have := (ofNumber?_eq_none n).1 hnone
    omega
  obtain ⟨r, hr⟩ := Option.ne_none_iff_exists'.1 hmapped
  have hnumber := (ofNumber?_eq_some n r).1 hr
  exact ⟨r, hr, (writable_iff r).2 (by rwa [hnumber]), hnumber⟩

theorem execCfgWrite_notWritable (s : State) (n : Byte) (v : Word)
    (h : ¬ ((0x20 ≤ n.toNat ∧ n.toNat ≤ 0x2A) ∨ (0x40 ≤ n.toNat ∧ n.toNat ≤ 0x7F))) :
    execCfgWrite n v s = .next (s.ret .range) := by
  unfold execCfgWrite
  cases hr : Reg.ofNumber? n with
  | none => rfl
  | some r =>
    have hw : r.writable = false := by
      rw [← Bool.not_eq_true, writable_iff, (ofNumber?_eq_some n r).1 hr]
      exact h
    exact congrArg Host.Outcome.next (if_pos hw)

theorem execCfgWrite_tooWide (s : State) {n : Byte} {v : Word} {r : Reg} (hr : Reg.ofNumber? n = some r)
    (hw : r.writable = true) (hv : 2 ^ r.width ≤ v.toNat) : execCfgWrite n v s = .next (s.ret .range) := by
  unfold execCfgWrite
  simp only [hr, hw, Bool.true_eq_false, if_false]
  exact congrArg Host.Outcome.next (if_pos hv)

/-- What an accepted write changes: the configuration, and CONFIGURED unless the register is a channel count (R252). -/
theorem written_frame (s : State) {r : Reg} (v : Word) (hw : r.writable = true) : s.written r v = { s with
    cfg := (s.written r v).cfg
    dec := { s.dec with configured := s.dec.configured && (r.number = 0x29 || r.number = 0x2A) }
    iface := ⟨0, 0, 0⟩ } := by
  have hkept : (s.dec.configured && (r.number = 0x29 || r.number = 0x2A)) =
      if r.clearsConfigured = true then false else s.dec.configured := by
    by_cases hcount : r.number = 0x29 ∨ r.number = 0x2A
    · have hkeeps : ¬ r.clearsConfigured = true := by
        rw [clearsConfigured_iff]
        tauto
      rw [if_neg hkeeps]
      simp [hcount]
    · rw [if_pos ((clearsConfigured_iff r).2 ⟨hw, not_or.1 hcount⟩)]
      simp [not_or.1 hcount]
  rw [hkept]
  cases hclears : r.clearsConfigured <;> simp [State.written, State.ret, hclears]

/-- A number from 0x20 up other than the one written reads as before; a reserved one is out of range as before. -/
theorem regRead_written_other (s : State) {reg other : Byte} {r : Reg} (v : Word) (hr : Reg.ofNumber? reg = some r)
    (hother : 0x20 ≤ other.toNat) (hne : other ≠ reg) : ∃ a : Iface,
      exec (.regRead other false) s = .next { s with iface := a } ∧
      exec (.regRead other false) (s.written r v) = .next { s.written r v with iface := a } := by
  cases hr' : Reg.ofNumber? other with
  | none => exact ⟨_, execRegRead_reserved s other hr', execRegRead_reserved _ other hr'⟩
  | some r' =>
    have hnumber := (ofNumber?_eq_some other r').1 hr'
    have hreg : r' ≠ r := by
      rintro rfl
      exact hne (BitVec.eq_of_toNat_eq (hnumber.symm.trans ((ofNumber?_eq_some reg r').1 hr)))
    have hstatus : r' ≠ .tdStatus := by
      rintro rfl
      exact absurd (hnumber ▸ hother) (by decide)
    have hread := execRegRead_live (s.written r v) other r' hr'
    rw [readReg_written_ne s r r' v hreg hstatus] at hread
    exact ⟨_, execRegRead_live s other r' hr', hread⟩

/-- Settles O42: not an RW number, too wide, or the register's write with what reads give after it. -/
theorem configWrite : Obligations.ConfigWrite := by
  intro reg v opb s n width
  refine ⟨decode_word 0x09 reg v opb .cr _ rfl rfl, ?_⟩
  by_cases hrw : (0x20 ≤ n ∧ n ≤ 0x2A) ∨ (0x40 ≤ n ∧ n ≤ 0x7F)
  · obtain ⟨r, hr, hw, hnumber⟩ := exists_writable hrw
    have hwidth : r.width = width := by rw [width_of_writable r hw, hnumber]
    rw [if_neg (not_not.2 hrw)]
    split
    next hwide => exact execCfgWrite_tooWide s hr hw (hwidth ▸ hwide)
    next hfits =>
      have hv : v.toNat < 2 ^ r.width := hwidth ▸ Nat.lt_of_not_le hfits
      have hread := execRegRead_live (s.written r v) reg r hr
      rw [readReg_written s r v hw hv] at hread
      have hframe := written_frame s v hw
      rw [hnumber] at hframe
      exact ⟨_, execCfgWrite_accepted s reg v r hr hw hv, hframe, hread, fun _ => regRead_written_other s v hr⟩
  · rw [if_pos hrw]
    exact execCfgWrite_notWritable s reg v hrw

/-! ## TD_SNAPSHOT (R257, R258) -/

/-- Settles O44: every number below 0x18 names a register, and its word is that register's. -/
theorem snapshot : Obligations.Snapshot := by
  refine ⟨fun opa opb => decode_c0 0x07 opa opb (by decide) rfl, fun s => ⟨_, rfl, fun i => ?_⟩⟩
  obtain ⟨r, hr⟩ := ofNumber?_low i
  rw [Fin.getElem_fin, Vector.getElem_ofFn, snapWord_eq s i r hr]
  exact execRegRead_live s _ r hr

/-! ## STICKY_CLEAR (R259) -/

theorem stickyCleared_getLsbD (v mask : BitVec 7) (j : Fin 7) :
    (stickyCleared v mask).getLsbD j.val = (v.getLsbD j.val && !mask.getLsbD j.val) := by
  simp [stickyCleared]

/-- Settles O45: the mask is the operand's low bits, and each bit is cleared by its own. -/
theorem stickyClear : Obligations.StickyClear := by
  intro opa opb s
  refine ⟨maskOperand_eq_truncate opa ▸ decode_c0 0x0A opa opb (by decide) rfl, _, rfl, fun j => ?_⟩
  rw [stickyCleared_getLsbD, BitVec.truncate_eq_setWidth, BitVec.getLsbD_setWidth, decide_eq_true j.isLt, Bool.true_and]

/-! ## LOG_READ and LOG_CLEAR (R260, R261) -/

/-- Settles O46: the index has an entry or not. -/
theorem logRead : Obligations.LogRead := by
  intro i opa opb s
  refine ⟨decode_word 0x0B i opa opb .cl _ rfl rfl, ?_⟩
  by_cases hi : i.toNat < 64
  · rw [dif_pos hi]
    exact congrArg Host.Outcome.next (dif_pos hi)
  · rw [dif_neg hi]
    exact congrArg Host.Outcome.next (dif_neg hi)

/-- Settles O47: the log's two registers are written and its entries are not. -/
theorem logClear : Obligations.LogClear :=
  ⟨fun opa opb => decode_c0 0x0C opa opb (by decide) rfl, fun _ => rfl⟩

/-! ## NOP (R264) -/

/-- Settles O48: NOP is a `Ret(OK)`. -/
theorem nopReturnsOk : Obligations.NopReturnsOk :=
  ⟨fun opa opb => decode_c0 0x00 opa opb (by decide) rfl, fun _ => rfl⟩

end Sys2Proof.Proofs.Diagnostics


/-! # Proofs of 60_exceptions.md: the status every step leaves, the agent nothing checks, and the illegal command -/

namespace Sys2Proof.Proofs.Exceptions

open Sys2Proof Sys2Proof.Machine
open Sys2Proof.Proofs.Scope (step_of_command)
open Sys2Proof.Proofs.StateRules (step_statusInv)
open Sys2Proof.Proofs.Encoding (runTransaction_of_error)

/-! ## The status after a step (R280) -/

/-- Settles O57: every ending of a command leaves a status code with its results, and the time step leaves both. -/
theorem stepKeepsStatusInvariant : Obligations.StepKeepsStatusInvariant := fun _ _ => step_statusInv

/-! ## The issuing agent (R289) -/

/-- Settles O7: either way the step runs the same transaction, which carries no agent. -/
theorem agentNotChecked : Obligations.AgentNotChecked := by
  intro s a b t rest
  have runs (c : Agent) : step { s with inputs := .command c t :: rest } = runTransaction t { s with inputs := rest } :=
    step_of_command { s with inputs := .command c t :: rest } rest c t rfl
  exact (runs a).trans (runs b).symm

/-! ## The illegal command (R94, R281) -/

theorem illegal_eq (s : State) : s.illegal = { s with sticky := s.sticky ||| 0x20, iface := ⟨11, 0, 0⟩ } := rfl

/-- Settles O8: a word that does not decode runs as `State.illegal`, which writes STICKY and the result registers. -/
theorem illegalCommandChangesNothingElse : Obligations.IllegalCommandChangesNothingElse := by
  intro s a t e rest hin hdec
  rw [step_of_command s rest a t hin, runTransaction_of_error t _ e hdec, illegal_eq]

end Sys2Proof.Proofs.Exceptions


/-! # Proofs of 70_reset_and_hazards.md: what the unconfigured decoder and the disabled scheduler answer after reset -/

namespace Sys2Proof.Proofs.Reset

open Sys2Proof Sys2Proof.Machine
open Sys2Proof.Proofs.Encoding (execSchSchedule_disabled)

/-! ## The commands an unconfigured decoder turns away (R127, R151, R164, R173, R175, R176) -/

/-- The commands whose first refusal is NOT_CONFIGURED. TD_GET_CRANK_ANGLE is one only with an implemented method: it checks
its method first (R284). -/
inductive ChecksConfigured : Instr → Prop
  | tdPrimaryEdge : ChecksConfigured .tdPrimaryEdge
  | tdSecondaryEdge : ChecksConfigured .tdSecondaryEdge
  | tdGetRpm : ChecksConfigured .tdGetRpm
  | tdGetCrankAngle (m : Byte) (implemented : m.toNat < 3) : ChecksConfigured (.tdGetCrankAngle m)
  | tdStallCheck : ChecksConfigured .tdStallCheck
  | cmSpeedCalcs : ChecksConfigured .cmSpeedCalcs

theorem execTdGetCrankAngle_unconfigured (s : State) (m : Byte) (hm : m.toNat < 3) (hc : s.dec.configured = false) :
    execTdGetCrankAngle m s = .next (s.ret .notConfigured) := by
  rw [execTdGetCrankAngle, s.withMethod_implemented m _ hm, if_pos hc]

theorem exec_unconfigured {i : Instr} (hi : ChecksConfigured i) (s : State) (hc : s.dec.configured = false) :
    exec i s = .next (s.ret .notConfigured) := by
  cases hi with
  | tdGetCrankAngle m hm => exact execTdGetCrankAngle_unconfigured s m hm hc
  | tdPrimaryEdge | tdSecondaryEdge | tdGetRpm | tdStallCheck | cmSpeedCalcs =>
    exact congrArg Host.Outcome.next (if_pos hc)

/-! ## Right after power-on reset (R310) -/

theorem reset_configured : State.reset.dec.configured = false := rfl

theorem reset_chanEnabled (ch : Chan) : State.reset.chanEnabled ch = false := BitVec.getLsbD_zero

/-- Settles O10: reset leaves the decoder unconfigured and every channel disabled, and both refusals write the result
registers only. -/
theorem afterResetUnconfiguredAndDisabled : Obligations.AfterResetUnconfiguredAndDisabled := by
  have turnedAway {i : Instr} (hi : ChecksConfigured i) :
      exec i State.reset = .next { State.reset with iface := ⟨6, 0, 0⟩ } :=
    exec_unconfigured hi State.reset reset_configured
  refine ⟨?_, fun ch d u => execSchSchedule_disabled State.reset ch d u (reset_chanEnabled ch)⟩
  simp only [List.forall_mem_cons]
  exact ⟨turnedAway .tdPrimaryEdge, turnedAway .tdSecondaryEdge, turnedAway .tdGetRpm,
    turnedAway (.tdGetCrankAngle 0 (by decide)), turnedAway (.tdGetCrankAngle 1 (by decide)),
    turnedAway (.tdGetCrankAngle 2 (by decide)), turnedAway .tdStallCheck, turnedAway .cmSpeedCalcs,
    List.forall_mem_nil _⟩

end Sys2Proof.Proofs.Reset
